-- ==== Sys2Proof/Word.lean ====
section
/-! DEFINITION. The two word types of HZC: the byte of a ByteBlock (R15) and the 32-bit data word of every register
and bus transfer (R7). Every register and field is unsigned (R8). -/

namespace Sys2Proof

/-- An element of a ByteBlock: a value 0..255 (R15). -/
abbrev Byte := BitVec 8

/-- The data word: the width of every register and of every host bus transfer (R7). -/
abbrev Word := BitVec 32

end Sys2Proof
end

