-- ==== Sys2Proof/Config.lean ====
section
/-! DEFINITION. The parameters of HZC (R6, R7) and its free values: what a read of unspecified storage answers (R48, R68).
A free value is a constant with no body, applied to the number of the draw and to the place read, so nothing can be
proved about it. -/

namespace Sys2Proof.Config

/-- The largest legal `BUF_CAP` (R6): `1 <= BUF_CAP <= 2^24 - 1`. -/
def bufCapMax : Nat := 2 ^ 24 - 1

/-- The `BUF_CAP` of `State.reset`. DESIGN CHOICE (log entry 2, unsafe): the spec leaves the capacity a parameter (R6);
`State` holds it as the read-only register R35 makes it, and statements range over every value of that field. -/
def bufCap : Nat := 4096

/-- `NODE_CAP` (R7): entries of the node arena. -/
def nodeCap : Nat := 511

/-- `ALPHA_CAP` (R7): bytes of the alphabet memory. -/
def alphaCap : Nat := 256

/-- `CODE_MAXLEN` (R7): the longest code in bits. -/
def codeMaxLen : Nat := 255

/-- `NIL` (R7): the node index that means no node. -/
def nil : BitVec 9 := 0x1FF#9

/-- Free value: draw `n` of byte `i` of byte buffer `k`, stale or without a value (R40, R48; log entries 3 and 4). -/
opaque staleByte : (n k i : Nat) → Byte

/-- Free value: draw `n` of bit `j` of the bit buffer, stale or without a value (R41, R48; log entries 3 and 4). -/
opaque staleBit : (n j : Nat) → Bool

/-- Free value: draw `n` of the word of run entry `j`, stale or without a value (R45, R48; log entries 3 and 4). -/
opaque staleRun : (n j : Nat) → Word

/-- Free value: draw `n` of alphabet byte `i`, stale or without a value (R46, R48; log entries 3 and 4). -/
opaque staleAlpha : (n i : Nat) → Byte

/-- Free value: draw `n` of the fields of word `w` of arena entry `i` at or above `NODE_COUNT`; the layout of R43 holds
there too (log entry 5). -/
opaque staleNode : (n i w : Nat) → Word

/-- Free value: draw `n` of a host read of a location R68 leaves unspecified while `BUSY = 1` (log entry 6). -/
opaque busyRead : (n : Nat) → Word

end Sys2Proof.Config
end

