-- ==== Sys2Proof/Syntax.lean ====
section
/-! DEFINITION. The syntax: the sixteen commands of R94 (one constructor per row of spec/opcode_table.json), the fields of a
command word (R91), and what the host can do to HZC: a bus access (R60, R64) or reset (R240). -/

namespace Sys2Proof

/-- A byte buffer, named by a 2-bit SRC or DST field (R92). -/
inductive Buf where
  | b0 | b1 | b2 | b3
deriving DecidableEq, Repr

/-- The commands of R94, each with the buffer fields it uses. -/
inductive Instr where
  | nop
  | hfreq (src : Buf)
  | htree
  | hcode
  | henc (src : Buf)
  | hdec (dst : Buf)
  | htser (dst : Buf)
  | htload (src : Buf)
  | bwtf (src dst : Buf)
  | bwti (src dst : Buf)
  | mtfe (src dst : Buf)
  | mtfd (src dst : Buf)
  | rlee (src : Buf)
  | rled (dst : Buf)
  | pack (dst : Buf)
  | unpack (src : Buf)
deriving DecidableEq, Repr

/-- The four fields of a command word (R91): OP 7:0, SRC 9:8, DST 11:10, RSVD 31:12. -/
structure CmdFields where
  op   : BitVec 8
  src  : BitVec 2
  dst  : BitVec 2
  rsvd : BitVec 20
deriving DecidableEq, Repr

/-- One host access to the window: its width in bytes, its offset in the 29-bit window (R60) and, for a write, the word.
Any width and alignment can be asked for; R64 says which are refused. -/
inductive HostOp where
  | read  (bytes : Nat) (off : BitVec 29)
  | write (bytes : Nat) (off : BitVec 29) (v : Word)
deriving DecidableEq, Repr

/-- One move of one agent (R16): an access of the host (R69), the core's turn, at which a busy core takes its completion
step (R202), or an assertion of the reset input (R240). -/
inductive Event where
  | host (op : HostOp)
  | core
  | reset
deriving DecidableEq, Repr

end Sys2Proof
end

