-- ==== Sys2Proof/WellFormed.lean ====
section
/-! DEFINITION. The checks on a term alone: the four conditions R95 puts on a command word's fields, and the two conditions R64
puts on a host access. A command of `Instr` has no check of its own: R92 makes every buffer index legal. -/

namespace Sys2Proof

/-- Which buffer fields the command with opcode `op` uses, as `(SRC used, DST used)`; none for a reserved opcode (R94, R96). -/
def opUses (op : BitVec 8) : Option (Bool × Bool) :=
  match op.toNat with
  | 0x00 => some (false, false)
  | 0x01 => some (true, false)
  | 0x02 => some (false, false)
  | 0x03 => some (false, false)
  | 0x04 => some (true, false)
  | 0x05 => some (false, true)
  | 0x06 => some (false, true)
  | 0x07 => some (true, false)
  | 0x10 => some (true, true)
  | 0x11 => some (true, true)
  | 0x20 => some (true, true)
  | 0x21 => some (true, true)
  | 0x30 => some (true, false)
  | 0x31 => some (false, true)
  | 0x40 => some (false, true)
  | 0x41 => some (true, false)
  | _ => none

/-- RSVD must be 0 (R91, R96). -/
def CmdFields.rsvdZero (f : CmdFields) : Bool := f.rsvd == 0

/-- OP must be a row of R94 (R96). -/
def CmdFields.opListed (f : CmdFields) : Bool := (opUses f.op).isSome

/-- SRC must be 0 for a command that does not use it (R92, R95). -/
def CmdFields.srcZeroIfUnused (f : CmdFields) : Bool :=
  match opUses f.op with
  | some (false, _) => f.src == 0
  | _ => true

/-- DST must be 0 for a command that does not use it (R92, R95). -/
def CmdFields.dstZeroIfUnused (f : CmdFields) : Bool :=
  match opUses f.op with
  | some (_, false) => f.dst == 0
  | _ => true

/-- The fields of a word that decodes to a command (R95). -/
def CmdFields.wellFormed (f : CmdFields) : Bool :=
  f.rsvdZero && f.opListed && f.srcZeroIfUnused && f.dstZeroIfUnused

/-- The width of an access, in bytes. -/
def HostOp.bytes : HostOp → Nat
  | .read n _ => n
  | .write n _ _ => n

/-- The window offset of an access. -/
def HostOp.off : HostOp → BitVec 29
  | .read _ o => o
  | .write _ o _ => o

/-- Every access is a 32-bit access (R64). -/
def HostOp.wordWide (op : HostOp) : Bool := op.bytes == 4

/-- The offset of every access is a multiple of 4 (R64). -/
def HostOp.aligned (op : HostOp) : Bool := op.off.toNat % 4 == 0

/-- An access the bus does not refuse (R64). -/
def HostOp.wellFormed (op : HostOp) : Bool := op.wordWide && op.aligned

end Sys2Proof
end

