-- ==== Sys2Proof/Decode.lean ====
section
/-! DEFINITION. The decoder of R95, total on all 2^32 words and rejecting by name, and the encoder of R91 and R94. -/

namespace Sys2Proof

/-- The buffer a 2-bit field selects (R92). -/
def Buf.ofBits (k : BitVec 2) : Buf :=
  match k.toNat with
  | 0 => .b0
  | 1 => .b1
  | 2 => .b2
  | _ => .b3

/-- The number of a buffer (R92). -/
def Buf.toNat : Buf → Nat
  | .b0 => 0
  | .b1 => 1
  | .b2 => 2
  | .b3 => 3

/-- The 2-bit field that selects a buffer (R92). -/
def Buf.toBits (k : Buf) : BitVec 2 := BitVec.ofNat 2 k.toNat

/-- Why a word decodes to no command (R95, R96); each completes with ERR = UNSUPPORTED (R203). -/
inductive Unsupported where
  /-- RSVD bits 31:12 are not 0. -/
  | rsvdNonzero
  /-- OP is not a row of R94. -/
  | reservedOp
  /-- SRC is not 0 and the command does not use it. -/
  | unusedSrc
  /-- DST is not 0 and the command does not use it. -/
  | unusedDst
deriving DecidableEq, Repr

/-- The fields of a word (R91). -/
def CmdFields.ofWord (c : Word) : CmdFields :=
  { op := c.extractLsb' 0 8, src := c.extractLsb' 8 2, dst := c.extractLsb' 10 2, rsvd := c.extractLsb' 12 20 }

/-- The word with the given fields (R91). -/
def CmdFields.toWord (f : CmdFields) : Word := f.rsvd ++ f.dst ++ f.src ++ f.op

/-- The row of R94 with a given opcode, as the command its mnemonic names. -/
def opRow (op : BitVec 8) (src dst : Buf) : Option Instr :=
  match op.toNat with
  | 0x00 => some .nop
  | 0x01 => some (.hfreq src)
  | 0x02 => some .htree
  | 0x03 => some .hcode
  | 0x04 => some (.henc src)
  | 0x05 => some (.hdec dst)
  | 0x06 => some (.htser dst)
  | 0x07 => some (.htload src)
  | 0x10 => some (.bwtf src dst)
  | 0x11 => some (.bwti src dst)
  | 0x20 => some (.mtfe src dst)
  | 0x21 => some (.mtfd src dst)
  | 0x30 => some (.rlee src)
  | 0x31 => some (.rled dst)
  | 0x40 => some (.pack dst)
  | 0x41 => some (.unpack src)
  | _ => none

/-- The decode function, in the order of R95. -/
def decodeFields (f : CmdFields) : Except Unsupported Instr :=
  if f.rsvdZero = false then .error .rsvdNonzero
  else
    match opRow f.op (Buf.ofBits f.src) (Buf.ofBits f.dst) with
    | none => .error .reservedOp
    | some i =>
      if f.srcZeroIfUnused = false then .error .unusedSrc
      else if f.dstZeroIfUnused = false then .error .unusedDst
      else .ok i

/-- The decode function on a command word (R95). -/
def decode (c : Word) : Except Unsupported Instr := decodeFields (CmdFields.ofWord c)

/-- The fields of a command: its opcode (R94), the buffers it uses, and 0 elsewhere (R91, R92). -/
def Instr.fields : Instr → CmdFields
  | .nop => ⟨0x00, 0, 0, 0⟩
  | .hfreq s => ⟨0x01, s.toBits, 0, 0⟩
  | .htree => ⟨0x02, 0, 0, 0⟩
  | .hcode => ⟨0x03, 0, 0, 0⟩
  | .henc s => ⟨0x04, s.toBits, 0, 0⟩
  | .hdec d => ⟨0x05, 0, d.toBits, 0⟩
  | .htser d => ⟨0x06, 0, d.toBits, 0⟩
  | .htload s => ⟨0x07, s.toBits, 0, 0⟩
  | .bwtf s d => ⟨0x10, s.toBits, d.toBits, 0⟩
  | .bwti s d => ⟨0x11, s.toBits, d.toBits, 0⟩
  | .mtfe s d => ⟨0x20, s.toBits, d.toBits, 0⟩
  | .mtfd s d => ⟨0x21, s.toBits, d.toBits, 0⟩
  | .rlee s => ⟨0x30, s.toBits, 0, 0⟩
  | .rled d => ⟨0x31, 0, d.toBits, 0⟩
  | .pack d => ⟨0x40, 0, d.toBits, 0⟩
  | .unpack s => ⟨0x41, s.toBits, 0, 0⟩

/-- The word of a command (R91, R98). -/
def encode (i : Instr) : Word := i.fields.toWord

/-- The decoder read on a table word: a command is always exactly one 32-bit word (R90), so bits at or above `nbits` are 0. -/
def decodeTableWord (nbits w : Nat) : Option Instr :=
  match decode (BitVec.ofNat 32 (w % 2 ^ nbits)) with
  | .ok i => some i
  | .error _ => none

/-! ### The opcode table as matches and masks (R95) -/

/-- The mnemonic of a command, as spec/opcode_table.json spells it (R94). -/
def Instr.mnemonic : Instr → String
  | .nop => "NOP"
  | .hfreq _ => "HFREQ"
  | .htree => "HTREE"
  | .hcode => "HCODE"
  | .henc _ => "HENC"
  | .hdec _ => "HDEC"
  | .htser _ => "HTSER"
  | .htload _ => "HTLOAD"
  | .bwtf _ _ => "BWTF"
  | .bwti _ _ => "BWTI"
  | .mtfe _ _ => "MTFE"
  | .mtfd _ _ => "MTFD"
  | .rlee _ => "RLEE"
  | .rled _ => "RLED"
  | .pack _ => "PACK"
  | .unpack _ => "UNPACK"

/-- A row of the opcode table (R95). -/
structure OpRow where
  mnemonic : String
  value    : Word
  mask     : Word
deriving DecidableEq, Repr

/-- The rows of spec/opcode_table.json (R94, R95). The decoder does not read them; that it agrees with them is a claim. -/
def opTable : List OpRow :=
  [⟨"NOP", 0x00, 0xFFFFFFFF⟩, ⟨"HFREQ", 0x01, 0xFFFFFCFF⟩, ⟨"HTREE", 0x02, 0xFFFFFFFF⟩, ⟨"HCODE", 0x03, 0xFFFFFFFF⟩,
   ⟨"HENC", 0x04, 0xFFFFFCFF⟩, ⟨"HDEC", 0x05, 0xFFFFF3FF⟩, ⟨"HTSER", 0x06, 0xFFFFF3FF⟩, ⟨"HTLOAD", 0x07, 0xFFFFFCFF⟩] ++
  [⟨"BWTF", 0x10, 0xFFFFF0FF⟩, ⟨"BWTI", 0x11, 0xFFFFF0FF⟩, ⟨"MTFE", 0x20, 0xFFFFF0FF⟩, ⟨"MTFD", 0x21, 0xFFFFF0FF⟩,
   ⟨"RLEE", 0x30, 0xFFFFFCFF⟩, ⟨"RLED", 0x31, 0xFFFFF3FF⟩, ⟨"PACK", 0x40, 0xFFFFF3FF⟩, ⟨"UNPACK", 0x41, 0xFFFFFCFF⟩]

end Sys2Proof
end

