-- ==== Sys2Proof/Machine/State.lean ====
section
/-! DEFINITION. The architectural state of HZC (R20), the state after reset (R52, R240), and the reasons a step can stop. -/

namespace Sys2Proof.Machine

/-- Why the machine stops with a fault. -/
inductive Fault where
  /-- HCODE, HTSER or HDEC met an arena that breaks R44, for which the spec gives no behaviour: R44 says these commands
  never meet one. Raised by those three meanings only. Safe: it stands only in states no run reaches (log entry 8). -/
  | malformedArena
deriving DecidableEq, Repr

/-- Why the machine gives a command no meaning. -/
inductive Refusal where
  /-- The command has no meaning in this model yet. Raised by `exec`'s refused arms only (there is none). Safe. -/
  | notModelled (mnemonic : String)
deriving DecidableEq, Repr

/-- The values of `STATUS.ERR` (R27): exactly seven (U7). -/
inductive ErrCode where
  | ok | emptyInput | corruptStream | format | unsupported | noCode | capacity
deriving DecidableEq, Repr

/-- The core phase (R24): `Busy(c)` holds the accepted command word. -/
inductive Phase where
  | idle
  | busy (c : Word)
deriving DecidableEq, Repr

/-- One thing for each of the four byte buffers (R7: NBUF = 4). -/
structure PerBuf (α : Type) where
  b0 : α
  b1 : α
  b2 : α
  b3 : α
deriving DecidableEq, Repr

/-- A run entry (R45). -/
structure Run where
  value : BitVec 8
  count : BitVec 24
deriving DecidableEq, Repr

/-- An arena entry (R43). -/
structure Node where
  leaf   : Bool
  sym    : BitVec 8
  left   : BitVec 9
  right  : BitVec 9
  weight : BitVec 32
deriving DecidableEq, Repr

/-- A code table entry (R47): bit `j` of `cbits` is bit `j` of the code, the bit nearest the root first. -/
structure CodeEntry where
  clen  : BitVec 8
  cbits : BitVec 255
deriving DecidableEq, Repr

/-- What an array memory holds: the indices that have a value, strictly rising, each with that value. An index that
is not listed has no value since the last reset (R48, R52). `Store Byte` is a list of `Host.Cell`. -/
abbrev Store (α : Type) := List (Nat × α)

/-- The five memories whose reset contents are unspecified (R52): `B0..B3`, `BIT`, `ALPHA`, `RUN` and `NODE`. -/
structure Memory where
  buf   : PerBuf (Store Byte)
  bit   : Store Bool
  alpha : Store Byte
  run   : Store Run
  node  : Store Node
deriving DecidableEq, Repr

/-- Why the bus refuses an access (R64). -/
inductive BusError where
  /-- The access is narrower or wider than 32 bits. -/
  | wrongWidth
  /-- The offset is not a multiple of 4. -/
  | misaligned
deriving DecidableEq, Repr

/-- The bus response to a host access: the word read, a write taken (whether or not it has an effect), or the error response
of R64 and R226. -/
inductive BusResp where
  | readData (v : Word)
  | writeDone
  | error (e : BusError)
deriving DecidableEq, Repr

/-- The state of one HZC instance (R20) and, last, the model's own fields: the schedule, the bus response and the number of
the next draw (log entries 1, 3 and 14). -/
structure State where
  /-- `BUF_CAP`, read-only (R35). `BIT_CAP` and `RUN_CAP` are computed from it (R7). -/
  bufCap    : Nat
  /-- The core phase (R24); `STATUS.BUSY` is computed from it. -/
  phase     : Phase
  /-- `CMD` (R29). -/
  cmd       : Word
  /-- `STATUS.DONE` (R25). -/
  done      : Bool
  /-- `STATUS.OVR` (R26). -/
  ovr       : Bool
  /-- `STATUS.ERR` (R27). -/
  err       : ErrCode
  /-- `CTRL.IRQ_EN` (R28). -/
  irqEn     : Bool
  /-- `LEN0..LEN3` (R30). -/
  len       : PerBuf Word
  /-- `BIT_LEN` (R31). -/
  bitLen    : Word
  /-- `ORIG_INDEX` (R32). -/
  origIndex : Word
  /-- `ALPHA_LEN` (R33). -/
  alphaLen  : Word
  /-- `RUN_LEN` (R34). -/
  runLen    : Word
  /-- `NODE_COUNT` (R36), 10 bits used. -/
  nodeCount : BitVec 10
  /-- `ROOT` (R37), 9 bits used. -/
  root      : BitVec 9
  /-- `FREQ` (R42). -/
  freq      : Vector Word 256
  /-- `CODE` (R47). -/
  code      : Vector CodeEntry 256
  /-- `B0..B3` (R40), `BIT` (R41), `ALPHA` (R46), `RUN` (R45) and `NODE` (R43). -/
  mem       : Memory
  /-- MODEL'S OWN: what happens next, first event first (R69, R202; log entry 1). -/
  agenda    : List Event
  /-- MODEL'S OWN: the bus response to the last host access (R64, R226; log entry 14). -/
  resp      : Option BusResp
  /-- MODEL'S OWN: the number of the next draw of unspecified storage (R48, R68; log entry 3). -/
  draws     : Nat
deriving DecidableEq, Repr

/-- Memories nothing has written since reset (R52). -/
def Memory.unwritten : Memory :=
  { buf := ⟨[], [], [], []⟩, bit := [], alpha := [], run := [], node := [] }

/-- The reset state of an HZC whose `BUF_CAP` is `cap` (R52, R240), with nothing pending. -/
def State.resetOf (cap : Nat) : State :=
  { bufCap := cap, phase := .idle, cmd := 0, done := false, ovr := false, err := .ok, irqEn := false,
    len := ⟨0, 0, 0, 0⟩, bitLen := 0, origIndex := 0, alphaLen := 0, runLen := 0,
    nodeCount := 0, root := Config.nil,
    freq := Vector.replicate 256 0, code := Vector.replicate 256 ⟨0, 0⟩,
    mem := Memory.unwritten, agenda := [], resp := none, draws := 0 }

/-- The machine right after reset (R52), with the `BUF_CAP` of log entry 2. -/
def State.reset : State := State.resetOf Config.bufCap

end Sys2Proof.Machine
end

