-- ==== Sys2Proof/Machine/Ops.lean ====
section
/-! DEFINITION. The shared operations: sparse stores, per-buffer access, bit strings as numbers, the commit and the failure
that end every command (R10, R13, R202), and the acceptance that starts one (R201). -/

namespace Sys2Proof.Machine

/-! ### Stores: the form a memory is held in -/

/-- The value at index `i`, if something has given it one. -/
def Store.get {α : Type} : Store α → Nat → Option α
  | [], _ => none
  | (j, v) :: m, i => if j = i then some v else Store.get m i

/-- Gives index `i` the value `v`, keeping the indices strictly rising. -/
def Store.set {α : Type} : Store α → Nat → α → Store α
  | [], i, v => [(i, v)]
  | (j, w) :: m, i, v =>
    if i < j then (i, v) :: (j, w) :: m
    else if i = j then (i, v) :: m
    else (j, w) :: Store.set m i v

/-- The store that lists `xs` from index `i` on. -/
def Store.listFrom {α : Type} : Nat → List α → Store α
  | _, [] => []
  | i, x :: xs => (i, x) :: Store.listFrom (i + 1) xs

/-- Gives indices `0..|xs|-1` the values `xs` and keeps every other index: how a commit writes a memory (R40, R48, R78). -/
def Store.put {α : Type} (xs : List α) (m : Store α) : Store α :=
  Store.listFrom 0 xs ++ m.filter fun e => decide (xs.length ≤ e.1)

/-- Gives each of the indices `base..base+|vs|-1` that lies below `cap` its value: how a host write of one word reaches a
memory (R62, R65). -/
def Store.setFrom {α : Type} (cap : Nat) : Nat → List α → Store α → Store α
  | _, [], m => m
  | i, v :: vs, m => Store.setFrom cap (i + 1) vs (if i < cap then Store.set m i v else m)

/-- What a read of index `i` answers where the length register holds `len`: the value of a valid index, and a draw where the
index is stale or nothing has given it a value (R48, R52; log entries 3 and 4). -/
def Store.readBelow {α : Type} (len : Nat) (m : Store α) (i : Nat) (draw : α) : α :=
  if i < len then (Store.get m i).getD draw else draw

/-- The canonical form of a store: indices strictly rising, so none is listed twice. An unlisted index has no value, so no
listed entry can equal what an unlisted one reads as. -/
abbrev Store.wf {α : Type} (m : Store α) : Prop := (m.map Prod.fst).Pairwise (· < ·)

/-- The canonical form of the memories. -/
abbrev Memory.wf (m : Memory) : Prop :=
  Store.wf m.buf.b0 ∧ Store.wf m.buf.b1 ∧ Store.wf m.buf.b2 ∧ Store.wf m.buf.b3 ∧
  Store.wf m.bit ∧ Store.wf m.alpha ∧ Store.wf m.run ∧ Store.wf m.node

/-! ### One of four buffers (R92) -/

/-- The entry of buffer `k`. -/
def PerBuf.get {α : Type} (p : PerBuf α) : Buf → α
  | .b0 => p.b0
  | .b1 => p.b1
  | .b2 => p.b2
  | .b3 => p.b3

/-- Replaces the entry of buffer `k`. -/
def PerBuf.set {α : Type} (p : PerBuf α) (k : Buf) (v : α) : PerBuf α :=
  match k with
  | .b0 => { p with b0 := v }
  | .b1 => { p with b1 := v }
  | .b2 => { p with b2 := v }
  | .b3 => { p with b3 := v }

/-! ### Bit strings and tables -/

/-- The number whose bit `j` is element `j` of the bit string. -/
def bitsNat : List Bool → Nat
  | [] => 0
  | b :: bs => b.toNat + 2 * bitsNat bs

/-- A table of `n` entries, entry `i` being `f i`. -/
def tabulate {α : Type} (n : Nat) (f : Nat → α) : Vector α n :=
  ⟨((List.range n).map f).toArray, by simp⟩

/-- `ceil(x / 8)` (R8). -/
def ceil8 (x : Nat) : Nat := (x + 7) / 8

/-! ### Acceptance, commit and failure -/

/-- Acceptance of command word `c` (R201): CMD takes it, BUSY rises, DONE and ERR are cleared, the rest is unchanged. -/
def State.accept (c : Word) (s : State) : State :=
  { s with cmd := c, phase := .busy c, done := false, err := .ok }

/-- What the completion step does to STATUS and the phase (R202): ERR takes the code, DONE rises, BUSY falls. The number
of the next draw advances, so that no two commands share a draw (log entry 3). -/
def State.complete (e : ErrCode) (s : State) : State :=
  { s with err := e, done := true, phase := .idle, draws := s.draws + 1 }

/-- `commit { … }` (R10): the command's writes have been applied to `s`; it ends with code OK. -/
def commit (s : State) : Host.Outcome State Fault Refusal := .next (s.complete .ok)

/-- `fail(E)` (R10, R13, R212): the command ends at once with code `e` and changes no state but STATUS. This is HZC's only
form of an exception; nothing is saved and nothing returns (R217, R218). -/
def failWith (e : ErrCode) (s : State) : Host.Outcome State Fault Refusal := .next (s.complete e)

/-- How a command's computation can end before its commit: with an error code, or on an arena that breaks R44. -/
inductive Halt where
  | code (e : ErrCode)
  | malformed
deriving DecidableEq, Repr

/-- Ends a command that ran in state `s`: commits the written state, fails with a code, or stops on a malformed arena. -/
def settle (s : State) : Except Halt State → Host.Outcome State Fault Refusal
  | .ok t => commit t
  | .error (.code e) => failWith e s
  | .error .malformed => .fault .malformedArena

end Sys2Proof.Machine
end

