-- ==== Sys2Proof/Machine/Operands.lean ====
section
/-! DEFINITION. What a command reads and what its commit writes: each memory from index 0 up to its length register (R78), the
registers (R30 to R37), and the arena as a tree (R43, R44). A read of a stale place, or of one nothing has given a value, is a
draw (R48, R52; log entries 3 and 4). -/

namespace Sys2Proof.Machine

/-! ### Capacities (R7) -/

/-- `BIT_CAP = 8 * BUF_CAP`. -/
def State.bitCap (s : State) : Nat := 8 * s.bufCap

/-- `RUN_CAP = BUF_CAP`. -/
def State.runCap (s : State) : Nat := s.bufCap

/-! ### Sources -/

/-- Byte `i` of buffer `k` (R40). -/
def State.byteAt (s : State) (k : Buf) (i : Nat) : Byte :=
  Store.readBelow (s.len.get k).toNat (s.mem.buf.get k) i (Config.staleByte s.draws k.toNat i)

/-- The block `BUF[k][0..LEN[k])` (R40, R78). -/
def State.block (s : State) (k : Buf) : List Byte :=
  (List.range (s.len.get k).toNat).map (s.byteAt k)

/-- Bit `j` of the bit buffer (R41). -/
def State.bitAt (s : State) (j : Nat) : Bool :=
  Store.readBelow s.bitLen.toNat s.mem.bit j (Config.staleBit s.draws j)

/-- The BitStream `BIT[0..BIT_LEN)` (R41). -/
def State.bits (s : State) : List Bool := (List.range s.bitLen.toNat).map s.bitAt

/-- A run entry from its window word `{COUNT[31:8], VALUE[7:0]}` (R45). -/
def Run.ofWord (w : Word) : Run := { value := w.extractLsb' 0 8, count := w.extractLsb' 8 24 }

/-- The window word of a run entry (R45). -/
def Run.toWord (r : Run) : Word := r.count ++ r.value

/-- Run entry `j` (R45). -/
def State.runAt (s : State) (j : Nat) : Run :=
  Store.readBelow s.runLen.toNat s.mem.run j (Run.ofWord (Config.staleRun s.draws j))

/-- The run list `RUN[0..RUN_LEN)` (R45). -/
def State.runs (s : State) : List Run := (List.range s.runLen.toNat).map s.runAt

/-- Byte `i` of the alphabet memory (R46). -/
def State.alphaAt (s : State) (i : Nat) : Byte :=
  Store.readBelow s.alphaLen.toNat s.mem.alpha i (Config.staleAlpha s.draws i)

/-- The initial alphabet `ALPHA[0..ALPHA_LEN)` (R46). -/
def State.alphabet (s : State) : List Byte := (List.range s.alphaLen.toNat).map s.alphaAt

/-- `FREQ[v]` (R42). -/
def State.freqAt (s : State) (v : Nat) : Nat := (s.freq.toList.getD v 0).toNat

/-- The entry of the code table for byte `v` (R47). -/
def State.codeAt (s : State) (v : Byte) : CodeEntry := s.code.toList.getD v.toNat ⟨0, 0⟩

/-- The code string `c[0..CLEN)` of a code table entry (R47). -/
def CodeEntry.bits (e : CodeEntry) : List Bool :=
  (List.range e.clen.toNat).map fun j => e.cbits.getLsbD j

/-- The code table entry of a code string; the empty string means no code (R47, R114). -/
def CodeEntry.ofBits (c : List Bool) : CodeEntry :=
  { clen := BitVec.ofNat 8 c.length, cbits := BitVec.ofNat 255 (bitsNat c) }

/-! ### The arena -/

/-- Valid arena entry `i` (R43): an index below `NODE_COUNT`. -/
def State.node? (s : State) (i : Nat) : Option Node :=
  if i < s.nodeCount.toNat then Store.get s.mem.node i else none

/-- An arena entry from its two window words (R43); bits 30:26 of the first carry nothing. -/
def Node.ofWords (w₀ w₁ : Word) : Node :=
  { leaf := w₀.getLsbD 31, sym := w₀.extractLsb' 18 8, left := w₀.extractLsb' 0 9, right := w₀.extractLsb' 9 9,
    weight := w₁ }

/-- Arena entry `i` as the host sees it: one at or above `NODE_COUNT` has drawn fields (R43, R48; log entry 5). -/
def State.nodeAt (s : State) (i : Nat) : Node :=
  (s.node? i).getD (Node.ofWords (Config.staleNode s.draws i 0) (Config.staleNode s.draws i 1))

/-- A Huffman tree (R15), each node with its arena index. -/
inductive Tree where
  | leaf (i : Nat) (sym : Byte)
  | node (i : Nat) (l r : Tree)
deriving DecidableEq, Repr

/-- The tree below arena index `i`, if it has at most `fuel` levels and every index in it is valid. -/
def State.readTree (s : State) : (fuel : Nat) → (i : Nat) → Option Tree
  | 0, _ => none
  | fuel + 1, i =>
    match s.node? i with
    | none => none
    | some n =>
      if n.leaf then some (.leaf i n.sym)
      else
        match State.readTree s fuel n.left.toNat, State.readTree s fuel n.right.toNat with
        | some l, some r => some (.node i l r)
        | _, _ => none

/-- The tree the arena holds, rooted at `ROOT` (R37, R44). A tree of at most 256 leaves has at most 256 levels (R7); none is
answered only for an arena that breaks R44. -/
def State.tree? (s : State) : Option Tree := s.readTree (Config.codeMaxLen + 1) s.root.toNat

/-- A node while it is being made: weights and indices are natural numbers (R14). -/
structure ProtoNode where
  leaf   : Bool
  sym    : Byte
  weight : Nat
  left   : Nat
  right  : Nat
deriving DecidableEq, Repr

/-- A leaf: payload, weight, no children (R43). -/
def ProtoNode.mkLeaf (sym : Byte) (weight : Nat) : ProtoNode :=
  { leaf := true, sym := sym, weight := weight, left := Config.nil.toNat, right := Config.nil.toNat }

/-- An internal node: SYM 0 and two children (R43). -/
def ProtoNode.mkInner (weight left right : Nat) : ProtoNode :=
  { leaf := false, sym := 0, weight := weight, left := left, right := right }

/-- The arena entry of a finished node (R43). -/
def ProtoNode.toNode (n : ProtoNode) : Node :=
  { leaf := n.leaf, sym := n.sym, left := BitVec.ofNat 9 n.left, right := BitVec.ofNat 9 n.right,
    weight := BitVec.ofNat 32 n.weight }

/-! ### Destinations -/

/-- `BUF[k][0..|xs|) <- xs; LEN[k] <- |xs|` (R40, R78). -/
def State.putBlock (k : Buf) (xs : List Byte) (s : State) : State :=
  { s with
    mem := { s.mem with buf := s.mem.buf.set k (Store.put xs (s.mem.buf.get k)) },
    len := s.len.set k (BitVec.ofNat 32 xs.length) }

/-- `BIT[0..|bs|) <- bs` (R41). -/
def State.putBits (bs : List Bool) (s : State) : State :=
  { s with mem := { s.mem with bit := Store.put bs s.mem.bit } }

/-- `BIT_LEN <- n` (R31). -/
def State.putBitLen (n : Nat) (s : State) : State := { s with bitLen := BitVec.ofNat 32 n }

/-- `RUN[0..|rs|) <- rs; RUN_LEN <- |rs|` (R45). -/
def State.putRuns (rs : List Run) (s : State) : State :=
  { s with mem := { s.mem with run := Store.put rs s.mem.run }, runLen := BitVec.ofNat 32 rs.length }

/-- `ALPHA[0..|a|) <- a; ALPHA_LEN <- |a|` (R46). -/
def State.putAlphabet (a : List Byte) (s : State) : State :=
  { s with mem := { s.mem with alpha := Store.put a s.mem.alpha }, alphaLen := BitVec.ofNat 32 a.length }

/-- `ORIG_INDEX <- i` (R32). -/
def State.putOrigIndex (i : Nat) (s : State) : State := { s with origIndex := BitVec.ofNat 32 i }

/-- `FREQ[v] <- f v` for every byte value (R42). -/
def State.putFreq (f : Nat → Nat) (s : State) : State :=
  { s with freq := tabulate 256 fun v => BitVec.ofNat 32 (f v) }

/-- `CODE[v] <- (|c v|, c v)` for every byte value (R47, R114). -/
def State.putCode (c : Nat → List Bool) (s : State) : State :=
  { s with code := tabulate 256 fun v => CodeEntry.ofBits (c v) }

/-- `NODE[i] <- ns[i]; NODE_COUNT <- |ns|; ROOT <- root` (R43, R36, R37). -/
def State.putArena (ns : List ProtoNode) (root : Nat) (s : State) : State :=
  { s with
    mem := { s.mem with node := Store.put (ns.map ProtoNode.toNode) s.mem.node },
    nodeCount := BitVec.ofNat 10 ns.length, root := BitVec.ofNat 9 root }

end Sys2Proof.Machine
end

