-- ==== Sys2Proof/Machine/Flags.lean ====
section
/-! DEFINITION. The flags: the STATUS word and its write-one-to-clear bits (R23 to R27), the CTRL word (R28) and the IRQ line
(R214). -/

namespace Sys2Proof.Machine

/-- The value of an error code in `STATUS.ERR` (R27). -/
def ErrCode.toBits : ErrCode → BitVec 4
  | .ok => 0
  | .emptyInput => 1
  | .corruptStream => 2
  | .format => 3
  | .unsupported => 4
  | .noCode => 5
  | .capacity => 6

/-- `STATUS.BUSY` (R24). -/
def State.busy (s : State) : Bool :=
  match s.phase with
  | .idle => false
  | .busy _ => true

/-- The STATUS word (R23): BUSY bit 0, DONE bit 1, OVR bit 2, ERR bits 11:8, every other bit 0. -/
def State.statusWord (s : State) : Word :=
  (0#20) ++ s.err.toBits ++ (0#5) ++ BitVec.ofBool s.ovr ++ BitVec.ofBool s.done ++ BitVec.ofBool s.busy

/-- A host write of `v` to STATUS clears DONE where bit 1 of `v` is 1 and OVR where bit 2 is 1, and nothing else (R23). -/
def State.writeStatus (v : Word) (s : State) : State :=
  { s with done := s.done && !v.getLsbD 1, ovr := s.ovr && !v.getLsbD 2 }

/-- The CTRL word (R28): IRQ_EN in bit 0, every other bit 0. -/
def State.ctrlWord (s : State) : Word := (0#31) ++ BitVec.ofBool s.irqEn

/-- A host write of `v` to CTRL sets IRQ_EN to bit 0 of `v` (R28). -/
def State.writeCtrl (v : Word) (s : State) : State := { s with irqEn := v.getLsbD 0 }

/-- The IRQ output (R214): `STATUS.DONE AND CTRL.IRQ_EN`. -/
def State.irq (s : State) : Bool := s.done && s.irqEn

end Sys2Proof.Machine
end

