-- ==== Sys2Proof/Machine/Bus.lean ====
section
/-! DEFINITION. The host's side of HZC: the window map (R61), the lanes of each memory (R62), what a read answers and what a
write does, idle (R22 to R47, R65, R66) and busy (R26, R68), and the accesses the bus refuses (R64). -/

namespace Sys2Proof.Machine

/-- What stands at a window offset (R61). -/
inductive Loc where
  | id | ctrl | cmd | status
  | len (k : Buf)
  | bitLen | origIndex | alphaLen | runLen | nodeCount | root
  | bufCap | bitCap | runCap
  | freq (v : Nat)
  | node (i w : Nat)
  | code (v w : Nat)
  | alpha (w : Nat)
  | run (j : Nat)
  | bit (w : Nat)
  | buf (k : Buf) (w : Nat)
  | unassigned
deriving DecidableEq, Repr

/-- The registers (R22 to R38). -/
def locateReg (o : Nat) : Loc :=
  match o with
  | 0x000 => .id
  | 0x004 => .ctrl
  | 0x008 => .cmd
  | 0x00C => .status
  | 0x010 => .len .b0
  | 0x014 => .len .b1
  | 0x018 => .len .b2
  | 0x01C => .len .b3
  | 0x020 => .bitLen
  | 0x024 => .origIndex
  | 0x028 => .alphaLen
  | 0x02C => .runLen
  | 0x030 => .nodeCount
  | 0x034 => .root
  | 0x040 => .bufCap
  | 0x044 => .bitCap
  | 0x048 => .runCap
  | _ => .unassigned

/-- The address map (R61). -/
def locate (o : Nat) : Loc :=
  if o < 0x1000 then locateReg o
  else if o < 0x1400 then .freq ((o - 0x1000) / 4)
  else if o < 0x2000 then .unassigned
  else if o < 0x2FF8 then .node ((o - 0x2000) / 8) ((o - 0x2000) / 4 % 2)
  else if o < 0x4000 then .unassigned
  else if o < 0x8000 then .code ((o - 0x4000) / 64) ((o - 0x4000) / 4 % 16)
  else if o < 0x8100 then .alpha ((o - 0x8000) / 4)
  else if o < 0x04000000 then .unassigned
  else if o < 0x08000000 then .run ((o - 0x04000000) / 4)
  else if o < 0x0C000000 then .bit ((o - 0x08000000) / 4)
  else if o < 0x10000000 then .buf .b0 ((o - 0x0C000000) / 4)
  else if o < 0x14000000 then .buf .b1 ((o - 0x10000000) / 4)
  else if o < 0x18000000 then .buf .b2 ((o - 0x14000000) / 4)
  else if o < 0x1C000000 then .buf .b3 ((o - 0x18000000) / 4)
  else .unassigned

/-! ### Lanes (R62, R63) -/

/-- The word whose byte lane `l` is `f l` (R62). -/
def wordOfBytes (f : Nat → Byte) : Word := f 3 ++ f 2 ++ f 1 ++ f 0

/-- The four byte lanes of a word, lowest first (R62). -/
def bytesOfWord (v : Word) : List Byte := (List.range 4).map fun l => v.extractLsb' (8 * l) 8

/-- The word whose bit `j` is `f j` (R62, BIT). -/
def wordOfBits (f : Nat → Bool) : Word := BitVec.ofNat 32 (bitsNat ((List.range 32).map f))

/-- The 32 bits of a word, bit 0 first (R62, BIT). -/
def bitsOfWord (v : Word) : List Bool := (List.range 32).map v.getLsbD

/-- The two window words of an arena entry (R43). -/
def Node.word (n : Node) (w : Nat) : Word :=
  if w = 0 then BitVec.ofBool n.leaf ++ (0#5) ++ n.sym ++ n.right ++ n.left else n.weight

/-- The sixteen window words of a code table entry (R47): CLEN, then the eight words of CBITS, then zeros. -/
def CodeEntry.word (e : CodeEntry) (w : Nat) : Word :=
  if w = 0 then e.clen.setWidth 32
  else if w ≤ 8 then (e.cbits.setWidth 256).extractLsb' (32 * (w - 1)) 32
  else 0

/-! ### Reads -/

/-- What a read of a location answers while the core is idle. A place at or above its memory's capacity reads 0 (R65); one at
or above its length register, or with no value yet, reads as a draw (R43, R48; log entries 3 to 5). -/
def State.readIdle (s : State) : Loc → Word
  | .id => 0x485A4331
  | .ctrl => s.ctrlWord
  | .cmd => s.cmd
  | .status => s.statusWord
  | .len k => s.len.get k
  | .bitLen => s.bitLen
  | .origIndex => s.origIndex
  | .alphaLen => s.alphaLen
  | .runLen => s.runLen
  | .nodeCount => s.nodeCount.setWidth 32
  | .root => s.root.setWidth 32
  | .bufCap => BitVec.ofNat 32 s.bufCap
  | .bitCap => BitVec.ofNat 32 s.bitCap
  | .runCap => BitVec.ofNat 32 s.runCap
  | .freq v => s.freq.toList.getD v 0
  | .node i w => (s.nodeAt i).word w
  | .code v w => (s.code.toList.getD v ⟨0, 0⟩).word w
  | .alpha w => wordOfBytes fun l => s.alphaAt (4 * w + l)
  | .run j => if j < s.runCap then (s.runAt j).toWord else 0
  | .bit w => wordOfBits fun j => decide (32 * w + j < s.bitCap) && s.bitAt (32 * w + j)
  | .buf k w => wordOfBytes fun l => if 4 * w + l < s.bufCap then s.byteAt k (4 * w + l) else 0
  | .unassigned => 0

/-- The locations a read sees as they are while the core is busy (R68). -/
def Loc.readableBusy : Loc → Bool
  | .id | .ctrl | .cmd | .status | .bufCap | .bitCap | .runCap => true
  | _ => false

/-- What a read of a location answers (R68, R71). -/
def State.readLoc (s : State) (l : Loc) : Word :=
  if s.busy && !l.readableBusy then Config.busyRead s.draws else s.readIdle l

/-! ### Writes -/

/-- A length register takes `v` if it is at most the legal maximum and keeps its value otherwise (R39). -/
def legalOr (max : Nat) (v old : Word) : Word := if v.toNat ≤ max then v else old

/-- The effect of a write of `v` to a location while the core is idle: the registers and memories the host may write
(R23, R28 to R34, R40, R41, R45, R46), the acceptance of a command (R201), and nothing elsewhere (R22, R35 to R38, R65, R66). -/
def State.writeIdle (v : Word) (s : State) : Loc → State
  | .ctrl => s.writeCtrl v
  | .cmd => s.accept v
  | .status => s.writeStatus v
  | .len k => { s with len := s.len.set k (legalOr s.bufCap v (s.len.get k)) }
  | .bitLen => { s with bitLen := legalOr s.bitCap v s.bitLen }
  | .origIndex => { s with origIndex := v }
  | .alphaLen => { s with alphaLen := legalOr Config.alphaCap v s.alphaLen }
  | .runLen => { s with runLen := legalOr s.runCap v s.runLen }
  | .alpha w =>
    { s with mem := { s.mem with alpha := Store.setFrom Config.alphaCap (4 * w) (bytesOfWord v) s.mem.alpha } }
  | .run j => { s with mem := { s.mem with run := Store.setFrom s.runCap j [Run.ofWord v] s.mem.run } }
  | .bit w => { s with mem := { s.mem with bit := Store.setFrom s.bitCap (32 * w) (bitsOfWord v) s.mem.bit } }
  | .buf k w =>
    { s with
      mem := { s.mem with
        buf := s.mem.buf.set k (Store.setFrom s.bufCap (4 * w) (bytesOfWord v) (s.mem.buf.get k)) } }
  | .id | .nodeCount | .root | .bufCap | .bitCap | .runCap | .freq _ | .node _ _ | .code _ _ | .unassigned => s

/-- The effect of a write of `v` to a location: STATUS and CTRL are always writable, and while the core is busy any other
write has no effect but to set OVR (R23, R26, R28). -/
def State.writeLoc (v : Word) (s : State) (l : Loc) : State :=
  if s.busy && l != .status && l != .ctrl then { s with ovr := true } else s.writeIdle v l

/-! ### One host access -/

/-- Why the bus refuses an access, if it does (R64). -/
def busRefusal (op : HostOp) : Option BusError :=
  if op.wordWide = false then some .wrongWidth
  else if op.aligned = false then some .misaligned
  else none

/-- One host access (R60, R67): a refused one answers an error response and changes no state (R64, R226), a read answers a
word and changes no state, a write has its effect. Every access uses one draw number (log entry 3). -/
def State.access (op : HostOp) (s : State) : State :=
  match busRefusal op with
  | some e => { s with resp := some (.error e), draws := s.draws + 1 }
  | none =>
    match op with
    | .read _ o => { s with resp := some (.readData (s.readLoc (locate o.toNat))), draws := s.draws + 1 }
    | .write _ o v => { s.writeLoc v (locate o.toNat) with resp := some .writeDone, draws := s.draws + 1 }

end Sys2Proof.Machine
end

