-- ==== Sys2Proof/Machine/BitPack.lean ====
section
/-! DEFINITION. The Bit Packer and Unpacker (45_bitpack.md): PACK, UNPACK. -/

namespace Sys2Proof.Machine

/-- Byte `q` of a packed stream: bit `8q + t` of the stream is bit `7 - t` of the byte, and padding is 0 (R190, R191). -/
def packByte (bits : List Bool) (q : Nat) : Byte :=
  BitVec.ofNat 8 (bitsNat ((List.range 8).map fun p => bits.getD (8 * q + (7 - p)) false))

/-- A packed stream (R191). -/
def packBits (bits : List Bool) : List Byte := (List.range (ceil8 bits.length)).map (packByte bits)

/-- PACK: writes the packed BitStream into the destination buffer (R191). -/
def execPack (dst : Buf) (s : State) : Host.Outcome State Fault Refusal :=
  commit (s.putBlock dst (packBits s.bits))

/-- The first `m` bits of a packed stream (R190, R193). -/
def unpackBits (y : List Byte) (m : Nat) : List Bool :=
  (List.range m).map fun j => (y.getD (j / 8) 0).getLsbD (7 - j % 8)

/-- UNPACK: writes the first BIT_LEN bits of the packed source block, or fails with FORMAT when its length does not match
(R193). -/
def execUnpack (src : Buf) (s : State) : Host.Outcome State Fault Refusal :=
  if (s.len.get src).toNat ≠ ceil8 s.bitLen.toNat then failWith .format s
  else commit (s.putBits (unpackBits (s.block src) s.bitLen.toNat))

end Sys2Proof.Machine
end

