-- ==== Sys2Proof/Machine/Bwt.lean ====
section
/-! DEFINITION. The Burrows-Wheeler Transform unit (42_bwt.md): BWTF, BWTI. -/

namespace Sys2Proof.Machine

/-! ### BWTF (R160) -/

/-- Lexicographic comparison of byte strings, each byte an unsigned number (R9). -/
def bytesLt : List Byte → List Byte → Bool
  | [], [] => false
  | [], _ :: _ => true
  | _ :: _, [] => false
  | a :: as, b :: bs => decide (a.toNat < b.toNat) || (a == b && bytesLt as bs)

/-- The rotation of a block that starts at index `i` (R160). -/
def rotation (b : List Byte) (i : Nat) : List Byte := b.drop i ++ b.take i

/-- The order of R160 on start indices: by rotation, ties by start index. -/
abbrev rotationLe (b : List Byte) (i j : Nat) : Prop :=
  bytesLt (rotation b i) (rotation b j) = true ∨ (rotation b i = rotation b j ∧ i ≤ j)

/-- The start indices of the sorted rotations (R160 `order`). -/
def rotationOrder (b : List Byte) : List Nat := (List.range b.length).insertionSort (rotationLe b)

/-- The last byte of each sorted rotation (R160 `L`). -/
def lastColumn (b : List Byte) : List Byte :=
  (rotationOrder b).map fun i => b.getD ((i + b.length - 1) % b.length) 0

/-- The rank of the rotation that starts at index 0 (R160 `idx`). -/
def originalRank (b : List Byte) : Nat := (rotationOrder b).idxOf 0

/-- BWTF: writes the last column of the source block's sorted rotations and the original row's rank (R160, R161). -/
def execBwtf (src dst : Buf) (s : State) : Host.Outcome State Fault Refusal :=
  let b := s.block src
  commit ((s.putBlock dst (lastColumn b)).putOrigIndex (originalRank b))

/-! ### BWTI (R162) -/

/-- The order of R162 on positions of a last column: by byte, ties by position. -/
abbrev columnLe (l : List Byte) (i j : Nat) : Prop :=
  (l.getD i 0).toNat < (l.getD j 0).toNat ∨ (l.getD i 0 = l.getD j 0 ∧ i ≤ j)

/-- The stable sort of the last column's positions (R162 `P`). -/
def columnOrder (l : List Byte) : List Nat := (List.range l.length).insertionSort (columnLe l)

/-- `n` steps of the next-character linking from row `r` (R162). -/
def linkWalk (l : List Byte) (p : List Nat) : (n : Nat) → (r : Nat) → List Byte
  | 0, _ => []
  | n + 1, r => l.getD (p.getD r 0) 0 :: linkWalk l p n (p.getD r 0)

/-- The inverse transform of last column `l` from row `idx` (R162). -/
def inverseBwt (l : List Byte) (idx : Nat) : List Byte := linkWalk l (columnOrder l) l.length idx

/-- BWTI: rebuilds a block from the source's last column and ORIG_INDEX, or fails with FORMAT when the index is outside a
non-empty block (R162). -/
def execBwti (src dst : Buf) (s : State) : Host.Outcome State Fault Refusal :=
  let l := s.block src
  if l = [] then commit (s.putBlock dst [])
  else if l.length ≤ s.origIndex.toNat then failWith .format s
  else commit (s.putBlock dst (inverseBwt l s.origIndex.toNat))

end Sys2Proof.Machine
end

