-- ==== Sys2Proof/Machine/Control.lean ====
section
/-! DEFINITION. NOP (R200). -/

namespace Sys2Proof.Machine

/-- NOP: an empty commit (R200). -/
def execNop (s : State) : Host.Outcome State Fault Refusal := commit s

end Sys2Proof.Machine
end

