-- ==== Sys2Proof/Machine/HuffCodec.lean ====
section
/-! DEFINITION. The Huffman encoder and decoder (41_huffman_codec.md): HENC, HDEC. -/

namespace Sys2Proof.Machine

/-! ### HENC (R140) -/

/-- The concatenated codes of a block, in block order; none where a byte has no code (R140). -/
def encodeBytes (code : Byte → CodeEntry) : List Byte → Option (List Bool)
  | [] => some []
  | v :: b =>
    if (code v).clen = 0 then none
    else (encodeBytes code b).map fun bits => (code v).bits ++ bits

/-- HENC: writes the code bits of the source block and their number, or fails with NO_CODE, then CAPACITY (R140, R213). -/
def execHenc (src : Buf) (s : State) : Host.Outcome State Fault Refusal :=
  match encodeBytes s.codeAt (s.block src) with
  | none => failWith .noCode s
  | some bits =>
    if s.bitCap < bits.length then failWith .capacity s
    else commit ((s.putBits bits).putBitLen bits.length)

/-! ### HDEC (R141, R142) -/

/-- One result of the tree automaton (R141), and the meeting with an invalid index, which R44 rules out. -/
inductive Walk where
  | emit (sym : Byte)
  | move (i : Nat)
  | missing
  | malformed
deriving DecidableEq, Repr

/-- One step of the tree automaton from node `cur` on bit `b` (R141). -/
def State.walkStep (s : State) (cur : Nat) (b : Bool) : Walk :=
  match s.node? s.root.toNat with
  | none => .malformed
  | some root =>
    if root.leaf then (if b then .missing else .emit root.sym)
    else
      match s.node? cur with
      | none => .malformed
      | some n =>
        let nx := if b then n.right.toNat else n.left.toNat
        match s.node? nx with
        | none => .malformed
        | some m => if m.leaf then .emit m.sym else .move nx

/-- The loop of R142 over the bits not read yet: `cur` is the automaton's node and `out` what it has emitted. -/
def State.decodeBits (s : State) : (bits : List Bool) → (cur : Nat) → (out : List Byte) → Except Halt (List Byte)
  | [], cur, out => if cur = s.root.toNat then .ok out else .error (.code .corruptStream)
  | b :: bits, cur, out =>
    match s.walkStep cur b with
    | .malformed => .error .malformed
    | .missing => .error (.code .corruptStream)
    | .move nx => State.decodeBits s bits nx out
    | .emit sym =>
      if out.length = s.bufCap then .error (.code .capacity)
      else State.decodeBits s bits s.root.toNat (out ++ [sym])

/-- HDEC: decodes the BitStream with the tree into the destination buffer, or fails with CORRUPT_STREAM or CAPACITY,
whichever is met first (R142). -/
def execHdec (dst : Buf) (s : State) : Host.Outcome State Fault Refusal :=
  settle s <|
    if s.bits = [] then .ok (s.putBlock dst [])
    else if s.nodeCount = 0 then .error (.code .corruptStream)
    else (s.decodeBits s.bits s.root.toNat []).map fun out => s.putBlock dst out

end Sys2Proof.Machine
end

