-- ==== Sys2Proof/Machine/HuffTree.lean ====
section
/-! DEFINITION. The Huffman tree builder and code generator (40_huffman_tree.md): HFREQ, HTREE, HCODE, HTSER, HTLOAD. -/

namespace Sys2Proof.Machine

/-! ### HFREQ (R110) -/

/-- The number of occurrences of byte value `v` in a block (R110). -/
def byteCount (b : List Byte) (v : Nat) : Nat := b.count (BitVec.ofNat 8 v)

/-- HFREQ: counts the bytes of the source block and rewrites all 256 entries (R110). -/
def execHfreq (src : Buf) (s : State) : Host.Outcome State Fault Refusal :=
  commit (s.putFreq (byteCount (s.block src)))

/-! ### HTREE (R111, R112) -/

/-- A pool element: the key `(WEIGHT, index)` of R111. -/
abbrev Key := Nat × Nat

/-- The smaller of two keys, compared by weight and then by index (R111). -/
def Key.min (a b : Key) : Key :=
  if b.1 < a.1 ∨ (b.1 = a.1 ∧ b.2 < a.2) then b else a

/-- The element of the pool with the smallest key, and the pool without it (R112). -/
def takeMin : List Key → Option (Key × List Key)
  | [] => none
  | e :: es =>
    let m := es.foldl Key.min e
    some (m, (e :: es).erase m)

/-- The merge loop of R112, at most `fuel` merges: the two smallest elements become the LEFT and RIGHT child of a node at
the next free index. -/
def mergeLoop : (fuel : Nat) → (pool : List Key) → (arena : List ProtoNode) → List ProtoNode
  | 0, _, arena => arena
  | fuel + 1, pool, arena =>
    match takeMin pool with
    | none => arena
    | some (a, pool₁) =>
      match takeMin pool₁ with
      | none => arena
      | some (b, pool₂) =>
        mergeLoop fuel (pool₂ ++ [(a.1 + b.1, arena.length)])
          (arena ++ [ProtoNode.mkInner (a.1 + b.1) a.2 b.2])

/-- The byte values that occur, ascending (R111 points 1 and 5). -/
def occurring (freq : Nat → Nat) : List Nat := (List.range 256).filter fun v => 0 < freq v

/-- The leaves, in ascending order of their byte value (R111). -/
def leavesOf (freq : Nat → Nat) : List ProtoNode :=
  (occurring freq).map fun v => ProtoNode.mkLeaf (BitVec.ofNat 8 v) (freq v)

/-- The arena HTREE builds (R112): the leaves, then the internal nodes in creation order. `k` leaves take `k - 1` merges. -/
def buildTree (freq : Nat → Nat) : List ProtoNode :=
  let leaves := leavesOf freq
  mergeLoop leaves.length (leaves.mapIdx fun j n => (n.weight, j)) leaves

/-- HTREE: builds the tree of FREQ, or fails with EMPTY_INPUT when every entry is 0 (R112). The root is the last node. -/
def execHtree (s : State) : Host.Outcome State Fault Refusal :=
  if occurring s.freqAt = [] then failWith .emptyInput s
  else
    let ns := buildTree s.freqAt
    commit (s.putArena ns (ns.length - 1))

/-! ### HCODE (R114) -/

/-- The path of every leaf below a node whose own path is `p`, left 0 and right 1 (R114 `walk`). -/
def Tree.paths : Tree → List Bool → List (Byte × List Bool)
  | .leaf _ sym, p => [(sym, p)]
  | .node _ l r, p => l.paths (p ++ [false]) ++ r.paths (p ++ [true])

/-- The codes of a tree: the leaf paths, and the code "0" for a tree that is one leaf (R114). -/
def Tree.codes : Tree → List (Byte × List Bool)
  | .leaf _ sym => [(sym, [false])]
  | .node i l r => (Tree.node i l r).paths []

/-- The code a list of assignments gives to byte value `v`, the last one counting; none is the empty string (R114). -/
def codeOf (cs : List (Byte × List Bool)) (v : Nat) : List Bool :=
  (cs.reverse.lookup (BitVec.ofNat 8 v)).getD []

/-- HCODE: writes the code table of the tree, the empty table when there is no tree (R114). -/
def execHcode (s : State) : Host.Outcome State Fault Refusal :=
  settle s <|
    if s.nodeCount = 0 then .ok (s.putCode fun _ => [])
    else
      match s.tree? with
      | none => .error .malformed
      | some t => .ok (s.putCode (codeOf t.codes))

/-! ### HTSER (R115) -/

/-- The serialised form of a tree, in pre-order: `01 sym` for a leaf, `00` before the two subtrees (R115). -/
def Tree.ser : Tree → List Byte
  | .leaf _ sym => [0x01, sym]
  | .node _ l r => 0x00 :: (l.ser ++ r.ser)

/-- HTSER: writes the serialised tree into the destination buffer, or fails with CAPACITY (R115). -/
def execHtser (dst : Buf) (s : State) : Host.Outcome State Fault Refusal :=
  settle s <|
    match (if s.nodeCount = 0 then some [] else s.tree?.map Tree.ser) with
    | none => .error .malformed
    | some out =>
      if s.bufCap < out.length then .error (.code .capacity) else .ok (s.putBlock dst out)

/-! ### HTLOAD (R116) -/

/-- Where the parser of R116 stands: the bytes not read yet, the nodes made so far, the symbols seen. -/
structure Parse where
  rest : List Byte
  made : List ProtoNode
  seen : List Byte
deriving DecidableEq, Repr

/-- `parse()` of R116: the arena index of the subtree read, and where the parser then stands; none where R116 fails. Every
call makes a node and a 512th is refused, so `fuel = 512` never decides the outcome. -/
def parseTree : (fuel : Nat) → Parse → Option (Nat × Parse)
  | 0, _ => none
  | fuel + 1, p =>
    if p.made.length = Config.nodeCap then none
    else
      match p.rest with
      | [] => none
      | tag :: rest =>
        let i := p.made.length
        if tag = 0x01 then
          match rest with
          | [] => none
          | sym :: rest =>
            if sym ∈ p.seen then none
            else some (i, ⟨rest, p.made ++ [ProtoNode.mkLeaf sym 0], sym :: p.seen⟩)
        else if tag = 0x00 then
          match parseTree fuel ⟨rest, p.made ++ [ProtoNode.mkInner 0 0 0], p.seen⟩ with
          | none => none
          | some (l, p₁) =>
            match parseTree fuel p₁ with
            | none => none
            | some (r, p₂) => some (i, ⟨p₂.rest, p₂.made.set i (ProtoNode.mkInner 0 l r), p₂.seen⟩)
        else none

/-- The arena a non-empty serialised tree loads, rooted at 0; none for a string R116 calls corrupt. -/
def loadTree (input : List Byte) : Option (List ProtoNode) :=
  match parseTree (Config.nodeCap + 1) ⟨input, [], []⟩ with
  | none => none
  | some (_, p) => if p.rest = [] then some p.made else none

/-- HTLOAD: loads the serialised tree of the source block, the empty tree from the empty block, or fails with
CORRUPT_STREAM (R116). -/
def execHtload (src : Buf) (s : State) : Host.Outcome State Fault Refusal :=
  let input := s.block src
  if input = [] then commit { s with nodeCount := 0, root := Config.nil }
  else
    match loadTree input with
    | none => failWith .corruptStream s
    | some ns => commit (s.putArena ns 0)

end Sys2Proof.Machine
end

