-- ==== Sys2Proof/Machine/Mtf.lean ====
section
/-! DEFINITION. The Move-To-Front recoder (43_mtf.md): MTFE, MTFD. -/

namespace Sys2Proof.Machine

/-- The move-to-front step: the element at position `p` goes to position 0 and the others keep their order (R171). -/
def moveToFront (lst : List Byte) (p : Nat) : List Byte :=
  match lst[p]? with
  | none => lst
  | some x => x :: (lst.take p ++ lst.drop (p + 1))

/-- The distinct values of a block in ascending order (R170 `A`). -/
def initialAlphabet (b : List Byte) : List Byte :=
  ((List.range 256).map (BitVec.ofNat 8)).filter fun v => b.contains v

/-- The loop of R170: the positions of a block's bytes in the working list. -/
def mtfEncode : (lst : List Byte) → (b : List Byte) → List Nat
  | _, [] => []
  | lst, v :: b => lst.idxOf v :: mtfEncode (moveToFront lst (lst.idxOf v)) b

/-- MTFE: writes the source block's MTF indices and its initial alphabet (R170). -/
def execMtfe (src dst : Buf) (s : State) : Host.Outcome State Fault Refusal :=
  let b := s.block src
  let a := initialAlphabet b
  commit ((s.putAlphabet a).putBlock dst ((mtfEncode a b).map (BitVec.ofNat 8)))

/-- The loop of R172: the bytes at the given positions of the working list; none where a position is outside it. -/
def mtfDecode : (lst : List Byte) → (x : List Byte) → Option (List Byte)
  | _, [] => some []
  | lst, p :: x =>
    match lst[p.toNat]? with
    | none => none
    | some v => (mtfDecode (moveToFront lst p.toNat) x).map (v :: ·)

/-- MTFD: rebuilds a block from the source's MTF indices and the initial alphabet, or fails with FORMAT (R172). -/
def execMtfd (src dst : Buf) (s : State) : Host.Outcome State Fault Refusal :=
  match mtfDecode s.alphabet (s.block src) with
  | none => failWith .format s
  | some out => commit (s.putBlock dst out)

end Sys2Proof.Machine
end

