-- ==== Sys2Proof/Machine/Rle.lean ====
section
/-! DEFINITION. The Run-Length encoder and decoder (44_rle.md): RLEE, RLED. -/

namespace Sys2Proof.Machine

/-! ### RLEE (R180) -/

/-- The runs of `x` after an open run of `count` times `v` (R180). -/
def runsFrom (v : Byte) (count : Nat) : List Byte → List (Byte × Nat)
  | [] => [(v, count)]
  | y :: x => if y = v then runsFrom v (count + 1) x else (v, count) :: runsFrom y 1 x

/-- The runs of a byte sequence (R180). -/
def runsOf : List Byte → List (Byte × Nat)
  | [] => []
  | v :: x => runsFrom v 1 x

/-- The entry of a run (R45). -/
def Run.ofPair (r : Byte × Nat) : Run := { value := r.1, count := BitVec.ofNat 24 r.2 }

/-- RLEE: writes the runs of the source block (R180). -/
def execRlee (src : Buf) (s : State) : Host.Outcome State Fault Refusal :=
  commit (s.putRuns ((runsOf (s.block src)).map Run.ofPair))

/-! ### RLED (R182) -/

/-- The loop of R182 over the runs not expanded yet: `out` is the output so far, `cap` the destination's capacity. -/
def expandRuns (cap : Nat) : (rs : List Run) → (out : List Byte) → Except ErrCode (List Byte)
  | [], out => .ok out
  | r :: rs, out =>
    if r.count = 0 then .error .format
    else if cap < out.length + r.count.toNat then .error .capacity
    else expandRuns cap rs (out ++ List.replicate r.count.toNat r.value)

/-- RLED: writes the expansion of the run list, or fails with FORMAT or CAPACITY, whichever is met first (R182). -/
def execRled (dst : Buf) (s : State) : Host.Outcome State Fault Refusal :=
  match expandRuns s.bufCap s.runs [] with
  | .error e => failWith e s
  | .ok out => commit (s.putBlock dst out)

end Sys2Proof.Machine
end

