-- ==== Sys2Proof/Machine/Dispatch.lean ====
section
/-! DEFINITION. The completion of a command (R202): one arm per command of R94. -/

namespace Sys2Proof.Machine

/-- The completion step of a command that decodes: its commit or its error code, and STATUS (R202). -/
def exec (i : Instr) (s : State) : Host.Outcome State Fault Refusal :=
  match i with
  | .nop => Sys2Proof.Machine.execNop s
  | .hfreq src => Sys2Proof.Machine.execHfreq src s
  | .htree => Sys2Proof.Machine.execHtree s
  | .hcode => Sys2Proof.Machine.execHcode s
  | .henc src => Sys2Proof.Machine.execHenc src s
  | .hdec dst => Sys2Proof.Machine.execHdec dst s
  | .htser dst => Sys2Proof.Machine.execHtser dst s
  | .htload src => Sys2Proof.Machine.execHtload src s
  | .bwtf src dst => Sys2Proof.Machine.execBwtf src dst s
  | .bwti src dst => Sys2Proof.Machine.execBwti src dst s
  | .mtfe src dst => Sys2Proof.Machine.execMtfe src dst s
  | .mtfd src dst => Sys2Proof.Machine.execMtfd src dst s
  | .rlee src => Sys2Proof.Machine.execRlee src s
  | .rled dst => Sys2Proof.Machine.execRled dst s
  | .pack dst => Sys2Proof.Machine.execPack dst s
  | .unpack src => Sys2Proof.Machine.execUnpack src s

end Sys2Proof.Machine
end

