-- ==== Sys2Proof/Machine/Run.lean ====
section
/-! DEFINITION. What a step can do besides a host access: the core's turn (R202, R203), reset (R240, R242), and the state in which
an accepted command is about to complete. -/

namespace Sys2Proof.Machine

/-- The completion step of accepted word `c` (R202); a word that decodes to no command completes with UNSUPPORTED and
writes nothing (R203). -/
def completion (c : Word) (s : State) : Host.Outcome State Fault Refusal :=
  match decode c with
  | .ok i => exec i s
  | .error _ => failWith .unsupported s

/-- The core's turn: a busy core completes its command, and an idle one waits for a write to CMD (R202, R241). The inputs
are those at acceptance, since nothing a command reads can change while it is busy (R70; log entry 15). -/
def coreTurn (s : State) : Host.Outcome State Fault Refusal :=
  match s.phase with
  | .idle => .next s
  | .busy c => completion c s

/-- Reset: every state element takes its reset value at once, a busy command is aborted, and the contents of the data
memories are unspecified again (R240, R242, R243). The capacity is the block's own (R35); the pending events are the
host's, and the draw number goes on, so that no draw after reset is one from before (log entry 11). -/
def State.resetNow (s : State) : State :=
  { State.resetOf s.bufCap with agenda := s.agenda, draws := s.draws + 1 }

/-- `s` with command word `c` accepted (R201) and the core's turn next (log entry 9). -/
def State.withCommand (s : State) (c : Word) : State :=
  { s.accept c with agenda := .core :: s.agenda }

end Sys2Proof.Machine
end

