-- ==== Sys2Proof/Machine/Step.lean ====
section
/-! DEFINITION. One step of the machine: one move of one agent (R16), taken from the agenda (log entry 1). -/

namespace Sys2Proof.Machine

/-- One step: the next event of the agenda, or, with nothing pending, the core's turn (R202: completion is eventually
taken; log entries 1 and 10). -/
def step (s : State) : Host.Outcome State Fault Refusal :=
  match s.agenda with
  | [] => coreTurn s
  | .core :: es => coreTurn { s with agenda := es }
  | .host op :: es => .next ({ s with agenda := es }.access op)
  | .reset :: es => .next ({ s with agenda := es }.resetNow)

/-- The state in which the host's write of the table word `w` to CMD has just been accepted and the core's turn comes next,
so that the next step is that command's completion (log entry 9). -/
def State.withFetchWord (s : State) (nbits w : Nat) : State := s.withCommand (BitVec.ofNat 32 (w % 2 ^ nbits))

end Sys2Proof.Machine
end

