-- ==== Sys2Proof/Machine/HostProgram.lean ====
section
/-! DEFINITION. Host programs (30_encoding.md sections 4 and 5): the assembler syntax of R99, the statements of R100 run one
host access at a time through `step`, and the four pseudo-operations of R102 as host statements. None of them is a command
of HZC (R5, R102). -/

namespace Sys2Proof.Machine

/-! ### Assembler syntax (R99) -/

/-- The command a mnemonic and its buffer operands name, the source first; none for a syntax error. Mnemonics are
case-insensitive (R99). -/
def assemble (mnemonic : List Char) (operands : List Buf) : Option Instr :=
  let m := mnemonic.map Char.toUpper
  match operands with
  | [] =>
    if m = ['N', 'O', 'P'] then some .nop
    else if m = ['H', 'T', 'R', 'E', 'E'] then some .htree
    else if m = ['H', 'C', 'O', 'D', 'E'] then some .hcode
    else none
  | [k] =>
    if m = ['H', 'F', 'R', 'E', 'Q'] then some (.hfreq k)
    else if m = ['H', 'E', 'N', 'C'] then some (.henc k)
    else if m = ['H', 'T', 'L', 'O', 'A', 'D'] then some (.htload k)
    else if m = ['R', 'L', 'E', 'E'] then some (.rlee k)
    else if m = ['U', 'N', 'P', 'A', 'C', 'K'] then some (.unpack k)
    else if m = ['H', 'D', 'E', 'C'] then some (.hdec k)
    else if m = ['H', 'T', 'S', 'E', 'R'] then some (.htser k)
    else if m = ['R', 'L', 'E', 'D'] then some (.rled k)
    else if m = ['P', 'A', 'C', 'K'] then some (.pack k)
    else none
  | [k, d] =>
    if m = ['B', 'W', 'T', 'F'] then some (.bwtf k d)
    else if m = ['B', 'W', 'T', 'I'] then some (.bwti k d)
    else if m = ['M', 'T', 'F', 'E'] then some (.mtfe k d)
    else if m = ['M', 'T', 'F', 'D'] then some (.mtfd k d)
    else none
  | _ => none

/-! ### A host program while it runs -/

/-- A move that ends in a next state goes on; a stop ends the whole. -/
def andThen {α β : Type} (o : Host.Outcome α Fault Refusal) (f : α → Host.Outcome β Fault Refusal) :
    Host.Outcome β Fault Refusal :=
  match o with
  | .next a => f a
  | .fault r => .fault r
  | .refused r => .refused r

/-- The machine and what the host has seen. `sched` holds the schedule choices left (R202): one for each host access, true
where the core takes its turn before it; when it is empty the core always does, so completion is eventually taken. That a turn comes only before
an access is log entry 22. -/
structure HostRun where
  state   : State
  sched   : List Bool
  /-- What each `RD` answered, in order. -/
  results : List BusResp
  /-- Whether each `EXPECT` held, in order. -/
  expects : List Bool
  /-- The history of R71: every event that has happened. -/
  events  : List Event
deriving DecidableEq, Repr

/-- A host program about to run on `s` under a schedule. -/
def HostRun.start (sched : List Bool) (s : State) : HostRun :=
  { state := s, sched := sched, results := [], expects := [], events := [] }

/-- One step of the machine, on event `e`. -/
def HostRun.event (e : Event) (r : HostRun) : Host.Outcome HostRun Fault Refusal :=
  andThen (step { r.state with agenda := [e] }) fun t => .next { r with state := t, events := r.events ++ [e] }

/-- One host access, with the core's turn before it where the schedule says so (R69, R202). -/
def HostRun.access (op : HostOp) (r : HostRun) : Host.Outcome HostRun Fault Refusal :=
  andThen (if r.sched.headD true then r.event .core else .next r) fun r =>
    { r with sched := r.sched.tail }.event (.host op)

/-- Host accesses in order. -/
def HostRun.accesses : List HostOp → HostRun → Host.Outcome HostRun Fault Refusal
  | [], r => .next r
  | op :: ops, r => andThen (r.access op) (HostRun.accesses ops)

/-- Whether the last access read a word with bit 0 set: of STATUS, BUSY = 1. -/
def HostRun.readBusy (r : HostRun) : Bool :=
  match r.state.resp with
  | some (.readData v) => v.getLsbD 0
  | _ => false

/-- At most `polls` reads of STATUS, until one sees BUSY = 0. -/
def HostRun.poll : (polls : Nat) → HostRun → Host.Outcome HostRun Fault Refusal
  | 0, r => .next r
  | polls + 1, r =>
    andThen (r.access (.read 4 0x00C#29)) fun r => if r.readBusy then HostRun.poll polls r else .next r

/-! ### Statements (R100) -/

/-- The host statements of R100. -/
inductive HostStmt where
  | wr (off : BitVec 29) (v : Word)
  | rd (off : BitVec 29)
  | loadb (k : Buf) (bytes : List Byte)
  | wait
  | command (i : Instr)
  | expect (off : BitVec 29) (v : Word)
deriving DecidableEq, Repr

/-- The offset of word `w` of buffer `k` (R61). -/
def bufOffset (k : Buf) (w : Nat) : BitVec 29 := BitVec.ofNat 29 (0x0C000000 + 0x04000000 * k.toNat + 4 * w)

/-- The offset of `LENk` (R30). -/
def lenOffset (k : Buf) : BitVec 29 := BitVec.ofNat 29 (0x010 + 4 * k.toNat)

/-- The writes of `LOADB` (R100): the bytes four to a word from index 0, unused lanes 0, then the length. -/
def loadbWrites (k : Buf) (bytes : List Byte) : List HostOp :=
  ((List.range ((bytes.length + 3) / 4)).map fun w =>
    .write 4 (bufOffset k w) (wordOfBytes fun l => bytes.getD (4 * w + l) 0)) ++
  [.write 4 (lenOffset k) (BitVec.ofNat 32 bytes.length)]

/-- `WAIT`: reads STATUS until BUSY reads 0. Every read uses up a schedule choice, and with none left the core's turn comes
first, so one read more than there are choices is enough. -/
def HostRun.wait (r : HostRun) : Host.Outcome HostRun Fault Refusal := r.poll (r.sched.length + 1)

/-- What a statement does (R100). `EXPECT` looks at the state where it stands and makes no bus access. DESIGN CHOICE (log entry
22, unsafe): the core's turn comes only before an access, so none falls between an access and an `EXPECT` right after it: after
a write to CMD with no `WAIT`, such an `EXPECT` sees the command still executing. -/
def HostStmt.run (st : HostStmt) (r : HostRun) : Host.Outcome HostRun Fault Refusal :=
  match st with
  | .wr off v => r.access (.write 4 off v)
  | .rd off =>
    andThen (r.access (.read 4 off)) fun r => .next { r with results := r.results ++ r.state.resp.toList }
  | .loadb k bytes => r.accesses (loadbWrites k bytes)
  | .wait => r.wait
  | .command i => andThen (r.access (.write 4 0x008#29 (encode i))) HostRun.wait
  | .expect off v => .next { r with expects := r.expects ++ [r.state.readIdle (locate off.toNat) == v] }

/-- A host program: its statements in order (R100). -/
def runProgram : List HostStmt → HostRun → Host.Outcome HostRun Fault Refusal
  | [], r => .next r
  | st :: p, r => andThen (st.run r) (runProgram p)

/-! ### Pseudo-operations (R102) -/

/-- The pseudo-operations of R102. -/
inductive PseudoOp where
  | hzCompress (bs bt bp : Buf)
  | hzDecompress (bt bp bd : Buf)
  | bwtCompress (bs bx bm : Buf)
  | bwtDecompress (bm bx bd : Buf)
deriving DecidableEq, Repr

/-- The three buffers of `HZ_COMPRESS` must be pairwise distinct. -/
def PseudoOp.wellFormed : PseudoOp → Bool
  | .hzCompress bs bt bp => bs != bt && bs != bp && bt != bp
  | .hzDecompress _ _ _ | .bwtCompress _ _ _ | .bwtDecompress _ _ _ => true

/-- What the host reports at the end. -/
inductive HostReport where
  | success
  | failed (e : ErrCode)
deriving DecidableEq, Repr

/-- Command statements in order; a code other than OK, in the STATUS word that ended the command's `WAIT`, stops the sequence
and is what the host reports. -/
def runCommands : List Instr → HostRun → Host.Outcome (HostRun × HostReport) Fault Refusal
  | [], r => .next (r, .success)
  | i :: is, r =>
    andThen ((HostStmt.command i).run r) fun r =>
      if r.state.err = .ok then runCommands is r else .next (r, .failed r.state.err)

/-- Goes on after a sequence that succeeded. -/
def ifSuccess (o : Host.Outcome (HostRun × HostReport) Fault Refusal)
    (f : HostRun → Host.Outcome (HostRun × HostReport) Fault Refusal) :
    Host.Outcome (HostRun × HostReport) Fault Refusal :=
  andThen o fun (r, report) => if report = .success then f r else .next (r, report)

/-- The writes that make the empty artifact. -/
def emptyArtifact (bt bp : Buf) : List HostStmt :=
  [.wr (lenOffset bt) 0, .wr (lenOffset bp) 0, .wr 0x020#29 0]

/-- What a pseudo-operation does (R102). In `HZ_COMPRESS`, EMPTY_INPUT from HTREE makes the empty artifact and is a success. -/
def PseudoOp.run (op : PseudoOp) (r : HostRun) : Host.Outcome (HostRun × HostReport) Fault Refusal :=
  match op with
  | .hzCompress bs bt bp =>
    ifSuccess (runCommands [.hfreq bs] r) fun r =>
      andThen ((HostStmt.command .htree).run r) fun r =>
        if r.state.err = .emptyInput then
          andThen (runProgram (emptyArtifact bt bp) r) fun r => .next (r, .success)
        else if r.state.err = .ok then runCommands [.hcode, .henc bs, .pack bp, .htser bt] r
        else .next (r, .failed r.state.err)
  | .hzDecompress bt bp bd => runCommands [.htload bt, .unpack bp, .hdec bd] r
  | .bwtCompress bs bx bm => runCommands [.bwtf bs bx, .mtfe bx bm, .rlee bm] r
  | .bwtDecompress bm bx bd => runCommands [.rled bm, .mtfd bm bx, .bwti bx bd] r

end Sys2Proof.Machine
end

