-- ==== Sys2Proof/Safety.lean ====
section
/-! DEFINITION. What a good state is: the invariants the spec gives (R6, R24, R39, R42, R44, R47), the premise of a run that
lost no host write (R251), and when everything a command reads has been given a value (R244). -/

namespace Sys2Proof.Machine

/-- Capacities and length registers are legal (R6, R39, R30 to R34). -/
structure State.LengthsLegal (s : State) : Prop where
  capPos   : 1 ≤ s.bufCap
  capMax   : s.bufCap ≤ Config.bufCapMax
  len      : ∀ k, (s.len.get k).toNat ≤ s.bufCap
  bitLen   : s.bitLen.toNat ≤ s.bitCap
  alphaLen : s.alphaLen.toNat ≤ Config.alphaCap
  runLen   : s.runLen.toNat ≤ s.runCap

/-- Every listed index of a store lies below the capacity. -/
abbrev Store.Below {α : Type} (cap : Nat) (m : Store α) : Prop := ∀ e ∈ m, e.1 < cap

/-- The memories are in canonical form and list no index at or above their capacity (R40, R41, R43, R45, R46). -/
structure State.MemoryFits (s : State) : Prop where
  wf    : s.mem.wf
  buf   : ∀ k, Store.Below s.bufCap (s.mem.buf.get k)
  bit   : Store.Below s.bitCap s.mem.bit
  alpha : Store.Below Config.alphaCap s.mem.alpha
  run   : Store.Below s.runCap s.mem.run
  node  : Store.Below Config.nodeCap s.mem.node

/-- While a command executes, CMD holds its word, DONE is 0 and ERR is OK (R24, R25, R27, R201). -/
def State.BusyMarked (s : State) : Prop :=
  ∀ c, s.phase = .busy c → s.cmd = c ∧ s.done = false ∧ s.err = .ok

/-- The counts of FREQ sum to at most BUF_CAP (R14, R42). -/
def State.FreqBounded (s : State) : Prop := (s.freq.toList.map BitVec.toNat).sum ≤ s.bufCap

/-- Bits of CBITS at or above CLEN are 0 (R47). -/
def State.CodeClean (s : State) : Prop :=
  ∀ e ∈ s.code.toList, ∀ j, e.clen.toNat ≤ j → e.cbits.getLsbD j = false

/-- The arena indices of a tree, in pre-order. -/
def Tree.indices : Tree → List Nat
  | .leaf i _ => [i]
  | .node i l r => i :: (l.indices ++ r.indices)

/-- The leaf symbols of a tree, left to right. -/
def Tree.syms : Tree → List Byte
  | .leaf _ sym => [sym]
  | .node _ l r => l.syms ++ r.syms

/-- The arena invariant (R44): with no tree ROOT is NIL (R37). With a tree, the arena holds one rooted at ROOT that reaches
every valid entry exactly once; its leaf symbols are distinct; a leaf has no children; an internal node has SYM 0, two
valid children, and the sum of their weights. -/
structure State.ArenaOk (s : State) : Prop where
  rootNil : s.nodeCount = 0 → s.root = Config.nil
  tree    : s.nodeCount ≠ 0 →
    ∃ t, s.tree? = some t ∧ t.indices.Perm (List.range s.nodeCount.toNat) ∧ t.syms.Nodup
  leaf    : ∀ i n, s.node? i = some n → n.leaf = true → n.left = Config.nil ∧ n.right = Config.nil
  inner   : ∀ i n, s.node? i = some n → n.leaf = false →
    n.sym = 0 ∧ ∃ l r, s.node? n.left.toNat = some l ∧ s.node? n.right.toNat = some r ∧
      n.weight.toNat = l.weight.toNat + r.weight.toNat

/-- Everything but the arena: what every step keeps. -/
structure State.Sound (s : State) : Prop where
  lengths : s.LengthsLegal
  memory  : s.MemoryFits
  busy    : s.BusyMarked
  freq    : s.FreqBounded
  code    : s.CodeClean

/-- No host write was lost to the busy hazard (R251). -/
def State.noLostWrite (s : State) : Prop := s.ovr = false

/-- Every byte of the block of buffer `k` has been given a value since reset (R244), so that no draw is read. -/
def State.BlockWritten (s : State) (k : Buf) : Prop :=
  ∀ i, i < (s.len.get k).toNat → (Store.get (s.mem.buf.get k) i).isSome

/-! ### Words of the claims: what a commit writes, what a path of the arena leads to -/

/-- `m'` is `m` with indices `0..|xs|-1` set to `xs` and every other index as before (R40, R48, R78). -/
def Store.WrittenFrom0 {α : Type} (xs : List α) (m m' : Store α) : Prop :=
  ∀ i, Store.get m' i = if i < xs.length then xs[i]? else Store.get m i

/-- Buffer `k` of `t` holds the block `out` (R40), its bytes at or above the new length are those of `s` (R48), and the
other three buffers and their lengths are those of `s`. -/
structure WritesBlock (k : Buf) (out : List Byte) (s t : State) : Prop where
  length : (t.len.get k).toNat = out.length
  bytes  : Store.WrittenFrom0 out (s.mem.buf.get k) (t.mem.buf.get k)
  others : ∀ j, j ≠ k → t.len.get j = s.len.get j ∧ t.mem.buf.get j = s.mem.buf.get j

/-- The arena index a bit string leads to from index `i`, 0 to the left and 1 to the right, through internal nodes only
(R15, R114). -/
def State.follow (s : State) : (i : Nat) → (path : List Bool) → Option Nat
  | i, [] => some i
  | i, b :: path =>
    match s.node? i with
    | none => none
    | some n =>
      if n.leaf then none
      else State.follow s (if b then n.right.toNat else n.left.toNat) path

/-- `p` is the code of byte `v` (R114): the path from the root to the leaf of `v`, or "0" where that leaf is the root. -/
def State.IsCode (s : State) (v : Byte) (p : List Bool) : Prop :=
  ∃ i n, s.node? i = some n ∧ n.leaf = true ∧ n.sym = v ∧
    ((i = s.root.toNat ∧ p = [false]) ∨ (i ≠ s.root.toNat ∧ s.follow s.root.toNat p = some i))

/-- The serialised form of the subtree at arena index `i` (R115). -/
inductive State.Serial (s : State) : Nat → List Byte → Prop where
  | leaf (i : Nat) (n : Node) (h : s.node? i = some n) (hl : n.leaf = true) : State.Serial s i [0x01, n.sym]
  | inner (i : Nat) (n : Node) (h : s.node? i = some n) (hl : n.leaf = false) (a b : List Byte)
      (ha : State.Serial s n.left.toNat a) (hb : State.Serial s n.right.toNat b) :
      State.Serial s i (0x00 :: (a ++ b))

/-- The key of arena index `i` (R111): lower weight first, and among equal weights the lower index. -/
def keyLt (s : State) (i j : Nat) : Prop :=
  ∃ n m, s.node? i = some n ∧ s.node? j = some m ∧
    (n.weight.toNat < m.weight.toNat ∨ (n.weight.toNat = m.weight.toNat ∧ i < j))

/-- Arena index `x` is in the pool when the node at `m` is made (R112): made before it, and no child of a node made before
it. -/
def inPool (s : State) (m x : Nat) : Prop :=
  x < m ∧ ∀ j n, j < m → s.node? j = some n → n.leaf = false → n.left.toNat ≠ x ∧ n.right.toNat ≠ x

end Sys2Proof.Machine
end

