-- ==== Sys2Proof/Certificates/Slice0/Obligations.lean ====
section
/-! DEFINITION. The statements for the provers. Each docstring names the rule of spec/ it formalises. `s.complete e` is the
completion of R202, whose effect `CompletionMarksStatus` and `FailureChangesOnlyStatus` spell out; a record update
`t = { s.complete .ok with f := t.f }` is a frame: everything but the named fields is unchanged. No statement rests on the
value of a draw. -/

open Sys2Proof Sys2Proof.Machine

/-! ### Encoding -/

/-- R98: every example word decodes to the command it stands for, and the four illegal examples decode to none. -/
def Obligations.ExampleWordsDecode : Prop :=
  decode 0x00000000 = .ok .nop ∧ decode 0x00000001 = .ok (.hfreq .b0) ∧ decode 0x00000002 = .ok .htree ∧
  decode 0x00000003 = .ok .hcode ∧ decode 0x00000004 = .ok (.henc .b0) ∧ decode 0x00000805 = .ok (.hdec .b2) ∧
  decode 0x00000C05 = .ok (.hdec .b3) ∧ decode 0x00000806 = .ok (.htser .b2) ∧
  decode 0x00000207 = .ok (.htload .b2) ∧ decode 0x00000410 = .ok (.bwtf .b0 .b1) ∧
  decode 0x00000111 = .ok (.bwti .b1 .b0) ∧ decode 0x00000D11 = .ok (.bwti .b1 .b3) ∧
  decode 0x00000920 = .ok (.mtfe .b1 .b2) ∧ decode 0x00000621 = .ok (.mtfd .b2 .b1) ∧
  decode 0x00000230 = .ok (.rlee .b2) ∧ decode 0x00000831 = .ok (.rled .b2) ∧
  decode 0x00000440 = .ok (.pack .b1) ∧ decode 0x00000141 = .ok (.unpack .b1) ∧
  decode 0x000000FF = .error .reservedOp ∧ decode 0x00001000 = .error .rsvdNonzero ∧
  decode 0x00000102 = .error .unusedSrc ∧ decode 0x00000401 = .error .unusedDst

/-- R91, R94, R95: a word decodes to a command exactly if it is that command's encoding, so no bit is dropped either way. -/
def Obligations.DecodeInvertsEncode : Prop :=
  ∀ (c : Word) (i : Instr), decode c = .ok i ↔ c = encode i

/-- R95: a word decodes to a row exactly if it meets the row's match and mask, with the word's own fields; the rows are
disjoint; a word outside all of them decodes to none, and its completion reports UNSUPPORTED and changes nothing else. -/
def Obligations.DecodeIsTheOpcodeTable : Prop :=
  (∀ (c : Word) (row : OpRow), row ∈ opTable →
    (c &&& row.mask = row.value ↔ ∃ i, decode c = .ok i ∧ i.mnemonic = row.mnemonic)) ∧
  (∀ (c : Word) (i : Instr), decode c = .ok i → i.fields = CmdFields.ofWord c) ∧
  opTable.Pairwise (fun a b => ∀ c : Word, ¬ (c &&& a.mask = a.value ∧ c &&& b.mask = b.value)) ∧
  (∀ c : Word, (∀ row ∈ opTable, c &&& row.mask ≠ row.value) ↔ ∃ e, decode c = .error e) ∧
  (∀ (c : Word) (e : Unsupported) (s : State), decode c = .error e →
    completion c s = .next (s.complete .unsupported))

/-- R96: the illegal words are exactly those with a nonzero RSVD, an OP outside R94, or a nonzero SRC or DST field the
command does not use; each completes with UNSUPPORTED. -/
def Obligations.ReservedEncodingsAreIllegal : Prop :=
  ∀ c : Word,
    ((c.extractLsb' 12 20 ≠ 0 ∨
      (c.extractLsb' 0 8).toNat ∉ [0x00, 0x01, 0x02, 0x03, 0x04, 0x05, 0x06, 0x07,
        0x10, 0x11, 0x20, 0x21, 0x30, 0x31, 0x40, 0x41] ∨
      ((c.extractLsb' 0 8).toNat ∈ [0x00, 0x02, 0x03, 0x05, 0x06, 0x31, 0x40] ∧ c.extractLsb' 8 2 ≠ 0) ∨
      ((c.extractLsb' 0 8).toNat ∈ [0x00, 0x01, 0x02, 0x03, 0x04, 0x07, 0x30, 0x41] ∧ c.extractLsb' 10 2 ≠ 0)) ↔
      ∃ e, decode c = .error e) ∧
    ∀ (e : Unsupported) (s : State), decode c = .error e → completion c s = .next (s.complete .unsupported)

/-! ### Command lifecycle -/

/-- R203: an unsupported word is accepted like any other, its completion writes nothing and reports UNSUPPORTED, and CMD
still holds it. -/
def Obligations.UnsupportedWordCompletes : Prop :=
  ∀ (s : State) (c : Word) (e : Unsupported) (es : List Event), decode c = .error e → s.phase = .idle →
    s.agenda = .host (.write 4 0x008#29 c) :: .core :: es →
    ∃ t u, step s = .next t ∧ step t = .next u ∧ t.phase = .busy c ∧
      u = { s with agenda := es, cmd := c, done := true, err := .unsupported, resp := u.resp, draws := u.draws }

/-- R201: a write to CMD while idle is accepted in one step; while busy it is not; nothing else starts a command. -/
def Obligations.OnlyAnIdleCmdWriteStartsACommand : Prop :=
  (∀ (s : State) (c : Word) (es : List Event), s.phase = .idle → s.agenda = .host (.write 4 0x008#29 c) :: es →
    step s = .next { s with
      agenda := es, cmd := c, phase := .busy c, done := false, err := .ok, resp := some .writeDone,
      draws := s.draws + 1 }) ∧
  (∀ (s : State) (b c : Word) (es : List Event), s.phase = .busy b → s.agenda = .host (.write 4 0x008#29 c) :: es →
    ∃ t, step s = .next t ∧ t.phase = .busy b ∧ t.cmd = s.cmd ∧ t.ovr = true) ∧
  (∀ (s t : State) (c : Word), step s = .next t → s.phase = .idle → t.phase = .busy c →
    ∃ es, s.agenda = .host (.write 4 0x008#29 c) :: es)

/-- R202: at the core's turn a busy machine runs the command its accepted word decodes to, and an idle one waits. The
agenda and `withFetchWord` are the model's form of the schedule (log entries 1, 9 and 10). -/
def Obligations.StepRunsDecodedCommand : Prop :=
  (∀ (s : State) (c : Word) (i : Instr) (es : List Event), s.phase = .busy c → decode c = .ok i →
    (s.agenda = .core :: es → step s = exec i { s with agenda := es }) ∧ (s.agenda = [] → step s = exec i s)) ∧
  (∀ (s : State) (es : List Event), s.phase = .idle →
    (s.agenda = .core :: es → step s = .next { s with agenda := es }) ∧ (s.agenda = [] → step s = .next s)) ∧
  (∀ (s : State) (w : Nat) (i : Instr), decodeTableWord 32 w = some i →
    step (s.withFetchWord 32 w) = exec i (s.accept (encode i)))

/-- R202: every completion, of a command or of a word that decodes to none, sets DONE, drops BUSY and leaves CMD, OVR,
IRQ_EN and the capacities as they are; it takes nothing from the agenda. -/
def Obligations.CompletionMarksStatus : Prop :=
  ∀ s t : State, ((∃ i, exec i s = .next t) ∨ ∃ c, completion c s = .next t) →
    t.done = true ∧ t.phase = .idle ∧ t.cmd = s.cmd ∧ t.ovr = s.ovr ∧ t.irqEn = s.irqEn ∧ t.bufCap = s.bufCap ∧
    t.agenda = s.agenda ∧ t.resp = s.resp

/-- R212: a word that completes with an error changes no state but STATUS, be it a command that fails or a word that
decodes to none (the draw number is the model's own). -/
def Obligations.FailureChangesOnlyStatus : Prop :=
  (∀ (i : Instr) (s t : State), exec i s = .next t → t.err ≠ .ok →
    t = { s with err := t.err, done := true, phase := .idle, draws := t.draws }) ∧
  (∀ (c : Word) (s t : State), completion c s = .next t → t.err ≠ .ok →
    t = { s with err := t.err, done := true, phase := .idle, draws := t.draws })

/-- R210: the codes each command can report; NOP, HFREQ, HCODE, BWTF, MTFE, RLEE and PACK never fail. -/
def Obligations.ErrorCodesByCommand : Prop :=
  ∀ (i : Instr) (s t : State), exec i s = .next t →
    t.err ∈ (match i with
      | .nop | .hfreq _ | .hcode | .bwtf _ _ | .mtfe _ _ | .rlee _ | .pack _ => [ErrCode.ok]
      | .htree => [.ok, .emptyInput]
      | .htload _ => [.ok, .corruptStream]
      | .hdec _ => [.ok, .corruptStream, .capacity]
      | .bwti _ _ | .mtfd _ _ | .unpack _ => [.ok, .format]
      | .rled _ => [.ok, .format, .capacity]
      | .henc _ => [.ok, .noCode, .capacity]
      | .htser _ => [.ok, .capacity])

/-- R44 (the arena is never malformed), R202: from every state whose arena meets R44, every command completes and the
machine takes a step. -/
def Obligations.EveryCommandCompletes : Prop :=
  (∀ (i : Instr) (s : State), s.ArenaOk → ∃ t, exec i s = .next t) ∧
  (∀ s : State, s.ArenaOk → ∃ t, step s = .next t)

/-- R200: NOP does nothing and completes with OK; its word is 0, and no other word with OP 0 is NOP; that word is also
CMD's reset value, and reset leaves it unexecuted. -/
def Obligations.NopDoesNothing : Prop :=
  (∀ s : State, exec .nop s = .next { s with err := .ok, done := true, phase := .idle, draws := s.draws + 1 }) ∧
  encode .nop = 0x00000000 ∧
  (∀ c : Word, c.extractLsb' 0 8 = 0 → c ≠ 0 → ∃ e, decode c = .error e) ∧
  (∀ cap : Nat, (State.resetOf cap).cmd = encode .nop ∧ (State.resetOf cap).phase = .idle ∧
    (State.resetOf cap).done = false)

/-- R48: no command writes past the new length of a memory: every index at or above it keeps what it held. -/
def Obligations.CommandsKeepStaleStorage : Prop :=
  ∀ (i : Instr) (s t : State), s.LengthsLegal → exec i s = .next t →
    (∀ k j, (t.len.get k).toNat ≤ j → Store.get (t.mem.buf.get k) j = Store.get (s.mem.buf.get k) j) ∧
    (∀ j, t.bitLen.toNat ≤ j → Store.get t.mem.bit j = Store.get s.mem.bit j) ∧
    (∀ j, t.runLen.toNat ≤ j → Store.get t.mem.run j = Store.get s.mem.run j) ∧
    (∀ j, t.alphaLen.toNat ≤ j → Store.get t.mem.alpha j = Store.get s.mem.alpha j) ∧
    (∀ j, t.nodeCount.toNat ≤ j → Store.get t.mem.node j = Store.get s.mem.node j)

/-- R253, and R42, R43, R47: which command writes each piece of side information; every other command leaves it. -/
def Obligations.SideInformationWriters : Prop :=
  ∀ (i : Instr) (s t : State), exec i s = .next t →
    (t.origIndex ≠ s.origIndex → ∃ k d, i = .bwtf k d) ∧
    ((t.alphaLen ≠ s.alphaLen ∨ t.mem.alpha ≠ s.mem.alpha) → ∃ k d, i = .mtfe k d) ∧
    (t.bitLen ≠ s.bitLen → ∃ k, i = .henc k) ∧
    (t.mem.bit ≠ s.mem.bit → ∃ k, i = .henc k ∨ i = .unpack k) ∧
    ((t.runLen ≠ s.runLen ∨ t.mem.run ≠ s.mem.run) → ∃ k, i = .rlee k) ∧
    ((t.nodeCount ≠ s.nodeCount ∨ t.root ≠ s.root ∨ t.mem.node ≠ s.mem.node) → i = .htree ∨ ∃ k, i = .htload k) ∧
    (t.freq ≠ s.freq → ∃ k, i = .hfreq k) ∧
    (t.code ≠ s.code → i = .hcode)

/-! ### Huffman tree builder and code generator -/

/-- R110: HFREQ sets every entry to the number of occurrences of its byte, the entries sum to the block's length, and
nothing else changes. -/
def Obligations.HfreqCountsBytes : Prop :=
  ∀ (k : Buf) (s : State),
    encode (.hfreq k) = 0x00000001#32 ||| BitVec.ofNat 32 k.toNat <<< 8 ∧
    ∃ t, exec (.hfreq k) s = .next t ∧ t = { s.complete .ok with freq := t.freq } ∧
      (∀ v : Fin 256, t.freq[v].toNat = (s.block k).count (BitVec.ofNat 8 v.val)) ∧
      (t.freq.toList.map BitVec.toNat).sum = (s.len.get k).toNat ∧
      ((s.len.get k).toNat ≤ s.bufCap → ∀ v : Fin 256, t.freq[v].toNat ≤ s.bufCap)

/-- R112: HTREE fails with EMPTY_INPUT exactly if every FREQ entry is 0; otherwise, for `n` nonzero entries, it writes
`2n - 1` nodes rooted at `2n - 2` and changes nothing else. -/
def Obligations.HtreeFailsOnlyOnEmptyTable : Prop :=
  ∀ s : State,
    encode .htree = 0x00000002 ∧
    ((∀ v : Fin 256, s.freq[v] = 0) → exec .htree s = .next (s.complete .emptyInput)) ∧
    (∀ n, n = (s.freq.toList.filter (· ≠ 0)).length → n ≠ 0 →
      ∃ t, exec .htree s = .next t ∧
        t = { s.complete .ok with
              mem := { s.mem with node := t.mem.node }, nodeCount := t.nodeCount, root := t.root } ∧
        t.nodeCount.toNat = 2 * n - 1 ∧ t.root.toNat = 2 * n - 2 ∧
        (∀ j, t.nodeCount.toNat ≤ j → Store.get t.mem.node j = Store.get s.mem.node j))

/-- R111: the leaves are the occurring bytes in ascending order, at indices 0, 1, …; each later node merges the two
elements of the pool with the smallest keys (weight, index), the smaller one LEFT, and weighs their sum. -/
def Obligations.HtreeMergesSmallestKeys : Prop :=
  ∀ (s t : State) (syms : List Nat), s.FreqBounded → s.bufCap ≤ Config.bufCapMax →
    exec .htree s = .next t → t.err = .ok →
    syms = (List.range 256).filter (fun v => s.freqAt v ≠ 0) →
    (∀ j v, syms[j]? = some v →
      t.node? j = some ⟨true, BitVec.ofNat 8 v, Config.nil, Config.nil, BitVec.ofNat 32 (s.freqAt v)⟩) ∧
    (∀ m, syms.length ≤ m → m < t.nodeCount.toNat →
      ∃ n l r, t.node? m = some n ∧ n.leaf = false ∧ n.sym = 0 ∧
        inPool t m n.left.toNat ∧ inPool t m n.right.toNat ∧ keyLt t n.left.toNat n.right.toNat ∧
        (∀ x, inPool t m x → x ≠ n.left.toNat → x ≠ n.right.toNat → keyLt t n.right.toNat x) ∧
        t.node? n.left.toNat = some l ∧ t.node? n.right.toNat = some r ∧
        n.weight.toNat = l.weight.toNat + r.weight.toNat)

/-- R114: HCODE gives each byte the code of its leaf, the empty table when there is no tree, and changes nothing else. -/
def Obligations.HcodeWritesPathCodes : Prop :=
  encode .hcode = 0x00000003 ∧
  ∀ s : State, s.ArenaOk →
    ∃ t, exec .hcode s = .next t ∧ t = { s.complete .ok with code := t.code } ∧
      (s.nodeCount = 0 → ∀ v : Fin 256, t.code[v] = ⟨0, 0⟩) ∧
      (s.nodeCount ≠ 0 → ∀ v : Fin 256,
        (∀ p, s.IsCode (BitVec.ofNat 8 v.val) p → t.code[v].clen.toNat = p.length ∧ p ≠ [] ∧
          ∀ j b, p[j]? = some b → t.code[v].cbits.getLsbD j = b) ∧
        ((∀ p, ¬ s.IsCode (BitVec.ofNat 8 v.val) p) → t.code[v] = ⟨0, 0⟩) ∧
        (∀ j, t.code[v].clen.toNat ≤ j → t.code[v].cbits.getLsbD j = false))

/-- R117 (first property): the code table HCODE writes from a valid arena is prefix-free. -/
def Obligations.HcodeIsPrefixFree : Prop :=
  ∀ (s t : State) (v w : Byte), s.ArenaOk → exec .hcode s = .next t → v ≠ w →
    (t.codeAt v).clen ≠ 0 → (t.codeAt w).clen ≠ 0 → ¬ (t.codeAt v).bits <+: (t.codeAt w).bits

/-- R115: HTSER writes the serialised form of the arena, `3n - 1` bytes for a tree of `n` leaves, the empty string for no
tree, or fails with CAPACITY exactly if it does not fit. -/
def Obligations.HtserWritesSerialForm : Prop :=
  ∀ (d : Buf) (s : State), s.ArenaOk →
    encode (.htser d) = 0x00000006#32 ||| BitVec.ofNat 32 d.toNat <<< 10 ∧
    ∃ out, (s.nodeCount = 0 → out = []) ∧
      (s.nodeCount ≠ 0 → s.Serial s.root.toNat out ∧ 2 * out.length = 3 * s.nodeCount.toNat + 1) ∧
      (s.bufCap < out.length → exec (.htser d) s = .next (s.complete .capacity)) ∧
      (out.length ≤ s.bufCap →
        ∃ t, exec (.htser d) s = .next t ∧
          t = { s.complete .ok with len := t.len, mem := { s.mem with buf := t.mem.buf } } ∧ WritesBlock d out s t)

/-- R116: HTLOAD loads the empty tree from the empty block, and from any other block loads exactly the serialised trees
with distinct symbols, numbered in pre-order with all weights 0; every other block is CORRUPT_STREAM. -/
def Obligations.HtloadAcceptsSerialTrees : Prop :=
  ∀ (k : Buf) (s : State),
    encode (.htload k) = 0x00000007#32 ||| BitVec.ofNat 32 k.toNat <<< 8 ∧
    (s.block k = [] → exec (.htload k) s = .next { s.complete .ok with nodeCount := 0, root := 0x1FF }) ∧
    (∀ tr : Machine.Tree, tr.syms.Nodup → tr.ser = s.block k →
      ∃ t tr', exec (.htload k) s = .next t ∧
        t = { s.complete .ok with
              mem := { s.mem with node := t.mem.node }, nodeCount := t.nodeCount, root := t.root } ∧
        t.root = 0 ∧ t.tree? = some tr' ∧ tr'.ser = s.block k ∧ tr'.indices = List.range t.nodeCount.toNat ∧
        (∀ i n, t.node? i = some n → n.weight = 0) ∧
        (∀ j, t.nodeCount.toNat ≤ j → Store.get t.mem.node j = Store.get s.mem.node j)) ∧
    (s.block k ≠ [] → (¬ ∃ tr : Machine.Tree, tr.syms.Nodup ∧ tr.ser = s.block k) →
      exec (.htload k) s = .next (s.complete .corruptStream))

/-- R116 (corner case): HTSER after a successful HTLOAD reproduces the loaded string. -/
def Obligations.HtserAfterHtloadReproduces : Prop :=
  ∀ (k d : Buf) (s t : State), s.LengthsLegal → exec (.htload k) s = .next t → t.err = .ok →
    ∃ u, exec (.htser d) t = .next u ∧ u.err = .ok ∧ u.block d = s.block k

/-! ### Huffman encoder and decoder -/

/-- R140: HENC writes the concatenated codes of the block and their number; NO_CODE if a byte has no code, else CAPACITY if
they exceed BIT_CAP; nothing else changes. -/
def Obligations.HencConcatenatesCodes : Prop :=
  ∀ (k : Buf) (s : State), s.bufCap ≤ Config.bufCapMax →
    encode (.henc k) = 0x00000004#32 ||| BitVec.ofNat 32 k.toNat <<< 8 ∧
    ((∃ v ∈ s.block k, (s.codeAt v).clen = 0) → exec (.henc k) s = .next (s.complete .noCode)) ∧
    ((∀ v ∈ s.block k, (s.codeAt v).clen ≠ 0) →
      ∀ bits, bits = (s.block k).flatMap (fun v => (s.codeAt v).bits) →
        (8 * s.bufCap < bits.length → exec (.henc k) s = .next (s.complete .capacity)) ∧
        (bits.length ≤ 8 * s.bufCap →
          ∃ t, exec (.henc k) s = .next t ∧
            t = { s.complete .ok with bitLen := t.bitLen, mem := { s.mem with bit := t.mem.bit } } ∧
            t.bitLen.toNat = bits.length ∧ Store.WrittenFrom0 bits s.mem.bit t.mem.bit))

/-- R142 (the checks before the loop): the empty stream decodes to the empty block with any tree; a non-empty stream with no
tree is CORRUPT_STREAM. -/
def Obligations.HdecEmptyStreamOrNoTree : Prop :=
  ∀ (d : Buf) (s : State),
    encode (.hdec d) = 0x00000005#32 ||| BitVec.ofNat 32 d.toNat <<< 10 ∧
    (s.bitLen = 0 →
      ∃ t, exec (.hdec d) s = .next t ∧
        t = { s.complete .ok with len := t.len, mem := { s.mem with buf := t.mem.buf } } ∧ WritesBlock d [] s t) ∧
    (s.bitLen ≠ 0 → s.nodeCount = 0 → exec (.hdec d) s = .next (s.complete .corruptStream))

/-- R141, R142 (success): a stream that is a concatenation of codes of the arena's tree decodes to their bytes, if they
fit. -/
def Obligations.HdecDecodesCodeStreams : Prop :=
  ∀ (d : Buf) (s : State) (out : List Byte) (ps : List (List Bool)), s.ArenaOk → s.bufCap ≤ Config.bufCapMax →
    List.Forall₂ s.IsCode out ps → s.bits = ps.flatten → out.length ≤ s.bufCap →
    ∃ t, exec (.hdec d) s = .next t ∧
      t = { s.complete .ok with len := t.len, mem := { s.mem with buf := t.mem.buf } } ∧ WritesBlock d out s t

/-- R141, R142 (errors): after a concatenation of codes whose bytes fit, CAPACITY at the code that would overflow the
buffer, CORRUPT_STREAM at a 1 bit of a single-leaf tree, and CORRUPT_STREAM when the stream ends inside a code. -/
def Obligations.HdecReportsTheFirstError : Prop :=
  ∀ (d : Buf) (s : State) (out : List Byte) (ps : List (List Bool)) (rest : List Bool),
    s.ArenaOk → s.nodeCount ≠ 0 → List.Forall₂ s.IsCode out ps → s.bits = ps.flatten ++ rest →
    (out.length = s.bufCap → (∃ v p q, s.IsCode v p ∧ rest = p ++ q) →
      exec (.hdec d) s = .next (s.complete .capacity)) ∧
    (out.length ≤ s.bufCap → (∃ n q, s.node? s.root.toNat = some n ∧ n.leaf = true ∧ rest = true :: q) →
      exec (.hdec d) s = .next (s.complete .corruptStream)) ∧
    (out.length ≤ s.bufCap → rest ≠ [] →
      (∃ i n, s.follow s.root.toNat rest = some i ∧ s.node? i = some n ∧ n.leaf = false) →
      exec (.hdec d) s = .next (s.complete .corruptStream))

/-- R143 (HCODE, HENC, HDEC on any valid tree): if HENC succeeds with the codes HCODE has just written, HDEC gives back
the block HENC read. -/
def Obligations.HuffmanRoundTrip : Prop :=
  ∀ (k d : Buf) (s t u : State), s.LengthsLegal → s.ArenaOk →
    exec .hcode s = .next t → exec (.henc k) t = .next u → u.err = .ok →
    ∃ w, exec (.hdec d) u = .next w ∧ w.err = .ok ∧ w.block d = t.block k

/-- R140 (corner case): with the code table HFREQ, HTREE and HCODE make from a block, every byte of the block has a code. -/
def Obligations.OwnCodesCoverTheBlock : Prop :=
  ∀ (k : Buf) (s a b c : State), s.LengthsLegal → s.BlockWritten k →
    exec (.hfreq k) s = .next a → exec .htree a = .next b → b.err = .ok → exec .hcode b = .next c →
    ∃ e, exec (.henc k) c = .next e ∧ e.err ≠ .noCode

/-! ### Burrows-Wheeler Transform -/

/-- R160: BWTF writes the last column of the rotations sorted by (rotation, start index), bytes compared as unsigned
numbers, and the rank of the unrotated block; nothing else changes. -/
def Obligations.BwtfSortsRotations : Prop :=
  ∀ (k d : Buf) (s : State) (b : List Byte) (n : Nat), b = s.block k → n = b.length →
    encode (.bwtf k d) = 0x00000010#32 ||| BitVec.ofNat 32 k.toNat <<< 8 ||| BitVec.ofNat 32 d.toNat <<< 10 ∧
    ∃ (t : State) (order : List Nat) (out : List Byte), exec (.bwtf k d) s = .next t ∧
      t = { s.complete .ok with
            len := t.len, mem := { s.mem with buf := t.mem.buf }, origIndex := t.origIndex } ∧
      WritesBlock d out s t ∧ out.length = n ∧ order.Perm (List.range n) ∧
      order.Pairwise (fun i j =>
        (b.drop i ++ b.take i).map BitVec.toNat < (b.drop j ++ b.take j).map BitVec.toNat ∨
        (b.drop i ++ b.take i = b.drop j ++ b.take j ∧ i < j)) ∧
      (∀ r i : Nat, order[r]? = some i → out[r]? = b[(i + n - 1) % n]?) ∧
      (n = 0 → t.origIndex = 0) ∧ (n ≠ 0 → order[t.origIndex.toNat]? = some 0)

/-- R162: BWTI sorts the positions of the last column by (byte, position) and follows the links from ORIG_INDEX; FORMAT if
that index is outside a non-empty block; nothing else changes. -/
def Obligations.BwtiFollowsLinks : Prop :=
  ∀ (k d : Buf) (s : State) (l : List Byte) (n : Nat), l = s.block k → n = l.length →
    encode (.bwti k d) = 0x00000011#32 ||| BitVec.ofNat 32 k.toNat <<< 8 ||| BitVec.ofNat 32 d.toNat <<< 10 ∧
    (n ≠ 0 → n ≤ s.origIndex.toNat → exec (.bwti k d) s = .next (s.complete .format)) ∧
    (n = 0 ∨ s.origIndex.toNat < n →
      ∃ (t : State) (p rows : List Nat) (out : List Byte), exec (.bwti k d) s = .next t ∧
        t = { s.complete .ok with len := t.len, mem := { s.mem with buf := t.mem.buf } } ∧
        WritesBlock d out s t ∧ out.length = n ∧ p.Perm (List.range n) ∧
        p.Pairwise (fun i j => ∃ x y, l[i]? = some x ∧ l[j]? = some y ∧
          (x.toNat < y.toNat ∨ (x = y ∧ i < j))) ∧
        rows.length = n + 1 ∧ rows[0]? = some s.origIndex.toNat ∧
        (∀ j r, j < n → rows[j]? = some r → rows[j + 1]? = p[r]?) ∧
        (∀ j r, j < n → rows[j + 1]? = some r → out[j]? = l[r]?))

/-- R163: BWTI after BWTF gives back the block, for every block. -/
def Obligations.BwtRoundTrip : Prop :=
  ∀ (k d d' : Buf) (s t : State), exec (.bwtf k d) s = .next t →
    ∃ u, exec (.bwti d d') t = .next u ∧ u.err = .ok ∧ u.block d' = s.block k

/-! ### Move-To-Front -/

/-- R170, R171: MTFE writes the block's distinct bytes in ascending order as the alphabet, and for each byte its position in
the working list, which starts as the alphabet and has that byte moved to the front; nothing else changes. -/
def Obligations.MtfeWritesPositions : Prop :=
  ∀ (k d : Buf) (s : State) (b : List Byte), b = s.block k →
    encode (.mtfe k d) = 0x00000020#32 ||| BitVec.ofNat 32 k.toNat <<< 8 ||| BitVec.ofNat 32 d.toNat <<< 10 ∧
    ∃ (t : State) (a : List Byte) (lists : List (List Byte)) (out : List Byte), exec (.mtfe k d) s = .next t ∧
      t = { s.complete .ok with
            len := t.len, alphaLen := t.alphaLen,
            mem := { s.mem with buf := t.mem.buf, alpha := t.mem.alpha } } ∧
      a.Pairwise (fun x y => x.toNat < y.toNat) ∧ (∀ v, v ∈ a ↔ v ∈ b) ∧
      t.alphaLen.toNat = a.length ∧ Store.WrittenFrom0 a s.mem.alpha t.mem.alpha ∧
      WritesBlock d out s t ∧ out.length = b.length ∧ lists[0]? = some a ∧
      (∀ i v p lst, b[i]? = some v → out[i]? = some p → lists[i]? = some lst →
        lst[p.toNat]? = some v ∧
        lists[i + 1]? = some (v :: (lst.take p.toNat ++ lst.drop (p.toNat + 1))))

/-- R172, R171: MTFD looks each index up in the working list, which starts as the alphabet and has the byte found moved to
the front; FORMAT if any index is at or beyond ALPHA_LEN; nothing else changes. -/
def Obligations.MtfdLooksUpPositions : Prop :=
  ∀ (k d : Buf) (s : State) (x : List Byte), x = s.block k →
    encode (.mtfd k d) = 0x00000021#32 ||| BitVec.ofNat 32 k.toNat <<< 8 ||| BitVec.ofNat 32 d.toNat <<< 10 ∧
    ((∃ p ∈ x, s.alphaLen.toNat ≤ p.toNat) → exec (.mtfd k d) s = .next (s.complete .format)) ∧
    ((∀ p ∈ x, p.toNat < s.alphaLen.toNat) →
      ∃ (t : State) (lists : List (List Byte)) (out : List Byte), exec (.mtfd k d) s = .next t ∧
        t = { s.complete .ok with len := t.len, mem := { s.mem with buf := t.mem.buf } } ∧
        WritesBlock d out s t ∧ out.length = x.length ∧ lists[0]? = some s.alphabet ∧
        (∀ i p lst, x[i]? = some p → lists[i]? = some lst →
          ∃ v, lst[p.toNat]? = some v ∧ out[i]? = some v ∧
            lists[i + 1]? = some (v :: (lst.take p.toNat ++ lst.drop (p.toNat + 1)))))

/-- R173: MTFD after MTFE, with the alphabet MTFE wrote, gives back the block, for every block. -/
def Obligations.MtfRoundTrip : Prop :=
  ∀ (k d d' : Buf) (s t : State), exec (.mtfe k d) s = .next t →
    ∃ u, exec (.mtfd d d') t = .next u ∧ u.err = .ok ∧ u.block d' = s.block k

/-! ### Run lengths -/

/-- R180, R181: RLEE writes runs that cover the block in order, none of count 0 and no two neighbours of equal value;
nothing else changes. -/
def Obligations.RleeWritesMaximalRuns : Prop :=
  ∀ (k : Buf) (s : State), s.LengthsLegal →
    encode (.rlee k) = 0x00000030#32 ||| BitVec.ofNat 32 k.toNat <<< 8 ∧
    ∃ (t : State) (rs : List Run), exec (.rlee k) s = .next t ∧
      t = { s.complete .ok with runLen := t.runLen, mem := { s.mem with run := t.mem.run } } ∧
      t.runLen.toNat = rs.length ∧ rs.length ≤ s.bufCap ∧ Store.WrittenFrom0 rs s.mem.run t.mem.run ∧
      rs.flatMap (fun r => List.replicate r.count.toNat r.value) = s.block k ∧
      (∀ r ∈ rs, r.count ≠ 0) ∧ (∀ j a b, rs[j]? = some a → rs[j + 1]? = some b → a.value ≠ b.value)

/-- R182: RLED writes the expansion of the run list; run by run, FORMAT at a count of 0 and then CAPACITY past BUF_CAP,
whichever comes first; nothing else changes. -/
def Obligations.RledExpandsRuns : Prop :=
  ∀ (d : Buf) (s : State), s.bufCap ≤ Config.bufCapMax →
    encode (.rled d) = 0x00000031#32 ||| BitVec.ofNat 32 d.toNat <<< 10 ∧
    (∀ out, out = s.runs.flatMap (fun r => List.replicate r.count.toNat r.value) →
      (∀ r ∈ s.runs, r.count ≠ 0) → out.length ≤ s.bufCap →
      ∃ t, exec (.rled d) s = .next t ∧
        t = { s.complete .ok with len := t.len, mem := { s.mem with buf := t.mem.buf } } ∧ WritesBlock d out s t) ∧
    (∀ good r rest, s.runs = good ++ r :: rest → (∀ g ∈ good, g.count ≠ 0) →
      ((good.map fun g => g.count.toNat).sum ≤ s.bufCap) →
      (r.count = 0 → exec (.rled d) s = .next (s.complete .format)) ∧
      (r.count ≠ 0 → s.bufCap < (good.map fun g => g.count.toNat).sum + r.count.toNat →
        exec (.rled d) s = .next (s.complete .capacity)))

/-- R183: RLED after RLEE gives back the block, for every block. -/
def Obligations.RleRoundTrip : Prop :=
  ∀ (k d : Buf) (s t : State), s.LengthsLegal → exec (.rlee k) s = .next t →
    ∃ u, exec (.rled d) t = .next u ∧ u.err = .ok ∧ u.block d = s.block k

/-! ### Bit packing -/

/-- R190, R191: PACK writes `ceil(BIT_LEN / 8)` bytes, bit `8q + p` of the stream at position `7 - p` of byte `q` and
padding 0; nothing else changes. -/
def Obligations.PackWritesMsbFirst : Prop :=
  ∀ (d : Buf) (s : State),
    encode (.pack d) = 0x00000040#32 ||| BitVec.ofNat 32 d.toNat <<< 10 ∧
    ∃ (t : State) (out : List Byte), exec (.pack d) s = .next t ∧
      t = { s.complete .ok with len := t.len, mem := { s.mem with buf := t.mem.buf } } ∧
      WritesBlock d out s t ∧ out.length = (s.bitLen.toNat + 7) / 8 ∧
      (∀ q y, out[q]? = some y → ∀ p, p < 8 →
        y.getLsbD (7 - p) = (decide (8 * q + p < s.bitLen.toNat) && s.bitAt (8 * q + p)))

/-- R193: UNPACK reads each bit back from its place and leaves BIT_LEN, or fails with FORMAT exactly if the byte count is
not `ceil(BIT_LEN / 8)`; nothing else changes. -/
def Obligations.UnpackReadsMsbFirst : Prop :=
  ∀ (k : Buf) (s : State),
    encode (.unpack k) = 0x00000041#32 ||| BitVec.ofNat 32 k.toNat <<< 8 ∧
    ((s.len.get k).toNat ≠ (s.bitLen.toNat + 7) / 8 → exec (.unpack k) s = .next (s.complete .format)) ∧
    ((s.len.get k).toNat = (s.bitLen.toNat + 7) / 8 →
      ∃ (t : State) (bits : List Bool), exec (.unpack k) s = .next t ∧
        t = { s.complete .ok with mem := { s.mem with bit := t.mem.bit } } ∧
        bits.length = s.bitLen.toNat ∧ Store.WrittenFrom0 bits s.mem.bit t.mem.bit ∧
        (∀ j b, bits[j]? = some b → b = (s.byteAt k (j / 8)).getLsbD (7 - j % 8)))

/-- R194: UNPACK after PACK leaves the BitStream as it was before PACK. -/
def Obligations.PackUnpackRoundTrip : Prop :=
  ∀ (d : Buf) (s t : State), exec (.pack d) s = .next t →
    ∃ u, exec (.unpack d) t = .next u ∧ u.err = .ok ∧ u.bitLen = s.bitLen ∧ u.bits = s.bits

/-- R79: a command with `src = dst` gives the same block, code, index and alphabet as one with another destination. -/
def Obligations.SourceMayBeDestination : Prop :=
  ∀ (k d : Buf) (s t u : State) (c : Buf → Buf → Instr), c ∈ [Instr.bwtf, Instr.bwti, Instr.mtfe, Instr.mtfd] →
    exec (c k k) s = .next t → exec (c k d) s = .next u →
    t.err = u.err ∧ t.origIndex = u.origIndex ∧ t.alphaLen = u.alphaLen ∧ t.mem.alpha = u.mem.alpha ∧
    (t.err = .ok → t.block k = u.block d)

/-! ### Registers, window and interrupt -/

/-- R23: the fields of STATUS, and a write to it, idle or busy, clears DONE and OVR where the written bit is 1 and changes
nothing else. -/
def Obligations.StatusFieldsAndWrites : Prop :=
  (∀ s : State,
    s.readLoc (locate 0x00C) =
      (if s.busy then 1#32 else 0) ||| (if s.done then 2#32 else 0) ||| (if s.ovr then 4#32 else 0) |||
      (match s.err with
        | .ok => 0x000#32 | .emptyInput => 0x100 | .corruptStream => 0x200 | .format => 0x300
        | .unsupported => 0x400 | .noCode => 0x500 | .capacity => 0x600)) ∧
  (∀ (s : State) (v : Word) (es : List Event), s.agenda = .host (.write 4 0x00C#29 v) :: es →
    step s = .next { s with
      agenda := es, done := s.done && !v.getLsbD 1, ovr := s.ovr && !v.getLsbD 2,
      resp := some .writeDone, draws := s.draws + 1 })

/-- R26: while busy, a write to any aligned offset but STATUS and CTRL sets OVR and has no other effect; no read sets OVR;
only a write of 1 to bit 2 of STATUS, or reset, clears it. -/
def Obligations.BusyWritesAreLostAndFlagged : Prop :=
  (∀ (s : State) (c v : Word) (o : BitVec 29) (es : List Event), s.phase = .busy c → o.toNat % 4 = 0 →
    o ≠ 0x004#29 → o ≠ 0x00C#29 → s.agenda = .host (.write 4 o v) :: es →
    step s = .next { s with agenda := es, ovr := true, resp := some .writeDone, draws := s.draws + 1 }) ∧
  (∀ (s t : State) (n : Nat) (o : BitVec 29) (es : List Event), s.agenda = .host (.read n o) :: es →
    step s = .next t → t.ovr = s.ovr) ∧
  (∀ s t : State, step s = .next t → s.ovr = true → t.ovr = false →
    (∃ v es, s.agenda = .host (.write 4 0x00C#29 v) :: es ∧ v.getLsbD 2 = true) ∨ ∃ es, s.agenda = .reset :: es)

/-- R64, R226: a narrower, wider or misaligned access gets an error response and changes no state: no flag, no register, no
memory, and no command starts. That the run goes on is the model's choice (log entry 7). -/
def Obligations.RefusedAccessesChangeNothing : Prop :=
  ∀ (s : State) (op : HostOp) (es : List Event), s.agenda = .host op :: es →
    (op.bytes ≠ 4 ∨ op.off.toNat % 4 ≠ 0) →
    ∃ e, step s = .next { s with agenda := es, resp := some (.error e), draws := s.draws + 1 }

/-- R67 (reads): an aligned read answers the word its location reads as and changes no state, idle or busy. -/
def Obligations.ReadsHaveNoSideEffects : Prop :=
  ∀ (s : State) (o : BitVec 29) (es : List Event), o.toNat % 4 = 0 → s.agenda = .host (.read 4 o) :: es →
    step s = .next { s with
      agenda := es, resp := some (.readData (s.readLoc (locate o.toNat))), draws := s.draws + 1 }

/-- R39: a length register takes a written value that is legal and keeps its value otherwise, so every step keeps every
length register legal. ORIG_INDEX takes any written value (R32). -/
def Obligations.LengthRegistersTakeLegalValues : Prop :=
  (∀ s t : State, s.LengthsLegal → step s = .next t → t.LengthsLegal) ∧
  ∀ (s : State) (v : Word) (es : List Event), s.phase = .idle →
    (∀ k : Buf, s.agenda = .host (.write 4 (BitVec.ofNat 29 (0x010 + 4 * k.toNat)) v) :: es →
      ∃ t, step s = .next t ∧ t = { s with agenda := es, len := t.len, resp := t.resp, draws := t.draws } ∧
        (v.toNat ≤ s.bufCap → t.len.get k = v) ∧ (s.bufCap < v.toNat → t.len.get k = s.len.get k) ∧
        (∀ j, j ≠ k → t.len.get j = s.len.get j)) ∧
    (s.agenda = .host (.write 4 0x020#29 v) :: es →
      step s = .next { s with
        agenda := es, bitLen := if v.toNat ≤ 8 * s.bufCap then v else s.bitLen, resp := some .writeDone,
        draws := s.draws + 1 }) ∧
    (s.agenda = .host (.write 4 0x028#29 v) :: es →
      step s = .next { s with
        agenda := es, alphaLen := if v.toNat ≤ 256 then v else s.alphaLen, resp := some .writeDone,
        draws := s.draws + 1 }) ∧
    (s.agenda = .host (.write 4 0x02C#29 v) :: es →
      step s = .next { s with
        agenda := es, runLen := if v.toNat ≤ s.bufCap then v else s.runLen, resp := some .writeDone,
        draws := s.draws + 1 }) ∧
    (s.agenda = .host (.write 4 0x024#29 v) :: es →
      step s = .next { s with
        agenda := es, origIndex := v, resp := some .writeDone, draws := s.draws + 1 })

/-- R66, and R22, R35 to R37: a write to a read-only memory or register has no effect, and sets OVR while busy. -/
def Obligations.ReadOnlyLocationsIgnoreWrites : Prop :=
  ∀ (s : State) (v : Word) (o : BitVec 29) (es : List Event), o.toNat % 4 = 0 →
    (o.toNat ∈ [0x000, 0x030, 0x034, 0x040, 0x044, 0x048] ∨ (0x1000 ≤ o.toNat ∧ o.toNat < 0x1400) ∨
      (0x2000 ≤ o.toNat ∧ o.toNat < 0x2FF8) ∨ (0x4000 ≤ o.toNat ∧ o.toNat < 0x8000)) →
    s.agenda = .host (.write 4 o v) :: es →
    step s = .next { s with
      agenda := es, ovr := s.ovr || s.busy, resp := some .writeDone, draws := s.draws + 1 }

/-- R38, R65: an unassigned offset reads 0 while idle, and a write to it has no effect but to set OVR while busy. -/
def Obligations.UnassignedOffsetsReadZero : Prop :=
  ∀ (s : State) (v : Word) (o : BitVec 29) (es : List Event), o.toNat % 4 = 0 →
    (o.toNat ∈ [0x038, 0x03C] ∨ (0x048 < o.toNat ∧ o.toNat < 0x1000) ∨
      (0x1400 ≤ o.toNat ∧ o.toNat < 0x2000) ∨ (0x2FF8 ≤ o.toNat ∧ o.toNat < 0x4000) ∨
      (0x8100 ≤ o.toNat ∧ o.toNat < 0x04000000) ∨ 0x1C000000 ≤ o.toNat) →
    (s.phase = .idle → s.agenda = .host (.read 4 o) :: es →
      step s = .next { s with agenda := es, resp := some (.readData 0), draws := s.draws + 1 }) ∧
    (s.agenda = .host (.write 4 o v) :: es →
      step s = .next { s with
        agenda := es, ovr := s.ovr || s.busy, resp := some .writeDone, draws := s.draws + 1 })

/-- R62, R65 (byte buffers): an idle write to word `w` of buffer `k` sets bytes `4w..4w+3` from the byte lanes, lowest first,
below the capacity, and nothing else; a read gathers the same lanes, and lanes at or above the capacity read 0. A lane at or
above `LENk` is stale and nothing is said of what it reads as (R48, U1; log entry 4). -/
def Obligations.BufferWordsAreLittleEndian : Prop :=
  ∀ (s : State) (k : Buf) (w : Nat) (es : List Event) (o : BitVec 29), s.phase = .idle → w < 2 ^ 24 →
    o = BitVec.ofNat 29 (0x0C000000 + 0x04000000 * k.toNat + 4 * w) →
    (∀ v, s.agenda = .host (.write 4 o v) :: es →
      ∃ t, step s = .next t ∧
        t = { s with agenda := es, mem := { s.mem with buf := t.mem.buf }, resp := t.resp, draws := t.draws } ∧
        (∀ j, j ≠ k → t.mem.buf.get j = s.mem.buf.get j) ∧
        (∀ l, l < 4 → 4 * w + l < s.bufCap →
          Store.get (t.mem.buf.get k) (4 * w + l) = some (v.extractLsb' (8 * l) 8)) ∧
        (∀ i, (i < 4 * w ∨ 4 * w + 4 ≤ i ∨ s.bufCap ≤ i) →
          Store.get (t.mem.buf.get k) i = Store.get (s.mem.buf.get k) i)) ∧
    (s.agenda = .host (.read 4 o) :: es →
      ∃ v, step s = .next { s with agenda := es, resp := some (.readData v), draws := s.draws + 1 } ∧
        ∀ l, l < 4 →
          (s.bufCap ≤ 4 * w + l → v.extractLsb' (8 * l) 8 = 0) ∧
          (∀ y, 4 * w + l < s.bufCap → 4 * w + l < (s.len.get k).toNat →
            Store.get (s.mem.buf.get k) (4 * w + l) = some y →
            v.extractLsb' (8 * l) 8 = y))

/-- R62, R65 (BIT): an idle write to word `w` of BIT sets bits `32w..32w+31` below the capacity, bit `j` of the word to bit
`32w + j`, and nothing else; a read gathers the same bits, 0 at or above the capacity. A bit at or above BIT_LEN is stale and
nothing is said of what it reads as (R48, U1; log entry 4). -/
def Obligations.BitWordsMapBitForBit : Prop :=
  ∀ (s : State) (w : Nat) (es : List Event) (o : BitVec 29), s.phase = .idle → w < 2 ^ 24 →
    o = BitVec.ofNat 29 (0x08000000 + 4 * w) →
    (∀ v, s.agenda = .host (.write 4 o v) :: es →
      ∃ t, step s = .next t ∧
        t = { s with agenda := es, mem := { s.mem with bit := t.mem.bit }, resp := t.resp, draws := t.draws } ∧
        (∀ j, j < 32 → 32 * w + j < 8 * s.bufCap → Store.get t.mem.bit (32 * w + j) = some (v.getLsbD j)) ∧
        (∀ i, (i < 32 * w ∨ 32 * w + 32 ≤ i ∨ 8 * s.bufCap ≤ i) →
          Store.get t.mem.bit i = Store.get s.mem.bit i)) ∧
    (s.agenda = .host (.read 4 o) :: es →
      ∃ v, step s = .next { s with agenda := es, resp := some (.readData v), draws := s.draws + 1 } ∧
        ∀ j, j < 32 →
          (8 * s.bufCap ≤ 32 * w + j → v.getLsbD j = false) ∧
          (∀ y, 32 * w + j < 8 * s.bufCap → 32 * w + j < s.bitLen.toNat →
            Store.get s.mem.bit (32 * w + j) = some y → v.getLsbD j = y))

/-- R45, R46, R62, R65 (RUN and ALPHA): an idle write to a run word sets that entry from COUNT[31:8] and VALUE[7:0], and one to
an alphabet word sets its four bytes; nothing else changes. A read of a valid entry answers those fields, and of a run word at
or above the capacity 0. An entry at or above RUN_LEN or ALPHA_LEN is stale and nothing is said of what it reads as (R48, U1;
log entry 4). -/
def Obligations.RunAndAlphaWords : Prop :=
  ∀ (s : State) (es : List Event) (o : BitVec 29) (v : Word), s.phase = .idle →
    (∀ j, j < 2 ^ 24 → o = BitVec.ofNat 29 (0x04000000 + 4 * j) →
      (s.agenda = .host (.write 4 o v) :: es →
        ∃ t, step s = .next t ∧
          t = { s with agenda := es, mem := { s.mem with run := t.mem.run }, resp := t.resp, draws := t.draws } ∧
          (j < s.bufCap → Store.get t.mem.run j = some ⟨v.extractLsb' 0 8, v.extractLsb' 8 24⟩) ∧
          (∀ i, (i ≠ j ∨ s.bufCap ≤ i) → Store.get t.mem.run i = Store.get s.mem.run i)) ∧
      (s.agenda = .host (.read 4 o) :: es →
        (j < s.bufCap → j < s.runLen.toNat → Store.get s.mem.run j = some ⟨v.extractLsb' 0 8, v.extractLsb' 8 24⟩ →
          step s = .next { s with agenda := es, resp := some (.readData v), draws := s.draws + 1 }) ∧
        (s.bufCap ≤ j →
          step s = .next { s with agenda := es, resp := some (.readData 0), draws := s.draws + 1 }))) ∧
    (∀ w, w < 64 → o = BitVec.ofNat 29 (0x8000 + 4 * w) →
      (s.agenda = .host (.write 4 o v) :: es →
        ∃ t, step s = .next t ∧
          t = { s with agenda := es, mem := { s.mem with alpha := t.mem.alpha }, resp := t.resp, draws := t.draws } ∧
          (∀ l, l < 4 → Store.get t.mem.alpha (4 * w + l) = some (v.extractLsb' (8 * l) 8)) ∧
          (∀ i, (i < 4 * w ∨ 4 * w + 4 ≤ i) → Store.get t.mem.alpha i = Store.get s.mem.alpha i)) ∧
      (s.agenda = .host (.read 4 o) :: es →
        ∃ u, step s = .next { s with agenda := es, resp := some (.readData u), draws := s.draws + 1 } ∧
          ∀ l y, l < 4 → 4 * w + l < s.alphaLen.toNat → Store.get s.mem.alpha (4 * w + l) = some y →
            u.extractLsb' (8 * l) 8 = y))

/-- R22, R28 to R37, R42, R43, R47, R62, R68: what the registers and the three read-only memories read as. Idle or busy, ID,
CTRL, CMD, STATUS and the capacities answer their current value. While idle, so does every other register; FREQ word `v` is
`FREQ[v]`; the two words of a valid arena entry are LEAF 31, SYM 25:18, RIGHT 17:9, LEFT 8:0 and WEIGHT, and bits 30:26 of the
first are 0 for every entry; the sixteen words of a code entry are CLEN, CBITS by 32 bits (bit 255 reads 0), then 0. That bits
30:26 read 0 in an entry at or above NODE_COUNT too is the model's own reading of R43 (DEDUCED, unsafe; log entry 5). -/
def Obligations.RegistersAndTablesReadAsTheyAre : Prop :=
  ∀ s : State,
    (s.readLoc (locate 0x000) = 0x485A4331 ∧
      s.readLoc (locate 0x004) = (if s.irqEn then 1 else 0) ∧
      s.readLoc (locate 0x008) = s.cmd ∧
      s.readLoc (locate 0x00C) = s.statusWord ∧
      s.readLoc (locate 0x040) = BitVec.ofNat 32 s.bufCap ∧
      s.readLoc (locate 0x044) = BitVec.ofNat 32 (8 * s.bufCap) ∧
      s.readLoc (locate 0x048) = BitVec.ofNat 32 s.bufCap) ∧
    (s.phase = .idle →
      ((∀ k : Buf, s.readLoc (locate (0x010 + 4 * k.toNat)) = s.len.get k) ∧
        s.readLoc (locate 0x020) = s.bitLen ∧
        s.readLoc (locate 0x024) = s.origIndex ∧
        s.readLoc (locate 0x028) = s.alphaLen ∧
        s.readLoc (locate 0x02C) = s.runLen ∧
        (s.readLoc (locate 0x030)).toNat = s.nodeCount.toNat ∧
        (s.readLoc (locate 0x034)).toNat = s.root.toNat) ∧
      (∀ v : Fin 256, s.readLoc (locate (0x1000 + 4 * v.val)) = s.freq[v]) ∧
      (∀ (i : Nat) (w₀ w₁ : Word), i < 511 →
        w₀ = s.readLoc (locate (0x2000 + 8 * i)) → w₁ = s.readLoc (locate (0x2004 + 8 * i)) →
        w₀.extractLsb' 26 5 = 0 ∧
        ∀ n, s.node? i = some n →
          w₀.getLsbD 31 = n.leaf ∧ w₀.extractLsb' 18 8 = n.sym ∧ w₀.extractLsb' 9 9 = n.right ∧
          w₀.extractLsb' 0 9 = n.left ∧ w₁ = n.weight) ∧
      (∀ (v : Fin 256) (e : CodeEntry), e = s.code[v] →
        (s.readLoc (locate (0x4000 + 64 * v.val))).toNat = e.clen.toNat ∧
        (∀ w j, w < 8 → j < 32 →
          (s.readLoc (locate (0x4000 + 64 * v.val + 4 * (w + 1)))).getLsbD j = e.cbits.getLsbD (32 * w + j)) ∧
        (∀ w, 9 ≤ w → w < 16 → s.readLoc (locate (0x4000 + 64 * v.val + 4 * w)) = 0)))

/-- R52: after reset, whatever the capacity, every register reads its reset value, every FREQ and CODE word reads 0, the
phase is Idle, IRQ is 0, and no byte, bit, run, alphabet byte or node has a value. -/
def Obligations.ResetValues : Prop :=
  ∀ (cap : Nat) (s : State), s = State.resetOf cap →
    s.readLoc (locate 0x000) = 0x485A4331 ∧ s.readLoc (locate 0x004) = 0 ∧ s.readLoc (locate 0x008) = 0 ∧
    s.readLoc (locate 0x00C) = 0 ∧ (∀ k : Buf, s.readLoc (locate (0x010 + 4 * k.toNat)) = 0) ∧
    s.readLoc (locate 0x020) = 0 ∧ s.readLoc (locate 0x024) = 0 ∧ s.readLoc (locate 0x028) = 0 ∧
    s.readLoc (locate 0x02C) = 0 ∧ s.readLoc (locate 0x030) = 0 ∧ s.readLoc (locate 0x034) = 0x1FF ∧
    s.readLoc (locate 0x040) = BitVec.ofNat 32 cap ∧ s.readLoc (locate 0x044) = BitVec.ofNat 32 (8 * cap) ∧
    s.readLoc (locate 0x048) = BitVec.ofNat 32 cap ∧
    (∀ v, v < 256 → s.readLoc (locate (0x1000 + 4 * v)) = 0) ∧
    (∀ v w, v < 256 → w < 16 → s.readLoc (locate (0x4000 + 64 * v + 4 * w)) = 0) ∧
    s.phase = .idle ∧ s.irq = false ∧ s.mem = Memory.unwritten

/-- R242, R240: reset puts every state element at its reset value from any state, busy or not, with no commit; the capacity
is the block's own (R35), and the schedule, the bus response and the draw number are the model's own (log entry 11). -/
def Obligations.ResetAbortsEverything : Prop :=
  ∀ (s : State) (es : List Event), s.agenda = .reset :: es →
    ∃ t, step s = .next t ∧ t = { State.resetOf s.bufCap with agenda := t.agenda, resp := t.resp, draws := t.draws } ∧ t.irq = false

/-- R214, R215, R28: IRQ is DONE and IRQ_EN; a CTRL write, idle or busy, sets IRQ_EN to bit 0 and keeps DONE; clearing DONE
or accepting a command drops it, and after every completion, of a command or of a word that decodes to none, it is IRQ_EN;
CTRL reads IRQ_EN in bit 0 and 0 elsewhere. -/
def Obligations.InterruptLine : Prop :=
  (∀ s : State, s.irq = (s.done && s.irqEn)) ∧
  (∀ s : State, s.readLoc (locate 0x004) = if s.irqEn then 1 else 0) ∧
  (∀ (s : State) (v : Word) (es : List Event), s.agenda = .host (.write 4 0x004#29 v) :: es →
    step s = .next { s with agenda := es, irqEn := v.getLsbD 0, resp := some .writeDone, draws := s.draws + 1 }) ∧
  (∀ (s t : State) (v : Word) (es : List Event), s.agenda = .host (.write 4 0x00C#29 v) :: es → v.getLsbD 1 = true →
    step s = .next t → t.irq = false) ∧
  (∀ (s t : State) (c : Word) (es : List Event), s.phase = .idle → s.agenda = .host (.write 4 0x008#29 c) :: es →
    step s = .next t → t.irq = false) ∧
  (∀ s t : State, ((∃ i, exec i s = .next t) ∨ ∃ c, completion c s = .next t) → t.irq = s.irqEn)

/-- R70: no host access made while a command executes changes anything but STATUS and CTRL, so the command completes from
the state at acceptance. -/
def Obligations.InputsAreStableWhileBusy : Prop :=
  ∀ (s t : State) (c : Word) (op : HostOp) (es : List Event), s.phase = .busy c → s.agenda = .host op :: es →
    step s = .next t →
    t = { s with
      agenda := es, done := t.done, ovr := t.ovr, irqEn := t.irqEn, resp := t.resp, draws := t.draws }

/-! ### Invariants -/

/-- R52 and R44: the reset state of every legal capacity is sound and its arena is valid. -/
def Obligations.ResetIsSound : Prop :=
  ∀ cap : Nat, 1 ≤ cap → cap ≤ 2 ^ 24 - 1 → (State.resetOf cap).Sound ∧ (State.resetOf cap).ArenaOk

/-- R14, R24, R39, R40 to R47: every step keeps lengths legal, memories canonical and inside their capacities, the busy
marks, the bound on FREQ and the clean code table. -/
def Obligations.StepKeepsSound : Prop :=
  ∀ s t : State, s.Sound → step s = .next t → t.Sound

/-- R44: every step keeps the arena invariant; HTREE and HTLOAD establish it and nothing else writes the arena. -/
def Obligations.StepKeepsArena : Prop :=
  ∀ s t : State, s.Sound → s.ArenaOk → step s = .next t → t.ArenaOk

/-- R44: an arena that meets the invariant and holds a tree has `2n - 1` nodes for its `n` leaves, 1 <= n <= 256. -/
def Obligations.ArenaCountsItsLeaves : Prop :=
  ∀ s : State, s.ArenaOk → s.nodeCount ≠ 0 →
    ∃ n t, s.tree? = some t ∧ n = t.syms.length ∧ 1 ≤ n ∧ n ≤ 256 ∧ s.nodeCount.toNat = 2 * n - 1
end

