-- ==== Sys2Proof/Laws/Store.lean ====
section
/-! SUPPORT. The laws of stores: a read after a write, a write leaves every other index alone, and every memory operation keeps
the canonical form. -/

namespace Sys2Proof.Machine

variable {α : Type}

/-! ### Reads -/

@[simp] theorem Store.get_nil (i : Nat) : Store.get ([] : Store α) i = none := rfl

@[simp] theorem Store.get_cons (j i : Nat) (v : α) (m : Store α) :
    Store.get ((j, v) :: m) i = if j = i then some v else Store.get m i := rfl

theorem Store.get_append (m m' : Store α) (i : Nat) :
    Store.get (m ++ m') i = (Store.get m i).or (Store.get m' i) := by
  induction m with
  | nil => simp
  | cons e m ih =>
    obtain ⟨j, v⟩ := e
    by_cases h : j = i <;> simp [h, ih]

theorem Store.get_listFrom (xs : List α) (a i : Nat) :
    Store.get (Store.listFrom a xs) i = if a ≤ i then xs[i - a]? else none := by
  induction xs generalizing a with
  | nil => simp [Store.listFrom]
  | cons x xs ih =>
    rw [Store.listFrom, Store.get_cons, ih]
    by_cases h : a = i
    · simp [h]
    · by_cases h' : a + 1 ≤ i
      · have : i - a = (i - (a + 1)) + 1 := by omega
        simp [h, h', this, show a ≤ i by omega]
      · simp [h, h', show ¬ a ≤ i by omega]

theorem Store.get_filter_ge (m : Store α) (n i : Nat) (h : n ≤ i) :
    Store.get (m.filter fun e => decide (n ≤ e.1)) i = Store.get m i := by
  induction m with
  | nil => rfl
  | cons e m ih =>
    obtain ⟨j, v⟩ := e
    by_cases hj : n ≤ j
    · simp [hj, ih]
    · have : j ≠ i := by omega
      simp [hj, ih, this]

/-- A read after a commit of `xs`: the new value below `|xs|`, the old one at or above it (R48, R78). -/
theorem Store.get_put (xs : List α) (m : Store α) (i : Nat) :
    Store.get (Store.put xs m) i = if i < xs.length then xs[i]? else Store.get m i := by
  unfold Store.put
  rw [Store.get_append, Store.get_listFrom]
  by_cases h : i < xs.length
  · simp [h]
  · have h' : xs.length ≤ i := by omega
    simp [h, h', Store.get_filter_ge]

/-- A read after a write: the written index has the value, every other index keeps what it had. -/
theorem Store.get_set (m : Store α) (i j : Nat) (v : α) :
    Store.get (Store.set m i v) j = if i = j then some v else Store.get m j := by
  induction m with
  | nil => simp [Store.set]
  | cons e m ih =>
    obtain ⟨k, w⟩ := e
    unfold Store.set
    split
    · simp
    · split
      · next h => subst h; by_cases h' : i = j <;> simp [h']
      · next h₁ h₂ =>
        by_cases hk : k = j
        · subst hk; simp [h₂]
        · simp [hk, ih]

/-- A read after a host write of several consecutive indices below a capacity (R62, R65). -/
theorem Store.get_setFrom (cap : Nat) (vs : List α) (base : Nat) (m : Store α) (j : Nat) :
    Store.get (Store.setFrom cap base vs m) j =
      if base ≤ j ∧ j < base + vs.length ∧ j < cap then vs[j - base]? else Store.get m j := by
  induction vs generalizing base m with
  | nil => rw [if_neg (by simp; omega)]; rfl
  | cons v vs ih =>
    rw [Store.setFrom, ih]
    by_cases h : base + 1 ≤ j ∧ j < base + 1 + vs.length ∧ j < cap
    · have : j - base = (j - (base + 1)) + 1 := by omega
      rw [if_pos h, if_pos (by simp; omega), this]; simp
    · rw [if_neg h]
      by_cases hj : base = j ∧ base < cap
      · obtain ⟨rfl, hc⟩ := hj
        simp [hc, Store.get_set]
      · have hn : ¬ (base ≤ j ∧ j < base + (v :: vs).length ∧ j < cap) := by simp; omega
        by_cases hb : base < cap
        · have hbj : base ≠ j := fun e => hj ⟨e, hb⟩
          rw [if_pos hb, Store.get_set, if_neg hbj, if_neg hn]
        · rw [if_neg hb, if_neg hn]

/-! ### The canonical form -/

theorem Store.keys_listFrom_ge (xs : List α) (a : Nat) : ∀ e ∈ Store.listFrom a xs, a ≤ e.1 ∧ e.1 < a + xs.length := by
  induction xs generalizing a with
  | nil => simp [Store.listFrom]
  | cons x xs ih =>
    intro e he
    simp only [Store.listFrom, List.mem_cons] at he
    rcases he with rfl | he
    · simp
    · have := ih (a + 1) e he
      simp; omega

theorem Store.wf_listFrom (xs : List α) (a : Nat) : Store.wf (Store.listFrom a xs) := by
  induction xs generalizing a with
  | nil => simp [Store.wf, Store.listFrom]
  | cons x xs ih =>
    simp only [Store.wf, Store.listFrom, List.map_cons, List.pairwise_cons]
    refine ⟨?_, ih (a + 1)⟩
    intro k hk
    obtain ⟨e, he, rfl⟩ := List.mem_map.1 hk
    have := Store.keys_listFrom_ge xs (a + 1) e he
    omega

/-- A commit keeps the canonical form. -/
theorem Store.wf_put (xs : List α) (m : Store α) (h : Store.wf m) : Store.wf (Store.put xs m) := by
  unfold Store.wf Store.put
  rw [List.map_append, List.pairwise_append]
  refine ⟨Store.wf_listFrom xs 0, ?_, ?_⟩
  · exact List.Pairwise.sublist (List.Sublist.map _ List.filter_sublist) h
  · intro a ha b hb
    obtain ⟨e, he, rfl⟩ := List.mem_map.1 ha
    obtain ⟨f, hf, rfl⟩ := List.mem_map.1 hb
    have h₁ := Store.keys_listFrom_ge xs 0 e he
    have h₂ := of_decide_eq_true (List.mem_filter.1 hf).2
    omega

theorem Store.mem_set {m : Store α} {i : Nat} {v : α} {e : Nat × α} (h : e ∈ Store.set m i v) : e = (i, v) ∨ e ∈ m := by
  induction m with
  | nil => simpa [Store.set] using h
  | cons f m ih =>
    obtain ⟨k, w⟩ := f
    unfold Store.set at h
    split at h
    · simpa using h
    · split at h
      · rcases List.mem_cons.1 h with h | h
        · exact .inl h
        · exact .inr (List.mem_cons_of_mem _ h)
      · rcases List.mem_cons.1 h with h | h
        · exact .inr (by simp [h])
        · rcases ih h with h | h
          · exact .inl h
          · exact .inr (List.mem_cons_of_mem _ h)

/-- A write of one index keeps the canonical form. -/
theorem Store.wf_set (m : Store α) (i : Nat) (v : α) (h : Store.wf m) : Store.wf (Store.set m i v) := by
  induction m with
  | nil => simp [Store.wf, Store.set]
  | cons e m ih =>
    obtain ⟨k, w⟩ := e
    simp only [Store.wf, List.map_cons, List.pairwise_cons] at h
    obtain ⟨hk, hm⟩ := h
    unfold Store.set
    split
    · next hik =>
      simp only [Store.wf, List.map_cons, List.pairwise_cons, List.mem_cons, forall_eq_or_imp]
      exact ⟨⟨hik, fun a ha => Nat.lt_trans hik (hk a ha)⟩, hk, hm⟩
    · split
      · next h₁ => subst h₁; simp only [Store.wf, List.map_cons, List.pairwise_cons]; exact ⟨hk, hm⟩
      · next h₁ h₂ =>
        simp only [Store.wf, List.map_cons, List.pairwise_cons]
        refine ⟨?_, ih hm⟩
        intro a ha
        obtain ⟨e, he, rfl⟩ := List.mem_map.1 ha
        rcases Store.mem_set he with rfl | he
        · simp; omega
        · exact hk _ (List.mem_map_of_mem he)

/-- A host write of one word keeps the canonical form. -/
theorem Store.wf_setFrom (cap : Nat) (vs : List α) (base : Nat) (m : Store α) (h : Store.wf m) :
    Store.wf (Store.setFrom cap base vs m) := by
  induction vs generalizing base m with
  | nil => exact h
  | cons v vs ih =>
    rw [Store.setFrom]
    apply ih
    split
    · exact Store.wf_set m base v h
    · exact h

/-- Reset memory is in canonical form. -/
theorem Memory.unwritten_wf : Memory.unwritten.wf := by decide

/-- The reset state's memory is in canonical form, whatever the capacity. -/
theorem State.resetOf_mem_wf (cap : Nat) : (State.resetOf cap).mem.wf := Memory.unwritten_wf

/-! ### Indices listed -/

theorem Store.mem_put {xs : List α} {m : Store α} {e : Nat × α} (h : e ∈ Store.put xs m) : e.1 < xs.length ∨ e ∈ m := by
  rcases List.mem_append.1 h with h | h
  · have := Store.keys_listFrom_ge xs 0 e h
    exact .inl (by omega)
  · exact .inr (List.mem_filter.1 h).1

theorem Store.mem_setFrom {cap : Nat} {vs : List α} {base : Nat} {m : Store α} {e : Nat × α}
    (h : e ∈ Store.setFrom cap base vs m) : e.1 < cap ∨ e ∈ m := by
  induction vs generalizing base m with
  | nil => exact .inr h
  | cons v vs ih =>
    rcases ih h with h | h
    · exact .inl h
    · split at h
      · rcases Store.mem_set h with rfl | h
        · left; assumption
        · exact .inr h
      · exact .inr h

end Sys2Proof.Machine
end

