-- ==== Sys2Proof/Laws/Ops.lean ====
section
/-! SUPPORT. The laws of the other shared operations: one of four buffers, bit strings as numbers, tables, and how a command
ends. -/

namespace Sys2Proof.Machine

/-! ### One of four buffers -/

@[simp] theorem PerBuf.get_set_self {α : Type} (p : PerBuf α) (k : Buf) (v : α) : (p.set k v).get k = v := by
  cases k <;> rfl

theorem PerBuf.get_set_ne {α : Type} (p : PerBuf α) {k j : Buf} (v : α) (h : j ≠ k) : (p.set k v).get j = p.get j := by
  cases k <;> cases j <;> first | rfl | exact absurd rfl h

theorem PerBuf.get_set {α : Type} (p : PerBuf α) (k j : Buf) (v : α) :
    (p.set k v).get j = if j = k then v else p.get j := by
  split
  · next h => subst h; simp
  · next h => exact p.get_set_ne v h

theorem PerBuf.ext_get {α : Type} {p q : PerBuf α} (h : ∀ k, p.get k = q.get k) : p = q := by
  obtain ⟨a, b, c, d⟩ := p
  obtain ⟨a', b', c', d'⟩ := q
  have h0 := h .b0; have h1 := h .b1; have h2 := h .b2; have h3 := h .b3
  simp only [PerBuf.get] at h0 h1 h2 h3
  rw [h0, h1, h2, h3]

/-! ### Bit strings -/

/-- Bit `j` of the number of a bit string is its element `j`, 0 past its end. -/
theorem testBit_bitsNat (bs : List Bool) (j : Nat) : (bitsNat bs).testBit j = bs.getD j false := by
  induction bs generalizing j with
  | nil => simp [bitsNat]
  | cons b bs ih =>
    rw [bitsNat]
    cases j with
    | zero => cases b <;> simp [Nat.testBit_zero]
    | succ j =>
      rw [Nat.testBit_succ]
      have : (b.toNat + 2 * bitsNat bs) / 2 = bitsNat bs := by cases b <;> (simp; try omega)
      rw [this, ih]; simp

/-- Bit `j` of a bit string held in a word of `n` bits. -/
theorem getLsbD_ofNat_bitsNat (n : Nat) (bs : List Bool) (j : Nat) :
    (BitVec.ofNat n (bitsNat bs)).getLsbD j = (decide (j < n) && bs.getD j false) := by
  rw [BitVec.getLsbD_ofNat, testBit_bitsNat]

/-! ### Tables -/

@[simp] theorem getElem_tabulate {α : Type} (n : Nat) (f : Nat → α) (i : Nat) (h : i < n) : (tabulate n f)[i] = f i := by
  simp [tabulate]

@[simp] theorem toList_tabulate {α : Type} (n : Nat) (f : Nat → α) :
    (tabulate n f).toList = (List.range n).map f := by
  simp [tabulate]

/-! ### How a command ends -/

/-- A commit answers a next state, the written state with its completion marks (R202). -/
@[simp] theorem commit_eq (s : State) : commit s = .next (s.complete .ok) := rfl

/-- A failure answers a next state, the unwritten state with its completion marks (R202, R212). -/
@[simp] theorem failWith_eq (e : ErrCode) (s : State) : failWith e s = .next (s.complete e) := rfl

@[simp] theorem settle_ok (s t : State) : settle s (.ok t) = .next (t.complete .ok) := rfl

@[simp] theorem settle_code (s : State) (e : ErrCode) : settle s (.error (.code e)) = .next (s.complete e) := rfl

@[simp] theorem settle_malformed (s : State) : settle s (.error .malformed) = .fault .malformedArena := rfl

/-- Everything `settle` can answer with a next state. -/
theorem settle_next {s t : State} {r : Except Halt State} (h : settle s r = .next t) :
    (∃ u, r = .ok u ∧ t = u.complete .ok) ∨ ∃ e, r = .error (.code e) ∧ t = s.complete e := by
  match r, h with
  | .ok u, h => exact .inl ⟨u, rfl, by simpa using h.symm⟩
  | .error (.code e), h => exact .inr ⟨e, rfl, by simpa using h.symm⟩
  | .error .malformed, h => simp at h

end Sys2Proof.Machine
end

