-- ==== Sys2Proof/Laws/State.lean ====
section
/-! SUPPORT. One lemma per field per update of State, true by rfl, so that no proof unfolds a record update; and the fields of
the reset state. -/

namespace Sys2Proof.Machine

variable (s : State)

/-! ### accept -/

@[simp] theorem State.accept_bufCap (c : Word) : (s.accept c).bufCap = s.bufCap := rfl
@[simp] theorem State.accept_phase (c : Word) : (s.accept c).phase = .busy c := rfl
@[simp] theorem State.accept_cmd (c : Word) : (s.accept c).cmd = c := rfl
@[simp] theorem State.accept_done (c : Word) : (s.accept c).done = false := rfl
@[simp] theorem State.accept_ovr (c : Word) : (s.accept c).ovr = s.ovr := rfl
@[simp] theorem State.accept_err (c : Word) : (s.accept c).err = .ok := rfl
@[simp] theorem State.accept_irqEn (c : Word) : (s.accept c).irqEn = s.irqEn := rfl
@[simp] theorem State.accept_len (c : Word) : (s.accept c).len = s.len := rfl
@[simp] theorem State.accept_bitLen (c : Word) : (s.accept c).bitLen = s.bitLen := rfl
@[simp] theorem State.accept_origIndex (c : Word) : (s.accept c).origIndex = s.origIndex := rfl
@[simp] theorem State.accept_alphaLen (c : Word) : (s.accept c).alphaLen = s.alphaLen := rfl
@[simp] theorem State.accept_runLen (c : Word) : (s.accept c).runLen = s.runLen := rfl
@[simp] theorem State.accept_nodeCount (c : Word) : (s.accept c).nodeCount = s.nodeCount := rfl
@[simp] theorem State.accept_root (c : Word) : (s.accept c).root = s.root := rfl
@[simp] theorem State.accept_freq (c : Word) : (s.accept c).freq = s.freq := rfl
@[simp] theorem State.accept_code (c : Word) : (s.accept c).code = s.code := rfl
@[simp] theorem State.accept_mem (c : Word) : (s.accept c).mem = s.mem := rfl
@[simp] theorem State.accept_agenda (c : Word) : (s.accept c).agenda = s.agenda := rfl
@[simp] theorem State.accept_resp (c : Word) : (s.accept c).resp = s.resp := rfl
@[simp] theorem State.accept_draws (c : Word) : (s.accept c).draws = s.draws := rfl

/-! ### complete -/

@[simp] theorem State.complete_bufCap (e : ErrCode) : (s.complete e).bufCap = s.bufCap := rfl
@[simp] theorem State.complete_phase (e : ErrCode) : (s.complete e).phase = .idle := rfl
@[simp] theorem State.complete_cmd (e : ErrCode) : (s.complete e).cmd = s.cmd := rfl
@[simp] theorem State.complete_done (e : ErrCode) : (s.complete e).done = true := rfl
@[simp] theorem State.complete_ovr (e : ErrCode) : (s.complete e).ovr = s.ovr := rfl
@[simp] theorem State.complete_err (e : ErrCode) : (s.complete e).err = e := rfl
@[simp] theorem State.complete_irqEn (e : ErrCode) : (s.complete e).irqEn = s.irqEn := rfl
@[simp] theorem State.complete_len (e : ErrCode) : (s.complete e).len = s.len := rfl
@[simp] theorem State.complete_bitLen (e : ErrCode) : (s.complete e).bitLen = s.bitLen := rfl
@[simp] theorem State.complete_origIndex (e : ErrCode) : (s.complete e).origIndex = s.origIndex := rfl
@[simp] theorem State.complete_alphaLen (e : ErrCode) : (s.complete e).alphaLen = s.alphaLen := rfl
@[simp] theorem State.complete_runLen (e : ErrCode) : (s.complete e).runLen = s.runLen := rfl
@[simp] theorem State.complete_nodeCount (e : ErrCode) : (s.complete e).nodeCount = s.nodeCount := rfl
@[simp] theorem State.complete_root (e : ErrCode) : (s.complete e).root = s.root := rfl
@[simp] theorem State.complete_freq (e : ErrCode) : (s.complete e).freq = s.freq := rfl
@[simp] theorem State.complete_code (e : ErrCode) : (s.complete e).code = s.code := rfl
@[simp] theorem State.complete_mem (e : ErrCode) : (s.complete e).mem = s.mem := rfl
@[simp] theorem State.complete_agenda (e : ErrCode) : (s.complete e).agenda = s.agenda := rfl
@[simp] theorem State.complete_resp (e : ErrCode) : (s.complete e).resp = s.resp := rfl
@[simp] theorem State.complete_draws (e : ErrCode) : (s.complete e).draws = s.draws + 1 := rfl

/-! ### putBlock -/

@[simp] theorem State.putBlock_bufCap (k : Buf) (xs : List Byte) : (s.putBlock k xs).bufCap = s.bufCap := rfl
@[simp] theorem State.putBlock_phase (k : Buf) (xs : List Byte) : (s.putBlock k xs).phase = s.phase := rfl
@[simp] theorem State.putBlock_cmd (k : Buf) (xs : List Byte) : (s.putBlock k xs).cmd = s.cmd := rfl
@[simp] theorem State.putBlock_done (k : Buf) (xs : List Byte) : (s.putBlock k xs).done = s.done := rfl
@[simp] theorem State.putBlock_ovr (k : Buf) (xs : List Byte) : (s.putBlock k xs).ovr = s.ovr := rfl
@[simp] theorem State.putBlock_err (k : Buf) (xs : List Byte) : (s.putBlock k xs).err = s.err := rfl
@[simp] theorem State.putBlock_irqEn (k : Buf) (xs : List Byte) : (s.putBlock k xs).irqEn = s.irqEn := rfl
@[simp] theorem State.putBlock_len (k : Buf) (xs : List Byte) :
    (s.putBlock k xs).len = s.len.set k (BitVec.ofNat 32 xs.length) := rfl
@[simp] theorem State.putBlock_bitLen (k : Buf) (xs : List Byte) : (s.putBlock k xs).bitLen = s.bitLen := rfl
@[simp] theorem State.putBlock_origIndex (k : Buf) (xs : List Byte) : (s.putBlock k xs).origIndex = s.origIndex := rfl
@[simp] theorem State.putBlock_alphaLen (k : Buf) (xs : List Byte) : (s.putBlock k xs).alphaLen = s.alphaLen := rfl
@[simp] theorem State.putBlock_runLen (k : Buf) (xs : List Byte) : (s.putBlock k xs).runLen = s.runLen := rfl
@[simp] theorem State.putBlock_nodeCount (k : Buf) (xs : List Byte) : (s.putBlock k xs).nodeCount = s.nodeCount := rfl
@[simp] theorem State.putBlock_root (k : Buf) (xs : List Byte) : (s.putBlock k xs).root = s.root := rfl
@[simp] theorem State.putBlock_freq (k : Buf) (xs : List Byte) : (s.putBlock k xs).freq = s.freq := rfl
@[simp] theorem State.putBlock_code (k : Buf) (xs : List Byte) : (s.putBlock k xs).code = s.code := rfl
@[simp] theorem State.putBlock_mem (k : Buf) (xs : List Byte) :
    (s.putBlock k xs).mem = { s.mem with buf := s.mem.buf.set k (Store.put xs (s.mem.buf.get k)) } := rfl
@[simp] theorem State.putBlock_agenda (k : Buf) (xs : List Byte) : (s.putBlock k xs).agenda = s.agenda := rfl
@[simp] theorem State.putBlock_resp (k : Buf) (xs : List Byte) : (s.putBlock k xs).resp = s.resp := rfl
@[simp] theorem State.putBlock_draws (k : Buf) (xs : List Byte) : (s.putBlock k xs).draws = s.draws := rfl

/-! ### putBits -/

@[simp] theorem State.putBits_bufCap (bs : List Bool) : (s.putBits bs).bufCap = s.bufCap := rfl
@[simp] theorem State.putBits_phase (bs : List Bool) : (s.putBits bs).phase = s.phase := rfl
@[simp] theorem State.putBits_cmd (bs : List Bool) : (s.putBits bs).cmd = s.cmd := rfl
@[simp] theorem State.putBits_done (bs : List Bool) : (s.putBits bs).done = s.done := rfl
@[simp] theorem State.putBits_ovr (bs : List Bool) : (s.putBits bs).ovr = s.ovr := rfl
@[simp] theorem State.putBits_err (bs : List Bool) : (s.putBits bs).err = s.err := rfl
@[simp] theorem State.putBits_irqEn (bs : List Bool) : (s.putBits bs).irqEn = s.irqEn := rfl
@[simp] theorem State.putBits_len (bs : List Bool) : (s.putBits bs).len = s.len := rfl
@[simp] theorem State.putBits_bitLen (bs : List Bool) : (s.putBits bs).bitLen = s.bitLen := rfl
@[simp] theorem State.putBits_origIndex (bs : List Bool) : (s.putBits bs).origIndex = s.origIndex := rfl
@[simp] theorem State.putBits_alphaLen (bs : List Bool) : (s.putBits bs).alphaLen = s.alphaLen := rfl
@[simp] theorem State.putBits_runLen (bs : List Bool) : (s.putBits bs).runLen = s.runLen := rfl
@[simp] theorem State.putBits_nodeCount (bs : List Bool) : (s.putBits bs).nodeCount = s.nodeCount := rfl
@[simp] theorem State.putBits_root (bs : List Bool) : (s.putBits bs).root = s.root := rfl
@[simp] theorem State.putBits_freq (bs : List Bool) : (s.putBits bs).freq = s.freq := rfl
@[simp] theorem State.putBits_code (bs : List Bool) : (s.putBits bs).code = s.code := rfl
@[simp] theorem State.putBits_mem (bs : List Bool) :
    (s.putBits bs).mem = { s.mem with bit := Store.put bs s.mem.bit } := rfl
@[simp] theorem State.putBits_agenda (bs : List Bool) : (s.putBits bs).agenda = s.agenda := rfl
@[simp] theorem State.putBits_resp (bs : List Bool) : (s.putBits bs).resp = s.resp := rfl
@[simp] theorem State.putBits_draws (bs : List Bool) : (s.putBits bs).draws = s.draws := rfl

/-! ### putBitLen -/

@[simp] theorem State.putBitLen_bufCap (n : Nat) : (s.putBitLen n).bufCap = s.bufCap := rfl
@[simp] theorem State.putBitLen_phase (n : Nat) : (s.putBitLen n).phase = s.phase := rfl
@[simp] theorem State.putBitLen_cmd (n : Nat) : (s.putBitLen n).cmd = s.cmd := rfl
@[simp] theorem State.putBitLen_done (n : Nat) : (s.putBitLen n).done = s.done := rfl
@[simp] theorem State.putBitLen_ovr (n : Nat) : (s.putBitLen n).ovr = s.ovr := rfl
@[simp] theorem State.putBitLen_err (n : Nat) : (s.putBitLen n).err = s.err := rfl
@[simp] theorem State.putBitLen_irqEn (n : Nat) : (s.putBitLen n).irqEn = s.irqEn := rfl
@[simp] theorem State.putBitLen_len (n : Nat) : (s.putBitLen n).len = s.len := rfl
@[simp] theorem State.putBitLen_bitLen (n : Nat) : (s.putBitLen n).bitLen = BitVec.ofNat 32 n := rfl
@[simp] theorem State.putBitLen_origIndex (n : Nat) : (s.putBitLen n).origIndex = s.origIndex := rfl
@[simp] theorem State.putBitLen_alphaLen (n : Nat) : (s.putBitLen n).alphaLen = s.alphaLen := rfl
@[simp] theorem State.putBitLen_runLen (n : Nat) : (s.putBitLen n).runLen = s.runLen := rfl
@[simp] theorem State.putBitLen_nodeCount (n : Nat) : (s.putBitLen n).nodeCount = s.nodeCount := rfl
@[simp] theorem State.putBitLen_root (n : Nat) : (s.putBitLen n).root = s.root := rfl
@[simp] theorem State.putBitLen_freq (n : Nat) : (s.putBitLen n).freq = s.freq := rfl
@[simp] theorem State.putBitLen_code (n : Nat) : (s.putBitLen n).code = s.code := rfl
@[simp] theorem State.putBitLen_mem (n : Nat) : (s.putBitLen n).mem = s.mem := rfl
@[simp] theorem State.putBitLen_agenda (n : Nat) : (s.putBitLen n).agenda = s.agenda := rfl
@[simp] theorem State.putBitLen_resp (n : Nat) : (s.putBitLen n).resp = s.resp := rfl
@[simp] theorem State.putBitLen_draws (n : Nat) : (s.putBitLen n).draws = s.draws := rfl

/-! ### putRuns -/

@[simp] theorem State.putRuns_bufCap (rs : List Run) : (s.putRuns rs).bufCap = s.bufCap := rfl
@[simp] theorem State.putRuns_phase (rs : List Run) : (s.putRuns rs).phase = s.phase := rfl
@[simp] theorem State.putRuns_cmd (rs : List Run) : (s.putRuns rs).cmd = s.cmd := rfl
@[simp] theorem State.putRuns_done (rs : List Run) : (s.putRuns rs).done = s.done := rfl
@[simp] theorem State.putRuns_ovr (rs : List Run) : (s.putRuns rs).ovr = s.ovr := rfl
@[simp] theorem State.putRuns_err (rs : List Run) : (s.putRuns rs).err = s.err := rfl
@[simp] theorem State.putRuns_irqEn (rs : List Run) : (s.putRuns rs).irqEn = s.irqEn := rfl
@[simp] theorem State.putRuns_len (rs : List Run) : (s.putRuns rs).len = s.len := rfl
@[simp] theorem State.putRuns_bitLen (rs : List Run) : (s.putRuns rs).bitLen = s.bitLen := rfl
@[simp] theorem State.putRuns_origIndex (rs : List Run) : (s.putRuns rs).origIndex = s.origIndex := rfl
@[simp] theorem State.putRuns_alphaLen (rs : List Run) : (s.putRuns rs).alphaLen = s.alphaLen := rfl
@[simp] theorem State.putRuns_runLen (rs : List Run) : (s.putRuns rs).runLen = BitVec.ofNat 32 rs.length := rfl
@[simp] theorem State.putRuns_nodeCount (rs : List Run) : (s.putRuns rs).nodeCount = s.nodeCount := rfl
@[simp] theorem State.putRuns_root (rs : List Run) : (s.putRuns rs).root = s.root := rfl
@[simp] theorem State.putRuns_freq (rs : List Run) : (s.putRuns rs).freq = s.freq := rfl
@[simp] theorem State.putRuns_code (rs : List Run) : (s.putRuns rs).code = s.code := rfl
@[simp] theorem State.putRuns_mem (rs : List Run) :
    (s.putRuns rs).mem = { s.mem with run := Store.put rs s.mem.run } := rfl
@[simp] theorem State.putRuns_agenda (rs : List Run) : (s.putRuns rs).agenda = s.agenda := rfl
@[simp] theorem State.putRuns_resp (rs : List Run) : (s.putRuns rs).resp = s.resp := rfl
@[simp] theorem State.putRuns_draws (rs : List Run) : (s.putRuns rs).draws = s.draws := rfl

/-! ### putAlphabet -/

@[simp] theorem State.putAlphabet_bufCap (a : List Byte) : (s.putAlphabet a).bufCap = s.bufCap := rfl
@[simp] theorem State.putAlphabet_phase (a : List Byte) : (s.putAlphabet a).phase = s.phase := rfl
@[simp] theorem State.putAlphabet_cmd (a : List Byte) : (s.putAlphabet a).cmd = s.cmd := rfl
@[simp] theorem State.putAlphabet_done (a : List Byte) : (s.putAlphabet a).done = s.done := rfl
@[simp] theorem State.putAlphabet_ovr (a : List Byte) : (s.putAlphabet a).ovr = s.ovr := rfl
@[simp] theorem State.putAlphabet_err (a : List Byte) : (s.putAlphabet a).err = s.err := rfl
@[simp] theorem State.putAlphabet_irqEn (a : List Byte) : (s.putAlphabet a).irqEn = s.irqEn := rfl
@[simp] theorem State.putAlphabet_len (a : List Byte) : (s.putAlphabet a).len = s.len := rfl
@[simp] theorem State.putAlphabet_bitLen (a : List Byte) : (s.putAlphabet a).bitLen = s.bitLen := rfl
@[simp] theorem State.putAlphabet_origIndex (a : List Byte) : (s.putAlphabet a).origIndex = s.origIndex := rfl
@[simp] theorem State.putAlphabet_alphaLen (a : List Byte) :
    (s.putAlphabet a).alphaLen = BitVec.ofNat 32 a.length := rfl
@[simp] theorem State.putAlphabet_runLen (a : List Byte) : (s.putAlphabet a).runLen = s.runLen := rfl
@[simp] theorem State.putAlphabet_nodeCount (a : List Byte) : (s.putAlphabet a).nodeCount = s.nodeCount := rfl
@[simp] theorem State.putAlphabet_root (a : List Byte) : (s.putAlphabet a).root = s.root := rfl
@[simp] theorem State.putAlphabet_freq (a : List Byte) : (s.putAlphabet a).freq = s.freq := rfl
@[simp] theorem State.putAlphabet_code (a : List Byte) : (s.putAlphabet a).code = s.code := rfl
@[simp] theorem State.putAlphabet_mem (a : List Byte) :
    (s.putAlphabet a).mem = { s.mem with alpha := Store.put a s.mem.alpha } := rfl
@[simp] theorem State.putAlphabet_agenda (a : List Byte) : (s.putAlphabet a).agenda = s.agenda := rfl
@[simp] theorem State.putAlphabet_resp (a : List Byte) : (s.putAlphabet a).resp = s.resp := rfl
@[simp] theorem State.putAlphabet_draws (a : List Byte) : (s.putAlphabet a).draws = s.draws := rfl

/-! ### putOrigIndex -/

@[simp] theorem State.putOrigIndex_bufCap (i : Nat) : (s.putOrigIndex i).bufCap = s.bufCap := rfl
@[simp] theorem State.putOrigIndex_phase (i : Nat) : (s.putOrigIndex i).phase = s.phase := rfl
@[simp] theorem State.putOrigIndex_cmd (i : Nat) : (s.putOrigIndex i).cmd = s.cmd := rfl
@[simp] theorem State.putOrigIndex_done (i : Nat) : (s.putOrigIndex i).done = s.done := rfl
@[simp] theorem State.putOrigIndex_ovr (i : Nat) : (s.putOrigIndex i).ovr = s.ovr := rfl
@[simp] theorem State.putOrigIndex_err (i : Nat) : (s.putOrigIndex i).err = s.err := rfl
@[simp] theorem State.putOrigIndex_irqEn (i : Nat) : (s.putOrigIndex i).irqEn = s.irqEn := rfl
@[simp] theorem State.putOrigIndex_len (i : Nat) : (s.putOrigIndex i).len = s.len := rfl
@[simp] theorem State.putOrigIndex_bitLen (i : Nat) : (s.putOrigIndex i).bitLen = s.bitLen := rfl
@[simp] theorem State.putOrigIndex_origIndex (i : Nat) : (s.putOrigIndex i).origIndex = BitVec.ofNat 32 i := rfl
@[simp] theorem State.putOrigIndex_alphaLen (i : Nat) : (s.putOrigIndex i).alphaLen = s.alphaLen := rfl
@[simp] theorem State.putOrigIndex_runLen (i : Nat) : (s.putOrigIndex i).runLen = s.runLen := rfl
@[simp] theorem State.putOrigIndex_nodeCount (i : Nat) : (s.putOrigIndex i).nodeCount = s.nodeCount := rfl
@[simp] theorem State.putOrigIndex_root (i : Nat) : (s.putOrigIndex i).root = s.root := rfl
@[simp] theorem State.putOrigIndex_freq (i : Nat) : (s.putOrigIndex i).freq = s.freq := rfl
@[simp] theorem State.putOrigIndex_code (i : Nat) : (s.putOrigIndex i).code = s.code := rfl
@[simp] theorem State.putOrigIndex_mem (i : Nat) : (s.putOrigIndex i).mem = s.mem := rfl
@[simp] theorem State.putOrigIndex_agenda (i : Nat) : (s.putOrigIndex i).agenda = s.agenda := rfl
@[simp] theorem State.putOrigIndex_resp (i : Nat) : (s.putOrigIndex i).resp = s.resp := rfl
@[simp] theorem State.putOrigIndex_draws (i : Nat) : (s.putOrigIndex i).draws = s.draws := rfl

/-! ### putFreq -/

@[simp] theorem State.putFreq_bufCap (f : Nat → Nat) : (s.putFreq f).bufCap = s.bufCap := rfl
@[simp] theorem State.putFreq_phase (f : Nat → Nat) : (s.putFreq f).phase = s.phase := rfl
@[simp] theorem State.putFreq_cmd (f : Nat → Nat) : (s.putFreq f).cmd = s.cmd := rfl
@[simp] theorem State.putFreq_done (f : Nat → Nat) : (s.putFreq f).done = s.done := rfl
@[simp] theorem State.putFreq_ovr (f : Nat → Nat) : (s.putFreq f).ovr = s.ovr := rfl
@[simp] theorem State.putFreq_err (f : Nat → Nat) : (s.putFreq f).err = s.err := rfl
@[simp] theorem State.putFreq_irqEn (f : Nat → Nat) : (s.putFreq f).irqEn = s.irqEn := rfl
@[simp] theorem State.putFreq_len (f : Nat → Nat) : (s.putFreq f).len = s.len := rfl
@[simp] theorem State.putFreq_bitLen (f : Nat → Nat) : (s.putFreq f).bitLen = s.bitLen := rfl
@[simp] theorem State.putFreq_origIndex (f : Nat → Nat) : (s.putFreq f).origIndex = s.origIndex := rfl
@[simp] theorem State.putFreq_alphaLen (f : Nat → Nat) : (s.putFreq f).alphaLen = s.alphaLen := rfl
@[simp] theorem State.putFreq_runLen (f : Nat → Nat) : (s.putFreq f).runLen = s.runLen := rfl
@[simp] theorem State.putFreq_nodeCount (f : Nat → Nat) : (s.putFreq f).nodeCount = s.nodeCount := rfl
@[simp] theorem State.putFreq_root (f : Nat → Nat) : (s.putFreq f).root = s.root := rfl
@[simp] theorem State.putFreq_freq (f : Nat → Nat) :
    (s.putFreq f).freq = tabulate 256 fun v => BitVec.ofNat 32 (f v) := rfl
@[simp] theorem State.putFreq_code (f : Nat → Nat) : (s.putFreq f).code = s.code := rfl
@[simp] theorem State.putFreq_mem (f : Nat → Nat) : (s.putFreq f).mem = s.mem := rfl
@[simp] theorem State.putFreq_agenda (f : Nat → Nat) : (s.putFreq f).agenda = s.agenda := rfl
@[simp] theorem State.putFreq_resp (f : Nat → Nat) : (s.putFreq f).resp = s.resp := rfl
@[simp] theorem State.putFreq_draws (f : Nat → Nat) : (s.putFreq f).draws = s.draws := rfl

/-! ### putCode -/

@[simp] theorem State.putCode_bufCap (c : Nat → List Bool) : (s.putCode c).bufCap = s.bufCap := rfl
@[simp] theorem State.putCode_phase (c : Nat → List Bool) : (s.putCode c).phase = s.phase := rfl
@[simp] theorem State.putCode_cmd (c : Nat → List Bool) : (s.putCode c).cmd = s.cmd := rfl
@[simp] theorem State.putCode_done (c : Nat → List Bool) : (s.putCode c).done = s.done := rfl
@[simp] theorem State.putCode_ovr (c : Nat → List Bool) : (s.putCode c).ovr = s.ovr := rfl
@[simp] theorem State.putCode_err (c : Nat → List Bool) : (s.putCode c).err = s.err := rfl
@[simp] theorem State.putCode_irqEn (c : Nat → List Bool) : (s.putCode c).irqEn = s.irqEn := rfl
@[simp] theorem State.putCode_len (c : Nat → List Bool) : (s.putCode c).len = s.len := rfl
@[simp] theorem State.putCode_bitLen (c : Nat → List Bool) : (s.putCode c).bitLen = s.bitLen := rfl
@[simp] theorem State.putCode_origIndex (c : Nat → List Bool) : (s.putCode c).origIndex = s.origIndex := rfl
@[simp] theorem State.putCode_alphaLen (c : Nat → List Bool) : (s.putCode c).alphaLen = s.alphaLen := rfl
@[simp] theorem State.putCode_runLen (c : Nat → List Bool) : (s.putCode c).runLen = s.runLen := rfl
@[simp] theorem State.putCode_nodeCount (c : Nat → List Bool) : (s.putCode c).nodeCount = s.nodeCount := rfl
@[simp] theorem State.putCode_root (c : Nat → List Bool) : (s.putCode c).root = s.root := rfl
@[simp] theorem State.putCode_freq (c : Nat → List Bool) : (s.putCode c).freq = s.freq := rfl
@[simp] theorem State.putCode_code (c : Nat → List Bool) :
    (s.putCode c).code = tabulate 256 fun v => CodeEntry.ofBits (c v) := rfl
@[simp] theorem State.putCode_mem (c : Nat → List Bool) : (s.putCode c).mem = s.mem := rfl
@[simp] theorem State.putCode_agenda (c : Nat → List Bool) : (s.putCode c).agenda = s.agenda := rfl
@[simp] theorem State.putCode_resp (c : Nat → List Bool) : (s.putCode c).resp = s.resp := rfl
@[simp] theorem State.putCode_draws (c : Nat → List Bool) : (s.putCode c).draws = s.draws := rfl

/-! ### putArena -/

@[simp] theorem State.putArena_bufCap (ns : List ProtoNode) (r : Nat) : (s.putArena ns r).bufCap = s.bufCap := rfl
@[simp] theorem State.putArena_phase (ns : List ProtoNode) (r : Nat) : (s.putArena ns r).phase = s.phase := rfl
@[simp] theorem State.putArena_cmd (ns : List ProtoNode) (r : Nat) : (s.putArena ns r).cmd = s.cmd := rfl
@[simp] theorem State.putArena_done (ns : List ProtoNode) (r : Nat) : (s.putArena ns r).done = s.done := rfl
@[simp] theorem State.putArena_ovr (ns : List ProtoNode) (r : Nat) : (s.putArena ns r).ovr = s.ovr := rfl
@[simp] theorem State.putArena_err (ns : List ProtoNode) (r : Nat) : (s.putArena ns r).err = s.err := rfl
@[simp] theorem State.putArena_irqEn (ns : List ProtoNode) (r : Nat) : (s.putArena ns r).irqEn = s.irqEn := rfl
@[simp] theorem State.putArena_len (ns : List ProtoNode) (r : Nat) : (s.putArena ns r).len = s.len := rfl
@[simp] theorem State.putArena_bitLen (ns : List ProtoNode) (r : Nat) : (s.putArena ns r).bitLen = s.bitLen := rfl
@[simp] theorem State.putArena_origIndex (ns : List ProtoNode) (r : Nat) :
    (s.putArena ns r).origIndex = s.origIndex := rfl
@[simp] theorem State.putArena_alphaLen (ns : List ProtoNode) (r : Nat) :
    (s.putArena ns r).alphaLen = s.alphaLen := rfl
@[simp] theorem State.putArena_runLen (ns : List ProtoNode) (r : Nat) : (s.putArena ns r).runLen = s.runLen := rfl
@[simp] theorem State.putArena_nodeCount (ns : List ProtoNode) (r : Nat) :
    (s.putArena ns r).nodeCount = BitVec.ofNat 10 ns.length := rfl
@[simp] theorem State.putArena_root (ns : List ProtoNode) (r : Nat) : (s.putArena ns r).root = BitVec.ofNat 9 r := rfl
@[simp] theorem State.putArena_freq (ns : List ProtoNode) (r : Nat) : (s.putArena ns r).freq = s.freq := rfl
@[simp] theorem State.putArena_code (ns : List ProtoNode) (r : Nat) : (s.putArena ns r).code = s.code := rfl
@[simp] theorem State.putArena_mem (ns : List ProtoNode) (r : Nat) :
    (s.putArena ns r).mem = { s.mem with node := Store.put (ns.map ProtoNode.toNode) s.mem.node } := rfl
@[simp] theorem State.putArena_agenda (ns : List ProtoNode) (r : Nat) : (s.putArena ns r).agenda = s.agenda := rfl
@[simp] theorem State.putArena_resp (ns : List ProtoNode) (r : Nat) : (s.putArena ns r).resp = s.resp := rfl
@[simp] theorem State.putArena_draws (ns : List ProtoNode) (r : Nat) : (s.putArena ns r).draws = s.draws := rfl

/-! ### writeStatus -/

@[simp] theorem State.writeStatus_bufCap (v : Word) : (s.writeStatus v).bufCap = s.bufCap := rfl
@[simp] theorem State.writeStatus_phase (v : Word) : (s.writeStatus v).phase = s.phase := rfl
@[simp] theorem State.writeStatus_cmd (v : Word) : (s.writeStatus v).cmd = s.cmd := rfl
@[simp] theorem State.writeStatus_done (v : Word) : (s.writeStatus v).done = (s.done && !v.getLsbD 1) := rfl
@[simp] theorem State.writeStatus_ovr (v : Word) : (s.writeStatus v).ovr = (s.ovr && !v.getLsbD 2) := rfl
@[simp] theorem State.writeStatus_err (v : Word) : (s.writeStatus v).err = s.err := rfl
@[simp] theorem State.writeStatus_irqEn (v : Word) : (s.writeStatus v).irqEn = s.irqEn := rfl
@[simp] theorem State.writeStatus_len (v : Word) : (s.writeStatus v).len = s.len := rfl
@[simp] theorem State.writeStatus_bitLen (v : Word) : (s.writeStatus v).bitLen = s.bitLen := rfl
@[simp] theorem State.writeStatus_origIndex (v : Word) : (s.writeStatus v).origIndex = s.origIndex := rfl
@[simp] theorem State.writeStatus_alphaLen (v : Word) : (s.writeStatus v).alphaLen = s.alphaLen := rfl
@[simp] theorem State.writeStatus_runLen (v : Word) : (s.writeStatus v).runLen = s.runLen := rfl
@[simp] theorem State.writeStatus_nodeCount (v : Word) : (s.writeStatus v).nodeCount = s.nodeCount := rfl
@[simp] theorem State.writeStatus_root (v : Word) : (s.writeStatus v).root = s.root := rfl
@[simp] theorem State.writeStatus_freq (v : Word) : (s.writeStatus v).freq = s.freq := rfl
@[simp] theorem State.writeStatus_code (v : Word) : (s.writeStatus v).code = s.code := rfl
@[simp] theorem State.writeStatus_mem (v : Word) : (s.writeStatus v).mem = s.mem := rfl
@[simp] theorem State.writeStatus_agenda (v : Word) : (s.writeStatus v).agenda = s.agenda := rfl
@[simp] theorem State.writeStatus_resp (v : Word) : (s.writeStatus v).resp = s.resp := rfl
@[simp] theorem State.writeStatus_draws (v : Word) : (s.writeStatus v).draws = s.draws := rfl

/-! ### writeCtrl -/

@[simp] theorem State.writeCtrl_bufCap (v : Word) : (s.writeCtrl v).bufCap = s.bufCap := rfl
@[simp] theorem State.writeCtrl_phase (v : Word) : (s.writeCtrl v).phase = s.phase := rfl
@[simp] theorem State.writeCtrl_cmd (v : Word) : (s.writeCtrl v).cmd = s.cmd := rfl
@[simp] theorem State.writeCtrl_done (v : Word) : (s.writeCtrl v).done = s.done := rfl
@[simp] theorem State.writeCtrl_ovr (v : Word) : (s.writeCtrl v).ovr = s.ovr := rfl
@[simp] theorem State.writeCtrl_err (v : Word) : (s.writeCtrl v).err = s.err := rfl
@[simp] theorem State.writeCtrl_irqEn (v : Word) : (s.writeCtrl v).irqEn = v.getLsbD 0 := rfl
@[simp] theorem State.writeCtrl_len (v : Word) : (s.writeCtrl v).len = s.len := rfl
@[simp] theorem State.writeCtrl_bitLen (v : Word) : (s.writeCtrl v).bitLen = s.bitLen := rfl
@[simp] theorem State.writeCtrl_origIndex (v : Word) : (s.writeCtrl v).origIndex = s.origIndex := rfl
@[simp] theorem State.writeCtrl_alphaLen (v : Word) : (s.writeCtrl v).alphaLen = s.alphaLen := rfl
@[simp] theorem State.writeCtrl_runLen (v : Word) : (s.writeCtrl v).runLen = s.runLen := rfl
@[simp] theorem State.writeCtrl_nodeCount (v : Word) : (s.writeCtrl v).nodeCount = s.nodeCount := rfl
@[simp] theorem State.writeCtrl_root (v : Word) : (s.writeCtrl v).root = s.root := rfl
@[simp] theorem State.writeCtrl_freq (v : Word) : (s.writeCtrl v).freq = s.freq := rfl
@[simp] theorem State.writeCtrl_code (v : Word) : (s.writeCtrl v).code = s.code := rfl
@[simp] theorem State.writeCtrl_mem (v : Word) : (s.writeCtrl v).mem = s.mem := rfl
@[simp] theorem State.writeCtrl_agenda (v : Word) : (s.writeCtrl v).agenda = s.agenda := rfl
@[simp] theorem State.writeCtrl_resp (v : Word) : (s.writeCtrl v).resp = s.resp := rfl
@[simp] theorem State.writeCtrl_draws (v : Word) : (s.writeCtrl v).draws = s.draws := rfl

/-! ### withCommand -/

@[simp] theorem State.withCommand_bufCap (c : Word) : (s.withCommand c).bufCap = s.bufCap := rfl
@[simp] theorem State.withCommand_phase (c : Word) : (s.withCommand c).phase = .busy c := rfl
@[simp] theorem State.withCommand_cmd (c : Word) : (s.withCommand c).cmd = c := rfl
@[simp] theorem State.withCommand_done (c : Word) : (s.withCommand c).done = false := rfl
@[simp] theorem State.withCommand_ovr (c : Word) : (s.withCommand c).ovr = s.ovr := rfl
@[simp] theorem State.withCommand_err (c : Word) : (s.withCommand c).err = .ok := rfl
@[simp] theorem State.withCommand_irqEn (c : Word) : (s.withCommand c).irqEn = s.irqEn := rfl
@[simp] theorem State.withCommand_len (c : Word) : (s.withCommand c).len = s.len := rfl
@[simp] theorem State.withCommand_bitLen (c : Word) : (s.withCommand c).bitLen = s.bitLen := rfl
@[simp] theorem State.withCommand_origIndex (c : Word) : (s.withCommand c).origIndex = s.origIndex := rfl
@[simp] theorem State.withCommand_alphaLen (c : Word) : (s.withCommand c).alphaLen = s.alphaLen := rfl
@[simp] theorem State.withCommand_runLen (c : Word) : (s.withCommand c).runLen = s.runLen := rfl
@[simp] theorem State.withCommand_nodeCount (c : Word) : (s.withCommand c).nodeCount = s.nodeCount := rfl
@[simp] theorem State.withCommand_root (c : Word) : (s.withCommand c).root = s.root := rfl
@[simp] theorem State.withCommand_freq (c : Word) : (s.withCommand c).freq = s.freq := rfl
@[simp] theorem State.withCommand_code (c : Word) : (s.withCommand c).code = s.code := rfl
@[simp] theorem State.withCommand_mem (c : Word) : (s.withCommand c).mem = s.mem := rfl
@[simp] theorem State.withCommand_agenda (c : Word) : (s.withCommand c).agenda = .core :: s.agenda := rfl
@[simp] theorem State.withCommand_resp (c : Word) : (s.withCommand c).resp = s.resp := rfl
@[simp] theorem State.withCommand_draws (c : Word) : (s.withCommand c).draws = s.draws := rfl

/-! ### resetNow and resetOf -/

@[simp] theorem State.resetOf_bufCap (cap : Nat) : (State.resetOf cap).bufCap = cap := rfl
@[simp] theorem State.resetOf_phase (cap : Nat) : (State.resetOf cap).phase = .idle := rfl
@[simp] theorem State.resetOf_cmd (cap : Nat) : (State.resetOf cap).cmd = 0 := rfl
@[simp] theorem State.resetOf_done (cap : Nat) : (State.resetOf cap).done = false := rfl
@[simp] theorem State.resetOf_ovr (cap : Nat) : (State.resetOf cap).ovr = false := rfl
@[simp] theorem State.resetOf_err (cap : Nat) : (State.resetOf cap).err = .ok := rfl
@[simp] theorem State.resetOf_irqEn (cap : Nat) : (State.resetOf cap).irqEn = false := rfl
@[simp] theorem State.resetOf_len (cap : Nat) : (State.resetOf cap).len = ⟨0, 0, 0, 0⟩ := rfl
@[simp] theorem State.resetOf_bitLen (cap : Nat) : (State.resetOf cap).bitLen = 0 := rfl
@[simp] theorem State.resetOf_origIndex (cap : Nat) : (State.resetOf cap).origIndex = 0 := rfl
@[simp] theorem State.resetOf_alphaLen (cap : Nat) : (State.resetOf cap).alphaLen = 0 := rfl
@[simp] theorem State.resetOf_runLen (cap : Nat) : (State.resetOf cap).runLen = 0 := rfl
@[simp] theorem State.resetOf_nodeCount (cap : Nat) : (State.resetOf cap).nodeCount = 0 := rfl
@[simp] theorem State.resetOf_root (cap : Nat) : (State.resetOf cap).root = Config.nil := rfl
@[simp] theorem State.resetOf_freq (cap : Nat) : (State.resetOf cap).freq = Vector.replicate 256 0 := rfl
@[simp] theorem State.resetOf_code (cap : Nat) : (State.resetOf cap).code = Vector.replicate 256 ⟨0, 0⟩ := rfl
@[simp] theorem State.resetOf_mem (cap : Nat) : (State.resetOf cap).mem = Memory.unwritten := rfl
@[simp] theorem State.resetOf_agenda (cap : Nat) : (State.resetOf cap).agenda = [] := rfl
@[simp] theorem State.resetOf_resp (cap : Nat) : (State.resetOf cap).resp = none := rfl
@[simp] theorem State.resetOf_draws (cap : Nat) : (State.resetOf cap).draws = 0 := rfl

@[simp] theorem State.resetNow_bufCap : s.resetNow.bufCap = s.bufCap := rfl
@[simp] theorem State.resetNow_phase : s.resetNow.phase = .idle := rfl
@[simp] theorem State.resetNow_cmd : s.resetNow.cmd = 0 := rfl
@[simp] theorem State.resetNow_done : s.resetNow.done = false := rfl
@[simp] theorem State.resetNow_ovr : s.resetNow.ovr = false := rfl
@[simp] theorem State.resetNow_err : s.resetNow.err = .ok := rfl
@[simp] theorem State.resetNow_irqEn : s.resetNow.irqEn = false := rfl
@[simp] theorem State.resetNow_len : s.resetNow.len = ⟨0, 0, 0, 0⟩ := rfl
@[simp] theorem State.resetNow_bitLen : s.resetNow.bitLen = 0 := rfl
@[simp] theorem State.resetNow_origIndex : s.resetNow.origIndex = 0 := rfl
@[simp] theorem State.resetNow_alphaLen : s.resetNow.alphaLen = 0 := rfl
@[simp] theorem State.resetNow_runLen : s.resetNow.runLen = 0 := rfl
@[simp] theorem State.resetNow_nodeCount : s.resetNow.nodeCount = 0 := rfl
@[simp] theorem State.resetNow_root : s.resetNow.root = Config.nil := rfl
@[simp] theorem State.resetNow_freq : s.resetNow.freq = Vector.replicate 256 0 := rfl
@[simp] theorem State.resetNow_code : s.resetNow.code = Vector.replicate 256 ⟨0, 0⟩ := rfl
@[simp] theorem State.resetNow_mem : s.resetNow.mem = Memory.unwritten := rfl
@[simp] theorem State.resetNow_agenda : s.resetNow.agenda = s.agenda := rfl
@[simp] theorem State.resetNow_resp : s.resetNow.resp = none := rfl
@[simp] theorem State.resetNow_draws : s.resetNow.draws = s.draws + 1 := rfl

end Sys2Proof.Machine
end

