-- ==== Sys2Proof/Laws/Operands.lean ====
section
/-! SUPPORT. The laws of sources and destinations: a memory read back after a commit of it, and the lengths of what a command
reads. -/

namespace Sys2Proof.Machine

/-! ### Lengths of sources -/

@[simp] theorem State.length_block (s : State) (k : Buf) : (s.block k).length = (s.len.get k).toNat := by
  simp [State.block]

@[simp] theorem State.length_bits (s : State) : s.bits.length = s.bitLen.toNat := by simp [State.bits]

@[simp] theorem State.length_runs (s : State) : s.runs.length = s.runLen.toNat := by simp [State.runs]

@[simp] theorem State.length_alphabet (s : State) : s.alphabet.length = s.alphaLen.toNat := by simp [State.alphabet]

theorem State.block_length_lt (s : State) (k : Buf) : (s.block k).length < 2 ^ 32 := by
  rw [s.length_block]; exact (s.len.get k).isLt

theorem State.getElem?_block (s : State) (k : Buf) (i : Nat) :
    (s.block k)[i]? = if i < (s.len.get k).toNat then some (s.byteAt k i) else none := by
  simp only [State.block, List.getElem?_map]
  by_cases h : i < (s.len.get k).toNat
  · rw [List.getElem?_range h]; simp [h]
  · rw [List.getElem?_eq_none (by simpa using h)]; simp [h]

theorem State.getElem?_bits (s : State) (i : Nat) :
    s.bits[i]? = if i < s.bitLen.toNat then some (s.bitAt i) else none := by
  simp only [State.bits, List.getElem?_map]
  by_cases h : i < s.bitLen.toNat
  · rw [List.getElem?_range h]; simp [h]
  · rw [List.getElem?_eq_none (by simpa using h)]; simp [h]

theorem State.getElem?_runs (s : State) (i : Nat) :
    s.runs[i]? = if i < s.runLen.toNat then some (s.runAt i) else none := by
  simp only [State.runs, List.getElem?_map]
  by_cases h : i < s.runLen.toNat
  · rw [List.getElem?_range h]; simp [h]
  · rw [List.getElem?_eq_none (by simpa using h)]; simp [h]

theorem State.getElem?_alphabet (s : State) (i : Nat) :
    s.alphabet[i]? = if i < s.alphaLen.toNat then some (s.alphaAt i) else none := by
  simp only [State.alphabet, List.getElem?_map]
  by_cases h : i < s.alphaLen.toNat
  · rw [List.getElem?_range h]; simp [h]
  · rw [List.getElem?_eq_none (by simpa using h)]; simp [h]

/-! ### A source that is written -/

/-- A buffer whose first bytes are `xs` and whose length is theirs holds the block `xs`, whatever the draws. -/
theorem State.block_eq_of_stored {s : State} {k : Buf} {xs : List Byte} (hl : (s.len.get k).toNat = xs.length)
    (hb : ∀ i, i < xs.length → Store.get (s.mem.buf.get k) i = xs[i]?) : s.block k = xs := by
  apply List.ext_getElem?
  intro i
  rw [s.getElem?_block, hl]
  by_cases h : i < xs.length
  · rw [if_pos h, List.getElem?_eq_getElem h, State.byteAt, Store.readBelow, if_pos (hl ▸ h), hb i h, List.getElem?_eq_getElem h]; rfl
  · rw [if_neg h, List.getElem?_eq_none (by omega)]

theorem State.bits_eq_of_stored {s : State} {xs : List Bool} (hl : s.bitLen.toNat = xs.length)
    (hb : ∀ i, i < xs.length → Store.get s.mem.bit i = xs[i]?) : s.bits = xs := by
  apply List.ext_getElem?
  intro i
  rw [s.getElem?_bits, hl]
  by_cases h : i < xs.length
  · rw [if_pos h, List.getElem?_eq_getElem h, State.bitAt, Store.readBelow, if_pos (hl ▸ h), hb i h, List.getElem?_eq_getElem h]; rfl
  · rw [if_neg h, List.getElem?_eq_none (by omega)]

theorem State.runs_eq_of_stored {s : State} {xs : List Run} (hl : s.runLen.toNat = xs.length)
    (hb : ∀ i, i < xs.length → Store.get s.mem.run i = xs[i]?) : s.runs = xs := by
  apply List.ext_getElem?
  intro i
  rw [s.getElem?_runs, hl]
  by_cases h : i < xs.length
  · rw [if_pos h, List.getElem?_eq_getElem h, State.runAt, Store.readBelow, if_pos (hl ▸ h), hb i h, List.getElem?_eq_getElem h]; rfl
  · rw [if_neg h, List.getElem?_eq_none (by omega)]

theorem State.alphabet_eq_of_stored {s : State} {xs : List Byte} (hl : s.alphaLen.toNat = xs.length)
    (hb : ∀ i, i < xs.length → Store.get s.mem.alpha i = xs[i]?) : s.alphabet = xs := by
  apply List.ext_getElem?
  intro i
  rw [s.getElem?_alphabet, hl]
  by_cases h : i < xs.length
  · rw [if_pos h, List.getElem?_eq_getElem h, State.alphaAt, Store.readBelow, if_pos (hl ▸ h), hb i h, List.getElem?_eq_getElem h]; rfl
  · rw [if_neg h, List.getElem?_eq_none (by omega)]

/-! ### A commit read back -/

theorem toNat_ofNat_of_lt {n x : Nat} (h : x < 2 ^ n) : (BitVec.ofNat n x).toNat = x := by
  rw [BitVec.toNat_ofNat, Nat.mod_eq_of_lt h]

theorem State.get_putBlock (s : State) (k j : Buf) (xs : List Byte) (i : Nat) :
    Store.get ((s.putBlock k xs).mem.buf.get j) i =
      if j = k ∧ i < xs.length then xs[i]? else Store.get (s.mem.buf.get j) i := by
  rw [State.putBlock_mem, PerBuf.get_set]
  by_cases h : j = k
  · subst h; simp [Store.get_put]
  · simp [h]

theorem State.len_putBlock (s : State) (k j : Buf) (xs : List Byte) :
    (s.putBlock k xs).len.get j = if j = k then BitVec.ofNat 32 xs.length else s.len.get j := by
  rw [State.putBlock_len, PerBuf.get_set]

/-- The block just written is read back. -/
theorem State.block_putBlock (s : State) (k : Buf) (xs : List Byte) (h : xs.length < 2 ^ 32) :
    (s.putBlock k xs).block k = xs := by
  apply State.block_eq_of_stored
  · rw [State.len_putBlock, if_pos rfl, toNat_ofNat_of_lt h]
  · intro i hi; rw [State.get_putBlock, if_pos ⟨rfl, hi⟩]

/-- A completion leaves what the next command reads of a written block. -/
theorem State.block_complete_putBlock (s : State) (k : Buf) (xs : List Byte) (e : ErrCode) (h : xs.length < 2 ^ 32) :
    ((s.putBlock k xs).complete e).block k = xs := by
  apply State.block_eq_of_stored
  · rw [State.complete_len, State.len_putBlock, if_pos rfl, toNat_ofNat_of_lt h]
  · intro i hi; rw [State.complete_mem, State.get_putBlock, if_pos ⟨rfl, hi⟩]

/-! ### Reads of one place -/

/-- A valid index with a value reads as that value. -/
theorem Store.readBelow_valid {α : Type} {len : Nat} {m : Store α} {i : Nat} {v : α} (draw : α) (hi : i < len)
    (hv : Store.get m i = some v) : Store.readBelow len m i draw = v := by simp [Store.readBelow, hi, hv]

/-- A stale index reads as a draw. -/
theorem Store.readBelow_stale {α : Type} {len : Nat} (m : Store α) {i : Nat} (draw : α) (hi : len ≤ i) :
    Store.readBelow len m i draw = draw := by simp [Store.readBelow, hi]

/-- A valid arena entry reads as it is. -/
theorem State.nodeAt_valid {s : State} {i : Nat} {n : Node} (h : s.node? i = some n) : s.nodeAt i = n := by
  simp [State.nodeAt, h]

/-! ### Codes -/

/-- A code table entry gives back the code string it was made of, up to 255 bits (R47). -/
theorem CodeEntry.bits_ofBits (c : List Bool) (h : c.length < 256) : (CodeEntry.ofBits c).bits = c := by
  apply List.ext_getElem?
  intro j
  have hl : (CodeEntry.ofBits c).clen.toNat = c.length := toNat_ofNat_of_lt h
  simp only [CodeEntry.bits, List.getElem?_map, hl]
  by_cases hj : j < c.length
  · rw [List.getElem?_range hj, List.getElem?_eq_getElem hj]
    simp [CodeEntry.ofBits, getLsbD_ofNat_bitsNat, hj, show j < 255 by omega]
  · rw [List.getElem?_eq_none (by simpa using hj), List.getElem?_eq_none (by omega)]; rfl

end Sys2Proof.Machine
end

