-- ==== Sys2Proof/Laws/Step.lean ====
section
/-! SUPPORT. Everything one step can do: the four kinds of move, and for every command its commit or its error code. -/

namespace Sys2Proof.Machine

/-! ### The moves -/

theorem step_nil {s : State} (h : s.agenda = []) : step s = coreTurn s := by simp [step, h]

theorem step_core {s : State} {es : List Event} (h : s.agenda = .core :: es) :
    step s = coreTurn { s with agenda := es } := by simp [step, h]

theorem step_host {s : State} {op : HostOp} {es : List Event} (h : s.agenda = .host op :: es) :
    step s = .next ({ s with agenda := es }.access op) := by simp [step, h]

theorem step_reset {s : State} {es : List Event} (h : s.agenda = .reset :: es) :
    step s = .next ({ s with agenda := es }.resetNow) := by simp [step, h]

theorem coreTurn_idle {s : State} (h : s.phase = .idle) : coreTurn s = .next s := by simp [coreTurn, h]

theorem coreTurn_busy {s : State} {c : Word} (h : s.phase = .busy c) : coreTurn s = completion c s := by
  simp [coreTurn, h]

theorem completion_ok {c : Word} {i : Instr} (h : decode c = .ok i) (s : State) : completion c s = exec i s := by
  simp [completion, h]

theorem completion_error {c : Word} {e : Unsupported} (h : decode c = .error e) (s : State) :
    completion c s = .next (s.complete .unsupported) := by simp [completion, h]

/-! ### The commands -/

/-- What a command that commits has written: `u` is the state before its completion marks. -/
def Committed (i : Instr) (s u : State) : Prop :=
  match i with
  | .nop => u = s
  | .hfreq k => u = s.putFreq (byteCount (s.block k))
  | .htree => occurring s.freqAt ≠ [] ∧ u = s.putArena (buildTree s.freqAt) ((buildTree s.freqAt).length - 1)
  | .hcode => (s.nodeCount = 0 ∧ u = s.putCode fun _ => []) ∨
      (s.nodeCount ≠ 0 ∧ ∃ tr, s.tree? = some tr ∧ u = s.putCode (codeOf tr.codes))
  | .henc k => ∃ bits, encodeBytes s.codeAt (s.block k) = some bits ∧ bits.length ≤ s.bitCap ∧
      u = (s.putBits bits).putBitLen bits.length
  | .hdec d => (s.bits = [] ∧ u = s.putBlock d []) ∨
      (s.bits ≠ [] ∧ s.nodeCount ≠ 0 ∧ ∃ out, s.decodeBits s.bits s.root.toNat [] = .ok out ∧ u = s.putBlock d out)
  | .htser d => ∃ out, out.length ≤ s.bufCap ∧ u = s.putBlock d out ∧
      ((s.nodeCount = 0 ∧ out = []) ∨ (s.nodeCount ≠ 0 ∧ ∃ tr, s.tree? = some tr ∧ out = tr.ser))
  | .htload k => (s.block k = [] ∧ u = { s with nodeCount := 0, root := Config.nil }) ∨
      (s.block k ≠ [] ∧ ∃ ns, loadTree (s.block k) = some ns ∧ u = s.putArena ns 0)
  | .bwtf k d => u = (s.putBlock d (lastColumn (s.block k))).putOrigIndex (originalRank (s.block k))
  | .bwti k d => (s.block k = [] ∧ u = s.putBlock d []) ∨
      (s.block k ≠ [] ∧ s.origIndex.toNat < (s.block k).length ∧
        u = s.putBlock d (inverseBwt (s.block k) s.origIndex.toNat))
  | .mtfe k d => u = (s.putAlphabet (initialAlphabet (s.block k))).putBlock d
      ((mtfEncode (initialAlphabet (s.block k)) (s.block k)).map (BitVec.ofNat 8))
  | .mtfd k d => ∃ out, mtfDecode s.alphabet (s.block k) = some out ∧ u = s.putBlock d out
  | .rlee k => u = s.putRuns ((runsOf (s.block k)).map Run.ofPair)
  | .rled d => ∃ out, expandRuns s.bufCap s.runs [] = .ok out ∧ u = s.putBlock d out
  | .pack d => u = s.putBlock d (packBits s.bits)
  | .unpack k => (s.len.get k).toNat = ceil8 s.bitLen.toNat ∧ u = s.putBits (unpackBits (s.block k) s.bitLen.toNat)

/-- The tree automaton never fails with OK. -/
theorem State.decodeBits_code_ne_ok (s : State) (bits : List Bool) (cur : Nat) (out : List Byte) (e : ErrCode)
    (h : s.decodeBits bits cur out = .error (.code e)) : e ≠ .ok := by
  induction bits generalizing cur out with
  | nil =>
    rw [State.decodeBits] at h
    split at h <;> simp at h
    subst h; decide
  | cons b bits ih =>
    rw [State.decodeBits] at h
    split at h
    · simp at h
    · simp at h; subst h; decide
    · exact ih _ _ h
    · split at h
      · simp at h; subst h; decide
      · exact ih _ _ h

/-- The run expander never fails with OK. -/
theorem expandRuns_code_ne_ok (cap : Nat) (rs : List Run) (out : List Byte) (e : ErrCode)
    (h : expandRuns cap rs out = .error e) : e ≠ .ok := by
  induction rs generalizing out with
  | nil => simp [expandRuns] at h
  | cons r rs ih =>
    rw [expandRuns] at h
    split at h
    · simp at h; subst h; decide
    · split at h
      · simp at h; subst h; decide
      · exact ih _ h

/-- Everything a command can answer with a next state: an error code other than OK and no other change (R212), or its
commit. -/
theorem exec_cases {i : Instr} {s t : State} (h : exec i s = .next t) :
    (∃ e, e ≠ .ok ∧ t = s.complete e) ∨ ∃ u, t = u.complete .ok ∧ Committed i s u := by
  have inj : ∀ {a b : State}, (Host.Outcome.next a : Host.Outcome State Fault Refusal) = .next b → b = a :=
    fun h => by cases h; rfl
  cases i with
  | nop => exact .inr ⟨_, inj h, rfl⟩
  | hfreq k => exact .inr ⟨_, inj h, rfl⟩
  | htree =>
    simp only [exec, execHtree] at h
    split at h
    · exact .inl ⟨_, by decide, inj h⟩
    · next hn => exact .inr ⟨_, inj h, hn, rfl⟩
  | hcode =>
    rcases settle_next h with ⟨u, hu, rfl⟩ | ⟨e, he, rfl⟩
    · refine .inr ⟨u, rfl, ?_⟩
      split at hu
      · next hn => cases hu; exact .inl ⟨hn, rfl⟩
      · next hn =>
        split at hu
        · simp at hu
        · next tr htr => cases hu; exact .inr ⟨hn, tr, htr, rfl⟩
    · split at he
      · simp at he
      · split at he <;> simp at he
  | henc k =>
    simp only [exec, execHenc] at h
    split at h
    · exact .inl ⟨_, by decide, inj h⟩
    · next bits hb =>
      split at h
      · exact .inl ⟨_, by decide, inj h⟩
      · exact .inr ⟨_, inj h, bits, hb, by omega, rfl⟩
  | hdec d =>
    rcases settle_next h with ⟨u, hu, rfl⟩ | ⟨e, he, rfl⟩
    · refine .inr ⟨u, rfl, ?_⟩
      split at hu
      · next hb => cases hu; exact .inl ⟨hb, rfl⟩
      · next hb =>
        split at hu
        · simp at hu
        · next hn =>
          cases hd : s.decodeBits s.bits s.root.toNat [] with
          | error e => rw [hd] at hu; simp [Except.map] at hu
          | ok out => rw [hd] at hu; cases hu; exact .inr ⟨hb, hn, out, hd, rfl⟩
    · refine .inl ⟨e, ?_, rfl⟩
      split at he
      · simp at he
      · split at he
        · simp at he; subst he; decide
        · cases hd : s.decodeBits s.bits s.root.toNat [] with
          | ok out => rw [hd] at he; simp [Except.map] at he
          | error e' =>
            rw [hd] at he
            simp only [Except.map, Except.error.injEq] at he
            subst he
            exact s.decodeBits_code_ne_ok _ _ _ _ hd
  | htser d =>
    rcases settle_next h with ⟨u, hu, rfl⟩ | ⟨e, he, rfl⟩
    · refine .inr ⟨u, rfl, ?_⟩
      split at hu
      · simp at hu
      · next out ho =>
        split at hu
        · simp at hu
        · cases hu
          refine ⟨out, by omega, rfl, ?_⟩
          split at ho
          · next hn => cases ho; exact .inl ⟨hn, rfl⟩
          · next hn =>
            obtain ⟨tr, htr, rfl⟩ := Option.map_eq_some_iff.1 ho
            exact .inr ⟨hn, tr, htr, rfl⟩
    · refine .inl ⟨e, ?_, rfl⟩
      split at he
      · simp at he
      · split at he
        · simp at he; subst he; decide
        · simp at he
  | htload k =>
    simp only [exec, execHtload] at h
    split at h
    · next hb => exact .inr ⟨_, inj h, .inl ⟨hb, rfl⟩⟩
    · next hb =>
      split at h
      · exact .inl ⟨_, by decide, inj h⟩
      · next ns hns => exact .inr ⟨_, inj h, .inr ⟨hb, ns, hns, rfl⟩⟩
  | bwtf k d => exact .inr ⟨_, inj h, rfl⟩
  | bwti k d =>
    simp only [exec, execBwti] at h
    split at h
    · next hb => exact .inr ⟨_, inj h, .inl ⟨hb, rfl⟩⟩
    · next hb =>
      split at h
      · exact .inl ⟨_, by decide, inj h⟩
      · exact .inr ⟨_, inj h, .inr ⟨hb, by omega, rfl⟩⟩
  | mtfe k d => exact .inr ⟨_, inj h, rfl⟩
  | mtfd k d =>
    simp only [exec, execMtfd] at h
    split at h
    · exact .inl ⟨_, by decide, inj h⟩
    · next out ho => exact .inr ⟨_, inj h, out, ho, rfl⟩
  | rlee k => exact .inr ⟨_, inj h, rfl⟩
  | rled d =>
    simp only [exec, execRled] at h
    split at h
    · next e he => exact .inl ⟨e, expandRuns_code_ne_ok _ _ _ _ he, inj h⟩
    · next out ho => exact .inr ⟨_, inj h, out, ho, rfl⟩
  | pack d => exact .inr ⟨_, inj h, rfl⟩
  | unpack k =>
    simp only [exec, execUnpack] at h
    split at h
    · exact .inl ⟨_, by decide, inj h⟩
    · next hl => exact .inr ⟨_, inj h, by simpa using hl, rfl⟩

end Sys2Proof.Machine
end

