-- ==== Sys2Proof/Laws/Bus.lean ====
section
/-! SUPPORT. The laws of the host's side: which offsets are STATUS, CTRL and CMD, what an access does, and the lanes of a word. -/

namespace Sys2Proof.Machine

/-! ### The map -/

theorem locateReg_eq_status {o : Nat} : locateReg o = .status ↔ o = 0x00C := by
  unfold locateReg; split <;> simp_all

theorem locateReg_eq_ctrl {o : Nat} : locateReg o = .ctrl ↔ o = 0x004 := by
  unfold locateReg; split <;> simp_all

theorem locateReg_eq_cmd {o : Nat} : locateReg o = .cmd ↔ o = 0x008 := by
  unfold locateReg; split <;> simp_all

/-- The three locations that are treated apart: STATUS, CTRL and CMD. -/
def Loc.isControl : Loc → Bool
  | .status | .ctrl | .cmd => true
  | _ => false

theorem isControl_locate_of_ge {o : Nat} (h : 0x1000 ≤ o) : (locate o).isControl = false := by
  unfold locate
  rw [if_neg (by omega)]
  simp only [apply_ite Loc.isControl]
  simp [Loc.isControl]

/-- An offset outside the register page is none of the three. -/
theorem locate_of_ge {o : Nat} (h : 0x1000 ≤ o) : locate o ≠ .status ∧ locate o ≠ .ctrl ∧ locate o ≠ .cmd := by
  have hc := isControl_locate_of_ge h
  refine ⟨?_, ?_, ?_⟩ <;> intro e <;> rw [e] at hc <;> exact absurd hc (by decide)

theorem locate_of_lt {o : Nat} (h : o < 0x1000) : locate o = locateReg o := by
  unfold locate; rw [if_pos h]

/-- STATUS is the location of offset `0x00C` alone (R23). -/
theorem locate_eq_status {o : Nat} : locate o = .status ↔ o = 0x00C := by
  by_cases h : o < 0x1000
  · rw [locate_of_lt h, locateReg_eq_status]
  · exact ⟨fun e => absurd e (locate_of_ge (by omega)).1, fun e => by omega⟩

/-- CTRL is the location of offset `0x004` alone (R28). -/
theorem locate_eq_ctrl {o : Nat} : locate o = .ctrl ↔ o = 0x004 := by
  by_cases h : o < 0x1000
  · rw [locate_of_lt h, locateReg_eq_ctrl]
  · exact ⟨fun e => absurd e (locate_of_ge (by omega)).2.1, fun e => by omega⟩

/-- CMD is the location of offset `0x008` alone (R29). -/
theorem locate_eq_cmd {o : Nat} : locate o = .cmd ↔ o = 0x008 := by
  by_cases h : o < 0x1000
  · rw [locate_of_lt h, locateReg_eq_cmd]
  · exact ⟨fun e => absurd e (locate_of_ge (by omega)).2.2, fun e => by omega⟩

/-! ### Accesses -/

theorem State.busy_eq_false {s : State} : s.busy = false ↔ s.phase = .idle := by
  unfold State.busy; cases s.phase <;> simp

theorem State.busy_eq_true {s : State} : s.busy = true ↔ ∃ c, s.phase = .busy c := by
  unfold State.busy; cases s.phase <;> simp

theorem busRefusal_none {op : HostOp} : busRefusal op = none ↔ op.bytes = 4 ∧ op.off.toNat % 4 = 0 := by
  unfold busRefusal HostOp.wordWide HostOp.aligned
  by_cases h : op.bytes = 4 <;> by_cases h' : op.off.toNat % 4 = 0 <;> simp [h, h']

/-- A refused access changes no state (R64, R226). -/
theorem State.access_refused {s : State} {op : HostOp} {e : BusError} (h : busRefusal op = some e) :
    s.access op = { s with resp := some (.error e), draws := s.draws + 1 } := by
  simp [State.access, h]

/-- An aligned read answers a word and changes no state (R67). -/
theorem State.access_read {s : State} {o : BitVec 29} (h : o.toNat % 4 = 0) :
    s.access (.read 4 o) = { s with resp := some (.readData (s.readLoc (locate o.toNat))), draws := s.draws + 1 } := by
  have : busRefusal (.read 4 o) = none := busRefusal_none.2 ⟨rfl, h⟩
  simp [State.access, this]

/-- An aligned write has the effect of its location (R67). -/
theorem State.access_write {s : State} {o : BitVec 29} {v : Word} (h : o.toNat % 4 = 0) :
    s.access (.write 4 o v) =
      { s.writeLoc v (locate o.toNat) with resp := some .writeDone, draws := s.draws + 1 } := by
  have : busRefusal (.write 4 o v) = none := busRefusal_none.2 ⟨rfl, h⟩
  simp [State.access, this]

/-- A write while busy elsewhere than STATUS and CTRL only sets OVR (R26). -/
theorem State.writeLoc_busy {s : State} {v : Word} {l : Loc} (hb : s.busy = true) (h₁ : l ≠ .status) (h₂ : l ≠ .ctrl) :
    s.writeLoc v l = { s with ovr := true } := by
  simp [State.writeLoc, hb, h₁, h₂]

theorem State.writeLoc_idle {s : State} {v : Word} {l : Loc} (hb : s.busy = false) :
    s.writeLoc v l = s.writeIdle v l := by
  simp [State.writeLoc, hb]

theorem State.readLoc_idle {s : State} {l : Loc} (hb : s.busy = false) : s.readLoc l = s.readIdle l := by
  simp [State.readLoc, hb]

/-- A write to any location keeps the canonical form of the memories. -/
theorem State.writeIdle_mem_wf {s : State} (v : Word) (l : Loc) (h : s.mem.wf) : (s.writeIdle v l).mem.wf := by
  obtain ⟨h0, h1, h2, h3, hb, ha, hr, hn⟩ := h
  cases l with
  | buf k w =>
    cases k
    · exact ⟨Store.wf_setFrom _ _ _ _ h0, h1, h2, h3, hb, ha, hr, hn⟩
    · exact ⟨h0, Store.wf_setFrom _ _ _ _ h1, h2, h3, hb, ha, hr, hn⟩
    · exact ⟨h0, h1, Store.wf_setFrom _ _ _ _ h2, h3, hb, ha, hr, hn⟩
    · exact ⟨h0, h1, h2, Store.wf_setFrom _ _ _ _ h3, hb, ha, hr, hn⟩
  | alpha w => exact ⟨h0, h1, h2, h3, hb, Store.wf_setFrom _ _ _ _ ha, hr, hn⟩
  | run j => exact ⟨h0, h1, h2, h3, hb, ha, Store.wf_setFrom _ _ _ _ hr, hn⟩
  | bit w => exact ⟨h0, h1, h2, h3, Store.wf_setFrom _ _ _ _ hb, ha, hr, hn⟩
  | _ => exact ⟨h0, h1, h2, h3, hb, ha, hr, hn⟩

/-! ### Lanes (R62) -/

@[simp] theorem length_bytesOfWord (v : Word) : (bytesOfWord v).length = 4 := rfl

@[simp] theorem length_bitsOfWord (v : Word) : (bitsOfWord v).length = 32 := rfl

theorem getElem?_bytesOfWord (v : Word) {l : Nat} (h : l < 4) : (bytesOfWord v)[l]? = some (v.extractLsb' (8 * l) 8) := by
  simp [bytesOfWord, List.getElem?_range h]

theorem getElem?_bitsOfWord (v : Word) {j : Nat} (h : j < 32) : (bitsOfWord v)[j]? = some (v.getLsbD j) := by
  simp [bitsOfWord, List.getElem?_range h]

/-- Byte lane `l` of a gathered word is byte `l` (R62). -/
theorem extractLsb'_wordOfBytes (f : Nat → Byte) {l : Nat} (h : l < 4) : (wordOfBytes f).extractLsb' (8 * l) 8 = f l := by
  unfold wordOfBytes
  ext i hi
  simp only [BitVec.getElem_extractLsb', BitVec.getLsbD_append]
  match l, h with
  | 0, _ => simp [hi]
  | 1, _ => rw [if_neg (by omega), if_pos (by omega)]; simp [BitVec.getLsbD_eq_getElem hi]
  | 2, _ =>
    rw [if_neg (by omega), if_neg (by omega), if_pos (by omega), show 8 * 2 + i - 8 - 8 = i by omega]
    exact BitVec.getLsbD_eq_getElem hi
  | 3, _ =>
    rw [if_neg (by omega), if_neg (by omega), if_neg (by omega), show 8 * 3 + i - 8 - 8 - 8 = i by omega]
    exact BitVec.getLsbD_eq_getElem hi

/-- Bit `j` of a gathered word is bit `j` (R62, BIT). -/
theorem getLsbD_wordOfBits (f : Nat → Bool) {j : Nat} (h : j < 32) : (wordOfBits f).getLsbD j = f j := by
  unfold wordOfBits
  rw [getLsbD_ofNat_bitsNat]
  simp [h]

/-- A run entry survives its window word (R45). -/
theorem Run.ofWord_toWord (r : Run) : Run.ofWord r.toWord = r := by
  obtain ⟨v, c⟩ := r
  simp only [Run.ofWord, Run.toWord, Run.mk.injEq]
  constructor <;> ext i hi <;> simp only [BitVec.getElem_extractLsb', BitVec.getLsbD_append]
  · simp [hi]
  · rw [if_neg (by omega), show 8 + i - 8 = i by omega]; exact BitVec.getLsbD_eq_getElem hi

/-- A window word survives its run entry (R45). -/
theorem Run.toWord_ofWord (v : Word) : (Run.ofWord v).toWord = v := by
  simp only [Run.ofWord, Run.toWord]
  ext i hi
  simp only [BitVec.getElem_append, BitVec.getElem_extractLsb']
  split
  · simp [BitVec.getLsbD_eq_getElem hi]
  · rw [show 8 + (i - 8) = i by omega, BitVec.getLsbD_eq_getElem hi]

/-! ### Words of the read-only memories (R42, R43, R47, R61) -/

theorem locate_freq {v : Nat} (h : v < 256) : locate (0x1000 + 4 * v) = .freq v := by
  unfold locate
  rw [if_neg (by omega), if_pos (by omega)]
  congr 1; omega

theorem locate_node {i w : Nat} (h : i < 511) (hw : w < 2) : locate (0x2000 + 8 * i + 4 * w) = .node i w := by
  unfold locate
  rw [if_neg (by omega), if_neg (by omega), if_neg (by omega), if_pos (by omega)]
  congr 1 <;> omega

theorem locate_code {v w : Nat} (h : v < 256) (hw : w < 16) : locate (0x4000 + 64 * v + 4 * w) = .code v w := by
  unfold locate
  rw [if_neg (by omega), if_neg (by omega), if_neg (by omega), if_neg (by omega), if_neg (by omega), if_pos (by omega)]
  congr 1 <;> omega

/-- The first word of an arena entry, bit by bit (R43). -/
theorem Node.getLsbD_word_zero (n : Node) (i : Nat) :
    (n.word 0).getLsbD i =
      if i < 9 then n.left.getLsbD i
      else if i < 18 then n.right.getLsbD (i - 9)
      else if i < 26 then n.sym.getLsbD (i - 18)
      else if i < 31 then false
      else decide (i = 31) && n.leaf := by
  simp only [Node.word, if_true, BitVec.getLsbD_append, BitVec.getLsbD_zero, BitVec.getLsbD_ofBool]
  by_cases h₀ : i < 9
  · rw [if_pos h₀, if_pos h₀]
  rw [if_neg h₀, if_neg h₀]
  by_cases h₁ : i < 18
  · rw [if_pos h₁, if_pos (by omega)]
  rw [if_neg h₁, if_neg (by omega), show i - 9 - 9 = i - 18 by omega]
  by_cases h₂ : i < 26
  · rw [if_pos h₂, if_pos (by omega)]
  rw [if_neg h₂, if_neg (by omega)]
  by_cases h₃ : i < 31
  · rw [if_pos h₃, if_pos (by omega)]
  rw [if_neg h₃, if_neg (by omega)]
  congr 1
  simp only [decide_eq_decide]; omega

/-- The eight words of CBITS (R47); bit 255 reads 0. -/
theorem CodeEntry.getLsbD_word (e : CodeEntry) {w j : Nat} (hw : w < 8) (hj : j < 32) :
    (e.word (w + 1)).getLsbD j = e.cbits.getLsbD (32 * w + j) := by
  rw [CodeEntry.word, if_neg (by omega), if_pos (by omega), BitVec.getLsbD_extractLsb']
  simp [hj, show 32 * w + j < 256 by omega]

end Sys2Proof.Machine
end

