-- ==== Sys2Proof/Laws/Codecs.lean ====
section
/-! SUPPORT. What the transforms of the units compute, apart from any state: the packer and its inverse (R190 to R193), the runs
of a byte sequence and their expansion (R180 to R182), and the move-to-front coder and its inverse (R170 to R172). -/

namespace Sys2Proof.Machine

/-! ### Bit packing -/

@[simp] theorem length_packBits (bits : List Bool) : (packBits bits).length = ceil8 bits.length := by simp [packBits]

/-- Bit `p` of the stream's group `q` stands at position `7 - p` of byte `q`, and padding is 0 (R190). -/
theorem getLsbD_packByte (bits : List Bool) (q p : Nat) (hp : p < 8) :
    (packByte bits q).getLsbD (7 - p) = bits.getD (8 * q + p) false := by
  unfold packByte
  rw [getLsbD_ofNat_bitsNat]
  have h1 : 7 - p < 8 := by omega
  simp [h1, show 7 - (7 - p) = p by omega]

/-- Unpacking a packed stream gives the stream. -/
theorem unpackBits_packBits (bits : List Bool) : unpackBits (packBits bits) bits.length = bits := by
  apply List.ext_getElem?
  intro j
  by_cases hj : j < bits.length
  · have hq : j / 8 < ceil8 bits.length := by unfold ceil8; omega
    simp only [unpackBits, List.getElem?_map, List.getElem?_range hj, Option.map_some]
    have : (packBits bits).getD (j / 8) 0 = packByte bits (j/8) := by
      simp [packBits, hq]
    rw [this, getLsbD_packByte _ _ _ (Nat.mod_lt _ (by decide))]
    rw [show 8 * (j/8) + j % 8 = j by omega]
    simp [hj]
  · simp [unpackBits, hj]

/-! ### Run lengths -/

/-- The runs of a sequence cover it in order. -/
theorem flatMap_runsFrom (v : Byte) (c : Nat) (x : List Byte) :
    (runsFrom v c x).flatMap (fun r => List.replicate r.2 r.1) = List.replicate c v ++ x := by
  induction x generalizing v c with
  | nil => simp [runsFrom]
  | cons y x ih =>
    rw [runsFrom]; split
    · next h => subst h; rw [ih, List.replicate_succ']; simp
    · rw [List.flatMap_cons, ih]; simp

theorem flatMap_runsOf (x : List Byte) : (runsOf x).flatMap (fun r => List.replicate r.2 r.1) = x := by
  cases x with
  | nil => rfl
  | cons v x => rw [runsOf, flatMap_runsFrom]; rfl

/-- No run is empty. -/
theorem runsFrom_pos (v : Byte) (c : Nat) (hc : 0 < c) (x : List Byte) : ∀ r ∈ runsFrom v c x, 0 < r.2 := by
  induction x generalizing v c with
  | nil => simp [runsFrom, hc]
  | cons y x ih =>
    rw [runsFrom]; split
    · exact ih v (c+1) (by omega)
    · intro r hr
      rcases List.mem_cons.1 hr with rfl | hr
      · exact hc
      · exact ih y 1 (by omega) r hr

/-- Runs of nonzero count that fit expand to their repetitions, in order. -/
theorem expandRuns_ok (cap : Nat) (rs : List Run) (out : List Byte) (h : ∀ r ∈ rs, r.count ≠ 0)
    (hc : (out ++ rs.flatMap fun r => List.replicate r.count.toNat r.value).length ≤ cap) :
    expandRuns cap rs out = .ok (out ++ rs.flatMap fun r => List.replicate r.count.toNat r.value) := by
  induction rs generalizing out with
  | nil => simp [expandRuns]
  | cons r rs ih =>
    rw [expandRuns, if_neg (h r (by simp)), if_neg]
    · rw [ih]
      · simp
      · exact fun x hx => h x (by simp [hx])
      · simpa using hc
    · simp at hc ⊢; omega

/-- No two neighbouring runs have one value. -/
theorem isChain_runsFrom (v : Byte) (c : Nat) (x : List Byte) :
    (runsFrom v c x).IsChain (fun a b => a.1 ≠ b.1) ∧ ∃ c', (runsFrom v c x).head? = some (v, c') := by
  induction x generalizing v c with
  | nil => simp [runsFrom]
  | cons y x ih =>
    rw [runsFrom]; split
    · exact ih v (c+1)
    · next h =>
      obtain ⟨h1, c', h2⟩ := ih y 1
      refine ⟨?_, c, rfl⟩
      rw [List.isChain_cons]
      refine ⟨?_, h1⟩
      intro z hz; rw [h2] at hz; simp at hz; subst hz; simpa using Ne.symm h

/-! ### Move-to-front -/

/-- The step rearranges the list. -/
theorem moveToFront_perm (lst : List Byte) (p : Nat) : (moveToFront lst p).Perm lst := by
  unfold moveToFront
  split
  · exact .refl _
  · next x hx =>
    obtain ⟨hp, rfl⟩ := List.getElem?_eq_some_iff.1 hx
    have : lst = lst.take p ++ lst[p] :: lst.drop (p+1) := by simp
    conv_rhs => rw [this]
    exact List.perm_middle.symm

/-- Decoding the positions of a block's bytes from the same list gives the block. -/
theorem mtfDecode_mtfEncode (lst b : List Byte) (hn : lst.length ≤ 256) (h : ∀ v ∈ b, v ∈ lst) :
    mtfDecode lst ((mtfEncode lst b).map (BitVec.ofNat 8)) = some b := by
  induction b generalizing lst with
  | nil => rfl
  | cons v b ih =>
    have hv := h v (by simp)
    have hlt := List.idxOf_lt_length_iff.2 hv
    have hto : (BitVec.ofNat 8 (lst.idxOf v)).toNat = lst.idxOf v := by simp; omega
    simp only [mtfEncode, List.map_cons, mtfDecode, hto]
    rw [List.getElem?_eq_getElem hlt, List.getElem_idxOf]
    simp only
    rw [ih]
    · rfl
    · rw [(moveToFront_perm _ _).length_eq]; exact hn
    · intro w hw; exact (moveToFront_perm _ _).mem_iff.2 (h w (by simp [hw]))

theorem mem_initialAlphabet (b : List Byte) (v : Byte) : v ∈ initialAlphabet b ↔ v ∈ b := by
  simp only [initialAlphabet, List.mem_filter, List.mem_map, List.mem_range, List.contains_iff_mem]
  constructor
  · exact fun h => h.2
  · exact fun h => ⟨⟨v.toNat, v.isLt, by simp⟩, h⟩

theorem initialAlphabet_sorted (b : List Byte) : (initialAlphabet b).Pairwise fun x y => x.toNat < y.toNat := by
  apply List.Pairwise.filter
  rw [List.pairwise_map]
  exact List.Pairwise.imp_of_mem (fun {i j} hi hj hij => by
    simp only [List.mem_range] at hi hj
    simp only [BitVec.toNat_ofNat]; omega) List.pairwise_lt_range

theorem initialAlphabet_length (b : List Byte) : (initialAlphabet b).length ≤ 256 := by
  refine (List.length_filter_le _ _).trans (by simp)

theorem length_mtfEncode (lst b : List Byte) : (mtfEncode lst b).length = b.length := by
  induction b generalizing lst <;> simp [mtfEncode, *]

end Sys2Proof.Machine
end

