-- ==== Sys2Proof/Laws/Decode.lean ====
section
/-! SUPPORT. The fields of a command word and the word are two views of the same 32 bits (R91), and buffer numbers survive their
two bits (R92). -/

namespace Sys2Proof

@[simp] theorem Buf.ofBits_toBits (k : Buf) : Buf.ofBits k.toBits = k := by cases k <;> rfl

@[simp] theorem Buf.toBits_ofBits (b : BitVec 2) : (Buf.ofBits b).toBits = b := by
  revert b; decide

theorem CmdFields.ofWord_toWord (f : CmdFields) : CmdFields.ofWord f.toWord = f := by
  obtain ⟨op, src, dst, rsvd⟩ := f
  simp only [CmdFields.ofWord, CmdFields.toWord, CmdFields.mk.injEq]
  refine ⟨?_, ?_, ?_, ?_⟩ <;> ext i hi <;>
    simp only [BitVec.getElem_extractLsb', BitVec.getLsbD_append]
  · simp [hi]
  · rw [if_neg (by omega), if_pos (by omega)]; simp [BitVec.getLsbD_eq_getElem hi]
  · rw [if_neg (by omega), if_neg (by omega), if_pos (by omega), show 10 + i - 8 - 2 = i by omega]
    exact BitVec.getLsbD_eq_getElem hi
  · rw [if_neg (by omega), if_neg (by omega), if_neg (by omega), show 12 + i - 8 - 2 - 2 = i by omega]
    exact BitVec.getLsbD_eq_getElem hi

theorem CmdFields.toWord_ofWord (c : Word) : (CmdFields.ofWord c).toWord = c := by
  simp only [CmdFields.ofWord, CmdFields.toWord]
  ext i hi
  simp only [BitVec.getElem_append, BitVec.getElem_extractLsb']
  split
  · simp [BitVec.getLsbD_eq_getElem hi]
  · split
    · rw [show 8 + (i - 8) = i by omega, BitVec.getLsbD_eq_getElem hi]
    · split
      · rw [show 10 + (i - 8 - 2) = i by omega, BitVec.getLsbD_eq_getElem hi]
      · rw [show 12 + (i - 8 - 2 - 2) = i by omega, BitVec.getLsbD_eq_getElem hi]

end Sys2Proof
end

