-- ==== Sys2Proof/Laws/HostProgram.lean ====
section
/-! SUPPORT. What a host program's accesses can do (R69, R100): an access is a step, after the core's turn where the schedule says
so, and `WAIT` ends with BUSY = 0 under every schedule. -/

namespace Sys2Proof.Machine

theorem andThen_next {α β : Type} {o : Host.Outcome α Fault Refusal} {f : α → Host.Outcome β Fault Refusal} {b : β}
    (h : andThen o f = .next b) : ∃ a, o = .next a ∧ f a = .next b := by
  cases o with
  | next a => exact ⟨a, rfl, h⟩
  | fault r => cases h
  | refused r => cases h

theorem HostRun.event_next {e : Event} {r t : HostRun} (h : r.event e = .next t) :
    ∃ u, step { r.state with agenda := [e] } = .next u ∧ t = { r with state := u, events := r.events ++ [e] } := by
  obtain ⟨u, hu, h⟩ := andThen_next h
  cases h
  exact ⟨u, hu, rfl⟩

/-- After the core's turn the machine is idle. -/
theorem coreTurn_next_idle {s t : State} (h : coreTurn s = .next t) : t.phase = .idle := by
  cases hp : s.phase with
  | idle => rw [coreTurn_idle hp] at h; cases h; exact hp
  | busy c =>
    rw [coreTurn_busy hp] at h
    cases hd : decode c with
    | error e => rw [completion_error hd] at h; cases h; rfl
    | ok i =>
      rw [completion_ok hd] at h
      rcases exec_cases h with ⟨e, -, rfl⟩ | ⟨u, rfl, -⟩ <;> rfl

/-- An access uses one schedule choice; a read leaves the phase; and where the choice is the core's turn, or none is left, a read
sees an idle machine. -/
theorem HostRun.read_next {o : BitVec 29} {r t : HostRun} (h : r.access (.read 4 o) = .next t) :
    t.sched = r.sched.tail ∧ (r.sched.headD true = true → t.state.phase = .idle) ∧
      ∃ u, t.state = State.access (.read 4 o) u ∧ u.phase = t.state.phase := by
  obtain ⟨r₁, h₁, h₂⟩ := andThen_next h
  obtain ⟨u, hu, rfl⟩ := HostRun.event_next h₂
  rw [step_host rfl] at hu
  have hphase : ∀ s : State, (s.access (.read 4 o)).phase = s.phase := by
    intro s
    unfold State.access
    split <;> rfl
  cases hu
  cases hs : r.sched.headD true with
  | false =>
    rw [hs] at h₁
    cases h₁
    exact ⟨rfl, fun h => (by simp at h), _, rfl, (hphase _).symm⟩
  | true =>
    rw [hs] at h₁
    obtain ⟨v, hv, rfl⟩ := HostRun.event_next h₁
    rw [step_core rfl] at hv
    have hi := coreTurn_next_idle hv
    exact ⟨rfl, fun _ => (hphase _).trans hi, _, rfl, (hphase _).symm⟩

/-- A read of STATUS of an idle machine sees BUSY = 0. -/
theorem HostRun.readBusy_of_idle {r : HostRun} {u : State} (h : r.state = State.access (.read 4 0x00C#29) u)
    (hi : u.phase = .idle) : r.readBusy = false := by
  have hb : u.busy = false := State.busy_eq_false.2 hi
  have hl : locate ((0x00C#29).toNat) = .status := rfl
  rw [HostRun.readBusy, h, State.access_read (by decide), hl, State.readLoc_idle hb]
  show u.statusWord.getLsbD 0 = false
  simp only [State.statusWord, hb, BitVec.getLsbD_append]
  rfl

/-- `WAIT` ends at a read that sees BUSY = 0, whatever the schedule (R100, R202). -/
theorem HostRun.wait_not_busy {r t : HostRun} (h : r.wait = .next t) : t.readBusy = false := by
  have key : ∀ (n : Nat) (r : HostRun), r.sched.length < n → r.poll n = .next t → t.readBusy = false := by
    intro n
    induction n with
    | zero => intro r hl; omega
    | succ n ih =>
      intro r hl h
      obtain ⟨r₁, h₁, h₂⟩ := andThen_next h
      obtain ⟨hs, hi, u, hu, hp⟩ := HostRun.read_next h₁
      cases hb : r₁.readBusy with
      | false => rw [hb] at h₂; cases h₂; exact hb
      | true =>
        rw [hb] at h₂
        refine ih r₁ ?_ h₂
        cases hr : r.sched with
        | nil =>
          have := HostRun.readBusy_of_idle hu (hp.trans (hi (by rw [hr]; rfl)))
          rw [hb] at this; cases this
        | cons b bs => rw [hs, hr]; rw [hr] at hl; simpa using hl
  exact key _ r (Nat.lt_succ_self _) h

end Sys2Proof.Machine
end

