-- ==== Sys2Proof/Laws/PerInstr.lean ====
section
/-! SUPPORT. Statements for all commands, one lemma per constructor. EncodesWellFormed: the fields of every command meet the four
conditions R95 puts on a command word. -/

namespace Sys2Proof.Laws.EncodesWellFormed

/-- The fields of the command meet the conditions of R95. -/
def Statement (i : Instr) : Prop := i.fields.wellFormed = true

theorem nop : Statement .nop := rfl
theorem hfreq (src : Buf) : Statement (.hfreq src) := by cases src <;> rfl
theorem htree : Statement .htree := rfl
theorem hcode : Statement .hcode := rfl
theorem henc (src : Buf) : Statement (.henc src) := by cases src <;> rfl
theorem hdec (dst : Buf) : Statement (.hdec dst) := by cases dst <;> rfl
theorem htser (dst : Buf) : Statement (.htser dst) := by cases dst <;> rfl
theorem htload (src : Buf) : Statement (.htload src) := by cases src <;> rfl
theorem bwtf (src dst : Buf) : Statement (.bwtf src dst) := by cases src <;> cases dst <;> rfl
theorem bwti (src dst : Buf) : Statement (.bwti src dst) := by cases src <;> cases dst <;> rfl
theorem mtfe (src dst : Buf) : Statement (.mtfe src dst) := by cases src <;> cases dst <;> rfl
theorem mtfd (src dst : Buf) : Statement (.mtfd src dst) := by cases src <;> cases dst <;> rfl
theorem rlee (src : Buf) : Statement (.rlee src) := by cases src <;> rfl
theorem rled (dst : Buf) : Statement (.rled dst) := by cases dst <;> rfl
theorem pack (dst : Buf) : Statement (.pack dst) := by cases dst <;> rfl
theorem unpack (src : Buf) : Statement (.unpack src) := by cases src <;> rfl

end Sys2Proof.Laws.EncodesWellFormed
end

