-- ==== Sys2Proof/Laws/Safety.lean ====
section
/-! SUPPORT. The predicates of Safety.lean on one concrete state: a check that evaluates, and that it implies the
predicate. -/

namespace Sys2Proof.Machine

/-- Evaluates `State.LengthsLegal`. -/
def lengthsCheck (s : State) : Bool :=
  decide (1 ≤ s.bufCap) && decide (s.bufCap ≤ Config.bufCapMax) &&
  [Buf.b0, .b1, .b2, .b3].all (fun k => decide ((s.len.get k).toNat ≤ s.bufCap)) &&
  decide (s.bitLen.toNat ≤ s.bitCap) && decide (s.alphaLen.toNat ≤ Config.alphaCap) &&
  decide (s.runLen.toNat ≤ s.runCap)

theorem lengthsLegal_of_check {s : State} (h : lengthsCheck s = true) : s.LengthsLegal := by
  simp only [lengthsCheck, Bool.and_eq_true, decide_eq_true_eq, List.all_cons, List.all_nil] at h
  obtain ⟨⟨⟨⟨⟨h₁, h₂⟩, h₃, h₄, h₅, h₆, -⟩, h₇⟩, h₈⟩, h₉⟩ := h
  exact ⟨h₁, h₂, fun k => by cases k <;> assumption, h₇, h₈, h₉⟩

/-- Evaluates the clauses of `State.ArenaOk` on one arena entry. -/
def nodeCheck (s : State) (n : Node) : Bool :=
  if n.leaf then n.left == Config.nil && n.right == Config.nil
  else n.sym == 0 &&
    match s.node? n.left.toNat, s.node? n.right.toNat with
    | some l, some r => decide (n.weight.toNat = l.weight.toNat + r.weight.toNat)
    | _, _ => false

/-- Evaluates the clause of `State.ArenaOk` on the tree. -/
def treeCheck (s : State) : Bool :=
  match s.tree? with
  | none => false
  | some t => decide (t.indices.Perm (List.range s.nodeCount.toNat)) && decide t.syms.Nodup

/-- Evaluates `State.ArenaOk`. -/
def arenaCheck (s : State) : Bool :=
  (if s.nodeCount = 0 then s.root == Config.nil else treeCheck s) &&
  (List.range s.nodeCount.toNat).all fun i => (s.node? i).all (nodeCheck s)

theorem State.node?_lt {s : State} {i : Nat} {n : Node} (h : s.node? i = some n) : i < s.nodeCount.toNat := by
  unfold State.node? at h
  split at h
  · assumption
  · cases h

theorem arenaOk_of_check {s : State} (h : arenaCheck s = true) : s.ArenaOk := by
  simp only [arenaCheck, Bool.and_eq_true, List.all_eq_true, List.mem_range] at h
  obtain ⟨ht, hn⟩ := h
  have hn' : ∀ i n, s.node? i = some n → nodeCheck s n = true := fun i n hi => by
    simpa [hi] using hn i (State.node?_lt hi)
  refine ⟨fun h0 => by simpa [h0] using ht, fun h0 => ?_, fun i n hi hl => ?_, fun i n hi hl => ?_⟩
  · rw [if_neg h0] at ht
    unfold treeCheck at ht
    split at ht
    · cases ht
    · rename_i t htree
      simp only [Bool.and_eq_true, decide_eq_true_eq] at ht
      exact ⟨t, htree, ht.1, ht.2⟩
  · simpa [nodeCheck, hl] using hn' i n hi
  · have := hn' i n hi
    simp only [nodeCheck, hl, Bool.false_eq_true, if_false, Bool.and_eq_true, beq_iff_eq] at this
    refine ⟨this.1, ?_⟩
    have h2 := this.2
    split at h2
    · rename_i l r hl' hr'
      exact ⟨l, r, hl', hr', by simpa using h2⟩
    · cases h2

/-- Evaluates `State.Sound`. -/
def soundCheck (s : State) : Bool :=
  lengthsCheck s &&
  decide (s.mem.wf ∧ Store.Below s.bufCap s.mem.buf.b0 ∧ Store.Below s.bufCap s.mem.buf.b1 ∧
    Store.Below s.bufCap s.mem.buf.b2 ∧ Store.Below s.bufCap s.mem.buf.b3) &&
  decide (Store.Below s.bitCap s.mem.bit ∧ Store.Below Config.alphaCap s.mem.alpha ∧ Store.Below s.runCap s.mem.run ∧
    Store.Below Config.nodeCap s.mem.node) &&
  (match s.phase with
    | .idle => true
    | .busy c => s.cmd == c && !s.done && s.err == .ok) &&
  decide ((s.freq.toList.map BitVec.toNat).sum ≤ s.bufCap) &&
  s.code.toList.all fun e => decide (e.cbits.toNat < 2 ^ e.clen.toNat)

theorem sound_of_check {s : State} (h : soundCheck s = true) : s.Sound := by
  simp only [soundCheck, Bool.and_eq_true, decide_eq_true_eq, List.all_eq_true] at h
  obtain ⟨⟨⟨⟨⟨hl, hw, h0, h1, h2, h3⟩, hb, ha, hr, hn⟩, hp⟩, hf⟩, hc⟩ := h
  refine ⟨lengthsLegal_of_check hl, ⟨hw, fun k => by cases k <;> assumption, hb, ha, hr, hn⟩, fun c hb => ?_, hf,
    fun e he j hj => ?_⟩
  · simpa [hb, and_assoc] using hp
  · rw [BitVec.getLsbD]
    exact Nat.testBit_lt_two_pow (Nat.lt_of_lt_of_le (hc e he) (Nat.pow_le_pow_right (by decide) hj))

end Sys2Proof.Machine
end

