-- ==== Sys2Proof/Tests/Slice0.lean ====
section
/-! SUPPORT. Tests: the checks of WellFormed, the decoder on words written out from R91 and R94, one step of every command on
the vectors of spec/95_test_vectors.md (each test names its vector), and a witness for every obligation with
hypotheses. -/

namespace Sys2Proof.Tests

open Sys2Proof Sys2Proof.Machine

-- One declaration at a time: the kernel checks of many small tests side by side run out of threads.
set_option Elab.async false

/-! ### States the tests start from -/

/-- A small HZC after reset, with `BUF_CAP = 8`. -/
def small : State := State.resetOf 8

/-- `small` with the block `xs` in buffer `k`. -/
def holding (k : Buf) (xs : List Byte) : State := small.putBlock k xs

/-- `s` with the bit string `bs` as its BitStream. -/
def withBits (bs : List Bool) (s : State) : State := (s.putBits bs).putBitLen bs.length

/-- `s` with one host access pending. -/
def asked (op : HostOp) (s : State) : State := { s with agenda := [.host op] }

/-- `small` while command word `c` executes. -/
def running (c : Word) : State := small.accept c

/-- The arena of V-H2: the leaves "a" and "b", and their parent, the root. -/
def pairArena : List ProtoNode := [.mkLeaf 0x61 1, .mkLeaf 0x62 1, .mkInner 2 0 1]

/-- The arena of V-H5 ("abbccc"): codes c = 0, a = 10, b = 11. -/
def tripleArena : List ProtoNode :=
  [.mkLeaf 0x61 1, .mkLeaf 0x62 2, .mkLeaf 0x63 3, .mkInner 3 0 1, .mkInner 6 2 3]

/-- The arena of V-H1: one leaf, "a". -/
def leafArena : List ProtoNode := [.mkLeaf 0x61 4]

/-- What `f` sees in the next state, if there is one. -/
def seen {σ α : Type} (f : σ → α) (o : Host.Outcome σ Fault Refusal) : Option α :=
  match o with
  | .next t => some (f t)
  | _ => none

/-- The next state, or `small` where there is none. -/
def after (o : Host.Outcome State Fault Refusal) : State := (seen id o).getD small

/-! ### WellFormed refuses an ill-formed term, by each check -/

theorem test_wf_rsvd_nonzero : (CmdFields.ofWord 0x00001000).wellFormed = false := by decide
theorem test_wf_op_reserved : (CmdFields.ofWord 0x000000FF).wellFormed = false := by decide
theorem test_wf_src_unused : (CmdFields.ofWord 0x00000102).wellFormed = false := by decide
theorem test_wf_dst_unused : (CmdFields.ofWord 0x00000401).wellFormed = false := by decide
theorem test_wf_accepts : (CmdFields.ofWord 0x00000D11).wellFormed = true := by decide
theorem test_wf_access_halfword : (HostOp.read 2 0x010#29).wellFormed = false := by decide
theorem test_wf_access_misaligned : (HostOp.write 4 0x012#29 0).wellFormed = false := by decide
theorem test_wf_access_accepts : (HostOp.write 4 0x1FFFFFFC#29 0).wellFormed = true := by decide

/-! ### Decoding: words written out as RSVD, DST, SRC, OP (R91, R94; V-N1, R98) -/

theorem test_decode_nop : decode 0b00000000000000000000_00_00_00000000 = .ok .nop := by decide
theorem test_decode_hfreq : decode 0b00000000000000000000_00_11_00000001 = .ok (.hfreq .b3) := by decide
theorem test_decode_htree : decode 0b00000000000000000000_00_00_00000010 = .ok .htree := by decide
theorem test_decode_hcode : decode 0b00000000000000000000_00_00_00000011 = .ok .hcode := by decide
theorem test_decode_henc : decode 0b00000000000000000000_00_01_00000100 = .ok (.henc .b1) := by decide
theorem test_decode_hdec : decode 0b00000000000000000000_10_00_00000101 = .ok (.hdec .b2) := by decide
theorem test_decode_htser : decode 0b00000000000000000000_01_00_00000110 = .ok (.htser .b1) := by decide
theorem test_decode_htload : decode 0b00000000000000000000_00_10_00000111 = .ok (.htload .b2) := by decide
theorem test_decode_bwtf : decode 0b00000000000000000000_01_00_00010000 = .ok (.bwtf .b0 .b1) := by decide
theorem test_decode_bwti : decode 0b00000000000000000000_11_01_00010001 = .ok (.bwti .b1 .b3) := by decide
theorem test_decode_mtfe : decode 0b00000000000000000000_10_01_00100000 = .ok (.mtfe .b1 .b2) := by decide
theorem test_decode_mtfd : decode 0b00000000000000000000_01_10_00100001 = .ok (.mtfd .b2 .b1) := by decide
theorem test_decode_rlee : decode 0b00000000000000000000_00_10_00110000 = .ok (.rlee .b2) := by decide
theorem test_decode_rled : decode 0b00000000000000000000_10_00_00110001 = .ok (.rled .b2) := by decide
theorem test_decode_pack : decode 0b00000000000000000000_11_00_01000000 = .ok (.pack .b3) := by decide
theorem test_decode_unpack : decode 0b00000000000000000000_00_11_01000001 = .ok (.unpack .b3) := by decide

/-- V-N1: reserved opcodes beside listed ones, and set bits the command does not use, decode to nothing. -/
theorem test_decode_reserved :
    ([0xFF, 0x08, 0x12, 0x42, 0x1000, 0x80000010, 0x100, 0x102, 0x401, 0xC41, 0x131].map
      (decodeTableWord 32)).all (· == none) = true := by decide

/-- A word placed for the next step runs as the first command after reset (R202). -/
theorem test_first_command_runs :
    seen (fun t => (t.statusWord, t.cmd)) (step (State.reset.withFetchWord 32 0x0)) = some (0x2, 0x0) := by decide

/-- R203: an unsupported word runs too, and reports UNSUPPORTED. -/
theorem test_unsupported_word :
    seen (fun t => (t.statusWord, t.cmd)) (step (State.reset.withFetchWord 32 0xFF)) = some (0x402, 0xFF) := by decide

/-! ### One step of every command -/

/-- V-N3. -/
theorem test_nop : seen (fun t => (t.statusWord, t.cmd)) (step (small.withFetchWord 32 0)) = some (2, 0) := by decide

/-- V-H3: "aab", in buffer 2. -/
theorem test_hfreq :
    seen (fun t => (t.freqAt 0x61, t.freqAt 0x62, t.freqAt 0x63)) (exec (.hfreq .b2) (holding .b2 [0x61, 0x61, 0x62])) =
      some (2, 1, 0) := by decide +kernel

/-- V-H3: the lighter leaf is taken first and becomes LEFT. -/
theorem test_htree_lighter_left :
    seen (fun t => (t.node? 2, t.nodeCount, t.root))
      (exec .htree (small.putFreq fun v => if v = 0x61 then 2 else if v = 0x62 then 1 else 0)) =
      some (some ⟨false, 0, 1, 0, 3⟩, 3, 2) := by decide +kernel

/-- V-H5: the tie at weight 3 between leaf 2 and node 3 goes to index 2. -/
theorem test_htree_tie :
    seen (fun t => (t.node? 3, t.node? 4))
      (exec .htree (small.putFreq fun v => if v = 0x61 then 1 else if v = 0x62 then 2 else if v = 0x63 then 3 else 0)) =
      some (some ⟨false, 0, 0, 1, 3⟩, some ⟨false, 0, 2, 3, 6⟩) := by decide +kernel

/-- V-H5: c = 0, a = 10, b = 11, first bit first. -/
theorem test_hcode :
    seen (fun t => ((t.codeAt 0x63).bits, (t.codeAt 0x61).bits, (t.codeAt 0x62).bits, (t.codeAt 0x64).bits))
      (exec .hcode (small.putArena tripleArena 4)) = some ([false], [true, false], [true, true], []) := by decide +kernel

/-- V-H1: the one-leaf tree has the code "0". -/
theorem test_hcode_one_leaf :
    seen (fun t => (t.codeAt 0x61).bits) (exec .hcode (small.putArena leafArena 0)) = some [false] := by decide +kernel

/-- V-C1 "aab": 110 with the codes a = 1, b = 0. -/
theorem test_henc :
    seen (fun t => (t.bits, t.bitLen))
      (exec (.henc .b1) ((holding .b1 [0x61, 0x61, 0x62]).putCode fun v =>
        if v = 0x61 then [true] else if v = 0x62 then [false] else [])) =
      some ([true, true, false], 3) := by decide +kernel

/-- V-C2: a byte with no code. -/
theorem test_henc_no_code :
    seen (fun t => (t.statusWord, t.bitLen))
      (exec (.henc .b0) ((holding .b0 [0x61, 0x62, 0x63]).putCode fun v =>
        if v = 0x61 then [false] else if v = 0x62 then [true] else [])) = some (0x502, 0) := by decide +kernel

/-- V-C5: the stream 11 on the tree of V-H2. -/
theorem test_hdec :
    seen (fun t => t.block .b3) (exec (.hdec .b3) (withBits [true, true] (small.putArena pairArena 2))) =
      some [0x62, 0x62] := by decide +kernel

/-- V-C7: a 1 bit on a one-leaf tree. -/
theorem test_hdec_missing_child :
    seen (fun t => (t.statusWord, t.len.b3)) (exec (.hdec .b3) (withBits [false, true, false] (small.putArena leafArena 0))) =
      some (0x202, 0) := by decide +kernel

/-- V-H14, V-H5: the preorder of the tree, not of the arena. -/
theorem test_htser :
    seen (fun t => t.block .b2) (exec (.htser .b2) (small.putArena tripleArena 4)) =
      some [0x00, 0x01, 0x63, 0x00, 0x01, 0x61, 0x01, 0x62] := by decide +kernel

/-- V-H14: the arena that "00 01 61 01 62" loads. -/
theorem test_htload :
    seen (fun t => (t.node? 0, t.node? 1, t.node? 2, t.nodeCount, t.root))
      (exec (.htload .b2) (holding .b2 [0x00, 0x01, 0x61, 0x01, 0x62])) =
      some (some ⟨false, 0, 1, 2, 0⟩, some ⟨true, 0x61, 0x1FF, 0x1FF, 0⟩, some ⟨true, 0x62, 0x1FF, 0x1FF, 0⟩, 3, 0) := by
  decide +kernel

/-- V-H14: a duplicate symbol. -/
theorem test_htload_duplicate :
    seen (fun t => (t.statusWord, t.nodeCount)) (exec (.htload .b2) (holding .b2 [0x00, 0x01, 0x61, 0x01, 0x61])) =
      some (0x202, 0) := by decide +kernel

/-- V-B1: "banana". -/
theorem test_bwtf :
    seen (fun t => (t.block .b1, t.origIndex))
      (exec (.bwtf .b0 .b1) (holding .b0 [0x62, 0x61, 0x6E, 0x61, 0x6E, 0x61])) =
      some ([0x6E, 0x6E, 0x62, 0x61, 0x61, 0x61], 3) := by decide +kernel

/-- V-B1, V-B7: bytes compare as unsigned numbers, and the source may be the destination. -/
theorem test_bwtf_unsigned_in_place :
    seen (fun t => t.block .b0) (exec (.bwtf .b0 .b0) (holding .b0 [0x00, 0xFF, 0x80])) = some [0x80, 0xFF, 0x00] := by
  decide +kernel

/-- V-B3. -/
theorem test_bwti :
    seen (fun t => t.block .b3)
      (exec (.bwti .b1 .b3) ((holding .b1 [0x6E, 0x6E, 0x62, 0x61, 0x61, 0x61]).putOrigIndex 3)) =
      some [0x62, 0x61, 0x6E, 0x61, 0x6E, 0x61] := by decide +kernel

/-- V-B5: an index equal to the length. -/
theorem test_bwti_format :
    seen (fun t => (t.statusWord, t.len.b3))
      (exec (.bwti .b1 .b3) ((holding .b1 [0x6E, 0x6E, 0x62, 0x61, 0x61, 0x61]).putOrigIndex 6)) = some (0x302, 0) := by
  decide +kernel

/-- V-M1: "banana". -/
theorem test_mtfe :
    seen (fun t => (t.block .b2, t.alphabet))
      (exec (.mtfe .b1 .b2) (holding .b1 [0x62, 0x61, 0x6E, 0x61, 0x6E, 0x61])) =
      some ([1, 1, 2, 1, 1, 1], [0x61, 0x62, 0x6E]) := by decide +kernel

/-- V-M4: an alphabet with a repeated byte. -/
theorem test_mtfd :
    seen (fun t => t.block .b1) (exec (.mtfd .b2 .b1) ((holding .b2 [1, 0, 1]).putAlphabet [0x61, 0x61, 0x62])) =
      some [0x61, 0x61, 0x61] := by decide +kernel

/-- V-M3: an index equal to ALPHA_LEN. -/
theorem test_mtfd_format :
    seen (fun t => (t.statusWord, t.len.b1)) (exec (.mtfd .b2 .b1) ((holding .b2 [0, 3]).putAlphabet [0x61, 0x62, 0x6E])) =
      some (0x302, 0) := by decide +kernel

/-- V-R1, row 1 (E4). -/
theorem test_rlee :
    seen (fun t => t.runs.map Run.toWord) (exec (.rlee .b2) (holding .b2 [0, 0, 0, 2, 2, 1])) =
      some [0x300, 0x202, 0x101] := by decide +kernel

/-- V-R4: equal neighbours. -/
theorem test_rled :
    seen (fun t => t.block .b3) (exec (.rled .b3) (small.putRuns [⟨7, 1⟩, ⟨7, 2⟩])) = some [7, 7, 7] := by decide +kernel

/-- V-R3: CAPACITY at run 0 comes before the count 0 of run 1. -/
theorem test_rled_first_error :
    seen State.statusWord (exec (.rled .b3) ((State.resetOf 4).putRuns [⟨0, 5⟩, ⟨1, 0⟩])) = some 0x602 := by
  decide +kernel

/-- V-P1: ten bits, padded with 0. -/
theorem test_pack :
    seen (fun t => t.block .b1)
      (exec (.pack .b1) (withBits [true, false, true, true, false, true, false, true, true, false] small)) =
      some [0xB5, 0x80] := by decide +kernel

/-- V-P2: the padding is ignored. -/
theorem test_unpack :
    seen (fun t => t.bits) (exec (.unpack .b1) ((holding .b1 [0xB5, 0xBF]).putBitLen 10)) =
      some [true, false, true, true, false, true, false, true, true, false] := by decide +kernel

/-- V-P2: a byte too few. -/
theorem test_unpack_format :
    seen State.statusWord (exec (.unpack .b1) ((holding .b1 [0xB5]).putBitLen 10)) = some 0x302 := by decide +kernel

/-! ### The window -/

/-- V-S1. -/
theorem test_reset_reads :
    [0x000, 0x004, 0x008, 0x00C, 0x010, 0x01C, 0x020, 0x030, 0x034, 0x040, 0x044, 0x048, 0x13FC, 0x7FC0].map
      (fun o => State.reset.readLoc (locate o)) =
      [0x485A4331, 0, 0, 0, 0, 0, 0, 0, 0x1FF, 4096, 32768, 4096, 0, 0] := by decide +kernel

/-- V-H4, V-H10: the words of a leaf, of an internal node and of a code. -/
theorem test_node_and_code_words :
    ((ProtoNode.mkLeaf 0x61 5).toNode.word 0, (ProtoNode.mkInner 11 0 7).toNode.word 0, (ProtoNode.mkInner 11 0 7).toNode.word 1,
      (CodeEntry.ofBits [true, false, true]).word 0, (CodeEntry.ofBits [true, false, true]).word 1) =
      (0x8187FFFF, 0x00000E00, 11, 3, 5) := by decide +kernel

/-- V-S2: a length register keeps its value when the written one is not legal. -/
theorem test_write_legal_lengths :
    ((small.writeIdle 8 (.len .b0)).len.b0, (small.writeIdle 9 (.len .b0)).len.b0, (small.writeIdle 256 .alphaLen).alphaLen,
      (small.writeIdle 257 .alphaLen).alphaLen, (small.writeIdle 65 .bitLen).bitLen,
      (small.writeIdle 0xFFFFFFFF .origIndex).origIndex) = (8, 0, 256, 0, 0, 0xFFFFFFFF) := by decide +kernel

/-- V-S4: write one to clear; ERR is read-only. -/
theorem test_status_write_one_to_clear :
    (({ small with done := true, ovr := true }.writeStatus 2).statusWord,
      ({ small with done := true, ovr := true }.writeStatus 4).statusWord,
      ({ small with done := true, err := .format }.writeStatus 0xFFFFFFFF).statusWord) = (4, 2, 0x300) := by decide +kernel

/-- V-S6: a write to CMD while busy sets OVR and starts nothing. -/
theorem test_busy_cmd_write :
    seen (fun t => (t.statusWord, t.cmd)) (step (asked (.write 4 0x008#29 2) (running 1))) = some (5, 1) := by decide +kernel

/-- V-S7: a refused access sets no flag. -/
theorem test_refused_access :
    seen (fun t => (t.resp, t.statusWord)) (step (asked (.read 4 0x012#29) (running 1))) =
      some (some (.error .misaligned), 1) := by decide +kernel

/-- P3: the lanes of a buffer word. -/
theorem test_buffer_lanes :
    ((small.writeIdle 0x616E6162 (.buf .b0 0)).writeIdle 0x0000616E (.buf .b0 1)).mem.buf.b0.map Prod.snd =
      [0x62, 0x61, 0x6E, 0x61, 0x6E, 0x61, 0x00, 0x00] := by decide +kernel

/-- R61: the bounds of each region of the map. -/
theorem test_map_bounds :
    [0x13FC, 0x2000, 0x2FF4, 0x4000, 0x7FFC, 0x80FC, 0x04000000, 0x08000000, 0x0C000000, 0x1BFFFFFC].map locate =
      [.freq 255, .node 0 0, .node 510 1, .code 0 0, .code 255 15, .alpha 63, .run 0, .bit 0, .buf .b0 0,
        .buf .b3 (2 ^ 24 - 1)] := by decide +kernel

/-- Program P7 after its first two lines: HFREQ races with a write of 1 to LEN0. -/
def raceProgram : List HostStmt := [.wr 0x008#29 1, .wr 0x010#29 1, .wait, .rd 0x00C#29, .rd 0x010#29]

/-- P7, outcome (a): the completion comes before the write of LEN0. -/
theorem test_race_completion_first :
    seen (fun r => r.results) (runProgram raceProgram (.start [false, true] (holding .b0 [0x61, 0x62]))) =
      some [.readData 2, .readData 1] := by decide +kernel

/-- P7, outcome (b): the write of LEN0 comes first, and is lost. -/
theorem test_race_write_first :
    seen (fun r => r.results) (runProgram raceProgram (.start [false, false] (holding .b0 [0x61, 0x62]))) =
      some [.readData 6, .readData 2] := by decide +kernel

/-- P6: an expectation is evaluated where it stands. -/
theorem test_expect_in_place :
    seen (fun r => r.expects)
      (runProgram [.loadb .b0 [0x61], .expect 0x010#29 1, .wr 0x010#29 0, .expect 0x010#29 1, .expect 0x010#29 0]
        (.start [] small)) = some [true, false, true] := by decide +kernel

/-- E5: compressing the empty block is a success, with the empty artifact, though ERR holds EMPTY_INPUT. -/
theorem test_compress_empty :
    seen (fun (r, report) => (report, r.state.err, r.state.len.b2, r.state.len.b1))
      (PseudoOp.run (.hzCompress .b0 .b2 .b1) (.start [] ((holding .b2 [7]).writeIdle 0 (.len .b0)))) =
      some (.success, .emptyInput, 0, 0) := by decide +kernel

/-- R26: issued while HTREE executes, the first command of a pseudo-operation is lost, OVR is set, and the host reports HTREE's
code. -/
theorem test_compress_while_busy :
    seen (fun (r, report) => (report, r.state.cmd, r.state.ovr))
      (PseudoOp.run (.hzCompress .b0 .b2 .b1) (.start [false] (running 2))) =
      some (.failed .emptyInput, 2, true) := by decide +kernel

/-- R102: the pseudo-operation's buffers must be distinct. -/
theorem test_pseudo_op_wf : (PseudoOp.hzCompress .b0 .b1 .b1).wellFormed = false := by decide

/-- R99: mnemonics are case-insensitive, and the source comes first. -/
theorem test_assemble :
    assemble ['B', 'w', 't', 'f'] [.b0, .b1] = some (.bwtf .b0 .b1) ∧ assemble ['N', 'O', 'P'] [.b0] = none := by decide

/-! ### Witnesses: for each obligation, states and operands that meet its hypotheses together -/

/-- An outcome that is a next state is that state. -/
theorem next_after {o : Host.Outcome State Fault Refusal} (h : (seen id o).isSome = true) : o = .next (after o) := by
  cases o <;> simp_all [seen, after]

/-- `small` with the tree of V-H5 and its codes c = 0, a = 10, b = 11. -/
def tripled : State := small.putArena tripleArena 4

/-- `small` with the one-leaf tree of V-H1. -/
def leafed : State := small.putArena leafArena 0

theorem witness_ArenaOk_none : small.ArenaOk ∧ small.nodeCount = 0 := ⟨arenaOk_of_check (by decide +kernel), by decide +kernel⟩
theorem witness_ArenaOk_leaf : leafed.ArenaOk ∧ leafed.nodeCount = 1 := ⟨arenaOk_of_check (by decide +kernel), by decide +kernel⟩
theorem witness_ArenaOk_inner : tripled.ArenaOk ∧ tripled.nodeCount = 5 :=
  ⟨arenaOk_of_check (by decide +kernel), by decide +kernel⟩

theorem witness_DecodeIsTheOpcodeTable :
    (⟨"HFREQ", 0x01, 0xFFFFFCFF⟩ : OpRow) ∈ opTable ∧ decode 0x00000301 = .ok (.hfreq .b3) ∧
    (∀ row ∈ opTable, (0x000000FF : Word) &&& row.mask ≠ row.value) ∧ decode 0x000000FF = .error .reservedOp := by decide

theorem witness_ReservedEncodingsAreIllegal :
    decode 0x80000000 = .error .rsvdNonzero ∧ decode 0x00000042 = .error .reservedOp ∧
    decode 0x00000340 = .error .unusedSrc ∧ decode 0x00000C41 = .error .unusedDst := by decide

theorem witness_UnsupportedWordCompletes :
    decode 0x000000FF = .error .reservedOp ∧ small.phase = .idle ∧
    ({ small with agenda := [.host (.write 4 0x008#29 0xFF), .core] } : State).agenda =
      .host (.write 4 0x008#29 0xFF) :: .core :: [] := by decide

theorem witness_OnlyAnIdleCmdWriteStartsACommand :
    (asked (.write 4 0x008#29 1) small).phase = .idle ∧
    (asked (.write 4 0x008#29 1) small).agenda = .host (.write 4 0x008#29 1) :: [] ∧
    (asked (.write 4 0x008#29 2) (running 1)).phase = .busy 1 ∧
    seen State.phase (step (asked (.write 4 0x008#29 1) small)) = some (.busy 1) := by decide +kernel

theorem witness_StepRunsDecodedCommand :
    (running 0x301).phase = .busy 0x301 ∧ decode 0x301 = .ok (.hfreq .b3) ∧
    ({ running 0x301 with agenda := [.core] } : State).agenda = .core :: [] ∧ (running 0x301).agenda = [] ∧
    ({ small with agenda := [.core] } : State).phase = .idle ∧ decodeTableWord 32 0x301 = some (.hfreq .b3) := by
  decide +kernel

theorem witness_CompletionMarksStatus :
    (∃ t, exec (.hfreq .b0) (running 1) = .next t) ∧ ∃ t, completion 0xFF (running 0xFF) = .next t :=
  ⟨⟨_, next_after (by decide +kernel)⟩, _, next_after (by decide +kernel)⟩

theorem witness_FailureChangesOnlyStatus :
    (∃ t, exec .htree small = .next t ∧ t.err ≠ .ok) ∧ ∃ t, completion 0xFF small = .next t ∧ t.err ≠ .ok :=
  ⟨⟨_, next_after (by decide +kernel), by decide +kernel⟩, _, next_after (by decide +kernel), by decide +kernel⟩

/-- Every code a command can report is reported somewhere. -/
theorem witness_ErrorCodesByCommand :
    [exec .nop small, exec .htree small, exec (.hdec .b0) (withBits [true] small),
      exec (.bwti .b0 .b1) ((holding .b0 [0]).putOrigIndex 1), exec (.henc .b0) (holding .b0 [0]),
      exec (.htser .b0) { tripled with bufCap := 7 }].map (seen State.err) =
      [some .ok, some .emptyInput, some .corruptStream, some .format, some .noCode, some .capacity] := by decide +kernel

theorem witness_EveryCommandCompletes : small.ArenaOk ∧ leafed.ArenaOk ∧ tripled.ArenaOk :=
  ⟨witness_ArenaOk_none.1, witness_ArenaOk_leaf.1, witness_ArenaOk_inner.1⟩

theorem witness_NopDoesNothing : (0x00000100#32).extractLsb' 0 8 = 0 ∧ 0x00000100#32 ≠ 0 := by decide

/-- A block shorter than the one before it: index 1 is at the new length of buffer 1 and keeps its byte. -/
theorem witness_CommandsKeepStaleStorage :
    ((holding .b1 [7, 7]).putBlock .b0 [5]).LengthsLegal ∧
    ∃ t, exec (.bwtf .b0 .b1) ((holding .b1 [7, 7]).putBlock .b0 [5]) = .next t ∧
      (t.len.get .b1).toNat ≤ 1 ∧ Store.get (t.mem.buf.get .b1) 1 = some 7 :=
  ⟨lengthsLegal_of_check (by decide +kernel), _, next_after (by decide +kernel), by decide +kernel, by decide +kernel⟩

/-- Each clause: the command named there changes that piece. -/
theorem witness_SideInformationWriters :
    seen State.origIndex (exec (.bwtf .b0 .b1) (holding .b0 [9, 8])) = some 1 ∧ small.origIndex = 0 ∧
    seen State.alphaLen (exec (.mtfe .b0 .b1) (holding .b0 [9, 8])) = some 2 ∧ small.alphaLen = 0 ∧
    seen State.bitLen (exec (.henc .b0) ((holding .b0 [9]).putCode fun _ => [true])) = some 1 ∧ small.bitLen = 0 ∧
    seen (fun t => t.mem.bit) (exec (.unpack .b0) ((holding .b0 [0x80]).putBitLen 1)) = some [(0, true)] ∧
    seen State.runLen (exec (.rlee .b0) (holding .b0 [9, 8])) = some 2 ∧ small.runLen = 0 ∧
    seen State.nodeCount (exec (.htload .b0) (holding .b0 [1, 9])) = some 1 ∧ small.nodeCount = 0 ∧
    seen (fun t => t.freqAt 9) (exec (.hfreq .b0) (holding .b0 [9, 8])) = some 1 ∧ small.freqAt 9 = 0 ∧
    seen (fun t => t.codeAt 0x61) (exec .hcode leafed) = some ⟨1, 0⟩ ∧ small.codeAt 0x61 = ⟨0, 0⟩ := by decide +kernel

theorem witness_HtreeFailsOnlyOnEmptyTable :
    (∀ v : Fin 256, small.freq[v] = 0) ∧
    ((small.putFreq fun v => if v = 0x61 then 4 else 0).freq.toList.filter (· ≠ 0)).length = 1 := by decide +kernel

theorem witness_HtreeMergesSmallestKeys :
    (small.putFreq fun v => if v = 0x61 then 2 else if v = 0x62 then 1 else 0).FreqBounded ∧ small.bufCap ≤ Config.bufCapMax ∧
    (∃ t, exec .htree (small.putFreq fun v => if v = 0x61 then 2 else if v = 0x62 then 1 else 0) = .next t ∧ t.err = .ok ∧
      2 < t.nodeCount.toNat) ∧
    (List.range 256).filter (fun v =>
      (small.putFreq fun v => if v = 0x61 then 2 else if v = 0x62 then 1 else 0).freqAt v ≠ 0) = [0x61, 0x62] :=
  ⟨by unfold State.FreqBounded; decide +kernel, by decide +kernel,
    ⟨_, next_after (by decide +kernel), by decide +kernel, by decide +kernel⟩, by decide +kernel⟩

theorem witness_IsCode : tripled.IsCode 0x63 [false] ∧ tripled.IsCode 0x61 [true, false] ∧ leafed.IsCode 0x61 [false] :=
  ⟨⟨2, ⟨true, 0x63, Config.nil, Config.nil, 3⟩, by decide +kernel, rfl, rfl, .inr (by decide +kernel)⟩,
    ⟨0, ⟨true, 0x61, Config.nil, Config.nil, 1⟩, by decide +kernel, rfl, rfl, .inr (by decide +kernel)⟩,
    ⟨0, ⟨true, 0x61, Config.nil, Config.nil, 4⟩, by decide +kernel, rfl, rfl, .inl (by decide +kernel)⟩⟩

/-- A tree and no tree, a byte with a code and one without. -/
theorem witness_HcodeWritesPathCodes :
    (small.ArenaOk ∧ small.nodeCount = 0) ∧ tripled.ArenaOk ∧ tripled.nodeCount ≠ 0 ∧ tripled.IsCode 0x61 [true, false] ∧
    ∀ p, ¬ tripled.IsCode 0x64 p := by
  refine ⟨witness_ArenaOk_none, witness_ArenaOk_inner.1, by decide +kernel, witness_IsCode.2.1, ?_⟩
  rintro p ⟨i, n, hi, -, hs, -⟩
  have h : ∀ i, i < 5 → ∀ n ∈ tripled.node? i, n.sym ≠ 0x64 := by decide +kernel
  exact h i (State.node?_lt hi) n hi hs

theorem witness_HcodeIsPrefixFree :
    tripled.ArenaOk ∧ ∃ t, exec .hcode tripled = .next t ∧ (t.codeAt 0x61).clen ≠ 0 ∧ (t.codeAt 0x62).clen ≠ 0 :=
  ⟨witness_ArenaOk_inner.1, _, next_after (by decide +kernel), by decide +kernel, by decide +kernel⟩

/-- The serialised tree is eight bytes: it fits a capacity of 8 and not one of 7. -/
theorem witness_HtserWritesSerialForm :
    tripled.ArenaOk ∧ tripled.nodeCount ≠ 0 ∧ ({ tripled with bufCap := 7 } : State).ArenaOk ∧
    seen State.err (exec (.htser .b0) tripled) = some .ok ∧
    seen State.err (exec (.htser .b0) { tripled with bufCap := 7 }) = some .capacity :=
  ⟨witness_ArenaOk_inner.1, by decide +kernel, arenaOk_of_check (by decide +kernel), by decide +kernel, by decide +kernel⟩

theorem witness_HtloadAcceptsSerialTrees :
    small.block .b2 = [] ∧
    (Machine.Tree.node 0 (.leaf 0 0x61) (.leaf 0 0x62)).syms.Nodup ∧
    (Machine.Tree.node 0 (.leaf 0 0x61) (.leaf 0 0x62)).ser = (holding .b2 [0x00, 0x01, 0x61, 0x01, 0x62]).block .b2 ∧
    (holding .b2 [0x02]).block .b2 ≠ [] ∧
    ¬ ∃ tr : Machine.Tree, tr.syms.Nodup ∧ tr.ser = (holding .b2 [0x02]).block .b2 := by
  refine ⟨by decide +kernel, by decide +kernel, by decide +kernel, by decide +kernel, ?_⟩
  rintro ⟨tr, -, h⟩
  rw [show (holding .b2 [0x02]).block .b2 = [0x02] by decide +kernel] at h
  cases tr <;> simp [Tree.ser] at h

theorem witness_HtserAfterHtloadReproduces :
    (holding .b2 [0x01, 0x61]).LengthsLegal ∧
    ∃ t, exec (.htload .b2) (holding .b2 [0x01, 0x61]) = .next t ∧ t.err = .ok :=
  ⟨lengthsLegal_of_check (by decide +kernel), _, next_after (by decide +kernel), by decide +kernel⟩

/-- Codes of 8 and of 9 bits, with `BIT_CAP = 8`. -/
theorem witness_HencConcatenatesCodes :
    (State.resetOf 1).bufCap ≤ Config.bufCapMax ∧
    (∃ v ∈ (holding .b0 [0x61]).block .b0, ((holding .b0 [0x61]).codeAt v).clen = 0) ∧
    seen State.err (exec (.henc .b0) (((State.resetOf 1).putBlock .b0 [0x61]).putCode fun _ => List.replicate 8 true)) =
      some .ok ∧
    seen State.err (exec (.henc .b0) (((State.resetOf 1).putBlock .b0 [0x61]).putCode fun _ => List.replicate 9 true)) =
      some .capacity := by decide +kernel

theorem witness_HdecEmptyStreamOrNoTree :
    small.bitLen = 0 ∧ tripled.bitLen = 0 ∧ (withBits [true] small).bitLen ≠ 0 ∧ (withBits [true] small).nodeCount = 0 := by
  decide +kernel

theorem isCode_withBits {s : State} {bs : List Bool} {v : Byte} {p : List Bool} (h : s.IsCode v p) :
    (withBits bs s).IsCode v p := by
  have hf : ∀ (p : List Bool) (i : Nat), (withBits bs s).follow i p = s.follow i p := by
    intro p
    induction p with
    | nil => intro i; rfl
    | cons b p ih => intro i; simp only [State.follow, ih]; rfl
  obtain ⟨i, n, h1, h2, h3, h4⟩ := h
  refine ⟨i, n, h1, h2, h3, ?_⟩
  rw [hf]
  exact h4

theorem witness_HdecDecodesCodeStreams :
    (withBits [false, true, false] tripled).ArenaOk ∧
    List.Forall₂ (withBits [false, true, false] tripled).IsCode [0x63, 0x61] [[false], [true, false]] ∧
    (withBits [false, true, false] tripled).bits = [[false], [true, false]].flatten :=
  ⟨arenaOk_of_check (by decide +kernel),
    .cons (isCode_withBits witness_IsCode.1) (.cons (isCode_withBits witness_IsCode.2.1) .nil), by decide +kernel⟩

/-- Each clause: a code too many for a capacity of 1, a 1 bit of a one-leaf tree, and an end inside a code. -/
theorem witness_HdecReportsTheFirstError :
    (({ withBits [false, false] leafed with bufCap := 1 } : State).ArenaOk ∧
      ({ withBits [false, false] leafed with bufCap := 1 } : State).bits = [[false]].flatten ++ [false] ∧
      List.Forall₂ ({ withBits [false, false] leafed with bufCap := 1 } : State).IsCode [0x61] [[false]]) ∧
    ((withBits [false, true] leafed).ArenaOk ∧ (withBits [false, true] leafed).bits = [[false]].flatten ++ [true] ∧
      List.Forall₂ (withBits [false, true] leafed).IsCode [0x61] [[false]]) ∧
    ((withBits [true] tripled).ArenaOk ∧ (withBits [true] tripled).bits = [].flatten ++ [true] ∧
      (withBits [true] tripled).follow (withBits [true] tripled).root.toNat [true] = some 3 ∧
      (withBits [true] tripled).node? 3 = some ⟨false, 0, 0, 1, 3⟩) :=
  ⟨⟨arenaOk_of_check (by decide +kernel), by decide +kernel, .cons (isCode_withBits witness_IsCode.2.2) .nil⟩,
    ⟨arenaOk_of_check (by decide +kernel), by decide +kernel, .cons (isCode_withBits witness_IsCode.2.2) .nil⟩,
    ⟨arenaOk_of_check (by decide +kernel), by decide +kernel, by decide +kernel, by decide +kernel⟩⟩

/-- `tripled` with the block "ca" in buffer 0. -/
def tripledCa : State := tripled.putBlock .b0 [0x63, 0x61]

theorem witness_HuffmanRoundTrip :
    tripledCa.LengthsLegal ∧ tripledCa.ArenaOk ∧
    ∃ t u, exec .hcode tripledCa = .next t ∧ exec (.henc .b0) t = .next u ∧ u.err = .ok :=
  ⟨lengthsLegal_of_check (by decide +kernel), arenaOk_of_check (by decide +kernel), _, _, next_after (by decide +kernel),
    next_after (by decide +kernel), by decide +kernel⟩

theorem witness_OwnCodesCoverTheBlock :
    (holding .b0 [0x63, 0x61]).LengthsLegal ∧ (holding .b0 [0x63, 0x61]).BlockWritten .b0 ∧
    ∃ a b c, exec (.hfreq .b0) (holding .b0 [0x63, 0x61]) = .next a ∧ exec .htree a = .next b ∧ b.err = .ok ∧
      exec .hcode b = .next c :=
  ⟨lengthsLegal_of_check (by decide +kernel), by unfold State.BlockWritten; decide +kernel, _, _, _,
    next_after (by decide +kernel), next_after (by decide +kernel), by decide +kernel, next_after (by decide +kernel)⟩

theorem witness_BwtfSortsRotations :
    small.block .b0 = [] ∧ (holding .b0 [0x62, 0x61]).block .b0 = [0x62, 0x61] := by decide +kernel

/-- Each clause: the empty block, the last legal index and the first illegal one. -/
theorem witness_BwtiFollowsLinks :
    small.block .b0 = [] ∧ ((holding .b0 [0x62, 0x61]).putOrigIndex 1).origIndex.toNat < 2 ∧
    2 ≤ ((holding .b0 [0x62, 0x61]).putOrigIndex 2).origIndex.toNat ∧ (holding .b0 [0x62, 0x61]).block .b0 = [0x62, 0x61] := by
  decide +kernel

theorem witness_BwtRoundTrip : ∃ t, exec (.bwtf .b0 .b1) (holding .b0 [0x62, 0x61]) = .next t := ⟨_, next_after (by decide +kernel)⟩

theorem witness_MtfeWritesPositions : (holding .b0 [0xFF, 0x00]).block .b0 = [0xFF, 0x00] := by decide +kernel

/-- Each clause: the last index inside an alphabet of three and the first one outside it. -/
theorem witness_MtfdLooksUpPositions :
    (∃ p ∈ (holding .b0 [0, 3]).block .b0, ((holding .b0 [0, 3]).putAlphabet [1, 2, 3]).alphaLen.toNat ≤ p.toNat) ∧
    (∀ p ∈ (holding .b0 [0, 2]).block .b0, p.toNat < ((holding .b0 [0, 2]).putAlphabet [1, 2, 3]).alphaLen.toNat) := by
  decide +kernel

theorem witness_MtfRoundTrip : ∃ t, exec (.mtfe .b0 .b1) (holding .b0 [0x62, 0x61]) = .next t := ⟨_, next_after (by decide +kernel)⟩

theorem witness_RleeWritesMaximalRuns : (holding .b0 [7, 7, 5]).LengthsLegal := lengthsLegal_of_check (by decide +kernel)

/-- Each clause, with `BUF_CAP = 8`: runs that just fit, a zero count after a full buffer, and one byte too many. -/
theorem witness_RledExpandsRuns :
    (small.putRuns [⟨7, 5⟩, ⟨6, 3⟩]).runs = [⟨7, 5⟩, ⟨6, 3⟩] ∧
    (small.putRuns [⟨7, 8⟩, ⟨6, 0⟩]).runs = [⟨7, 8⟩] ++ ⟨6, 0⟩ :: [] ∧
    (small.putRuns [⟨7, 8⟩, ⟨6, 1⟩]).runs = [⟨7, 8⟩] ++ ⟨6, 1⟩ :: [] ∧
    (([⟨7, 8⟩] : List Run).map fun g => g.count.toNat).sum ≤ small.bufCap ∧
    small.bufCap < (([⟨7, 8⟩] : List Run).map fun g => g.count.toNat).sum + 1 := by decide +kernel

theorem witness_RleRoundTrip :
    (holding .b0 [7, 7, 5]).LengthsLegal ∧ ∃ t, exec (.rlee .b0) (holding .b0 [7, 7, 5]) = .next t :=
  ⟨lengthsLegal_of_check (by decide +kernel), _, next_after (by decide +kernel)⟩

/-- Each clause: eight bits take one byte and nine take two. -/
theorem witness_UnpackReadsMsbFirst :
    ((holding .b0 [0xFF]).len.get .b0).toNat = (((holding .b0 [0xFF]).putBitLen 8).bitLen.toNat + 7) / 8 ∧
    ((holding .b0 [0xFF]).len.get .b0).toNat ≠ (((holding .b0 [0xFF]).putBitLen 9).bitLen.toNat + 7) / 8 := by decide +kernel

theorem witness_PackUnpackRoundTrip : ∃ t, exec (.pack .b1) (withBits [true, false, true] small) = .next t :=
  ⟨_, next_after (by decide +kernel)⟩

theorem witness_SourceMayBeDestination :
    Instr.mtfe ∈ [Instr.bwtf, Instr.bwti, Instr.mtfe, Instr.mtfd] ∧
    ∃ t u, exec (.mtfe .b0 .b0) (holding .b0 [7, 5]) = .next t ∧ exec (.mtfe .b0 .b1) (holding .b0 [7, 5]) = .next u ∧
      t.err = .ok :=
  ⟨by simp, _, _, next_after (by decide +kernel), next_after (by decide +kernel), by decide +kernel⟩

theorem witness_StatusFieldsAndWrites :
    (asked (.write 4 0x00C#29 6) (running 1)).agenda = .host (.write 4 0x00C#29 6) :: [] := by decide

/-- Each clause; OVR falls by a write to STATUS and by reset. -/
theorem witness_BusyWritesAreLostAndFlagged :
    (asked (.write 4 0x010#29 1) (running 1)).phase = .busy 1 ∧ (0x010#29).toNat % 4 = 0 ∧ 0x010#29 ≠ 0x004#29 ∧
    0x010#29 ≠ 0x00C#29 ∧ (asked (.write 4 0x010#29 1) (running 1)).agenda = .host (.write 4 0x010#29 1) :: [] ∧
    (asked (.read 4 0x010#29) (running 1)).agenda = .host (.read 4 0x010#29) :: [] ∧
    seen State.ovr (step (asked (.write 4 0x00C#29 4) { running 1 with ovr := true })) = some false ∧
    seen State.ovr (step { running 1 with ovr := true, agenda := [.reset] }) = some false := by decide +kernel

theorem witness_RefusedAccessesChangeNothing :
    (HostOp.write 2 0x010#29 1).bytes ≠ 4 ∧ (HostOp.read 8 0x010#29).bytes ≠ 4 ∧ (HostOp.read 4 0x012#29).off.toNat % 4 ≠ 0 ∧
    (asked (.read 4 0x012#29) small).agenda = .host (.read 4 0x012#29) :: [] := by decide +kernel

theorem witness_ReadsHaveNoSideEffects :
    (0x1FFFFFFC#29).toNat % 4 = 0 ∧ (asked (.read 4 0x1FFFFFFC#29) small).agenda = .host (.read 4 0x1FFFFFFC#29) :: [] := by
  decide +kernel

theorem witness_LengthRegistersStayLegal :
    (asked (.write 4 0x020#29 65) small).LengthsLegal ∧ ∃ t, step (asked (.write 4 0x020#29 65) small) = .next t :=
  ⟨lengthsLegal_of_check (by decide +kernel), _, rfl⟩

/-- Each clause, at the largest legal value and the first illegal one. -/
theorem witness_LengthRegistersTakeLegalValues :
    BitVec.ofNat 29 (0x010 + 4 * Buf.b3.toNat) = 0x01C#29 ∧ small.phase = .idle ∧ (8#32).toNat ≤ small.bufCap ∧
    small.bufCap < (9#32).toNat ∧ (64#32).toNat ≤ 8 * small.bufCap ∧ 8 * small.bufCap < (65#32).toNat ∧
    (asked (.write 4 0x01C#29 9) small).agenda = .host (.write 4 0x01C#29 9) :: [] ∧
    (asked (.write 4 0x024#29 0xFFFFFFFF) small).agenda = .host (.write 4 0x024#29 0xFFFFFFFF) :: [] := by decide +kernel

/-- Both ends of every range of read-only offsets. -/
theorem witness_ReadOnlyLocationsIgnoreWrites :
    ∀ o ∈ [0x000, 0x030, 0x034, 0x040, 0x048, 0x1000, 0x13FC, 0x2000, 0x2FF4, 0x4000, 0x7FFC],
      (BitVec.ofNat 29 o).toNat % 4 = 0 ∧
      (o ∈ [0x000, 0x030, 0x034, 0x040, 0x044, 0x048] ∨ (0x1000 ≤ o ∧ o < 0x1400) ∨ (0x2000 ≤ o ∧ o < 0x2FF8) ∨
        (0x4000 ≤ o ∧ o < 0x8000)) ∧
      (asked (.write 4 (BitVec.ofNat 29 o) 7) (running 1)).agenda = .host (.write 4 (BitVec.ofNat 29 o) 7) :: [] := by
  decide +kernel

/-- Both ends of every range of unassigned offsets. -/
theorem witness_UnassignedOffsetsReadZero :
    ∀ o ∈ [0x038, 0x03C, 0x04C, 0xFFC, 0x1400, 0x1FFC, 0x2FF8, 0x3FFC, 0x8100, 0x03FFFFFC, 0x1C000000, 0x1FFFFFFC],
      (BitVec.ofNat 29 o).toNat % 4 = 0 ∧
      (o ∈ [0x038, 0x03C] ∨ (0x048 < o ∧ o < 0x1000) ∨ (0x1400 ≤ o ∧ o < 0x2000) ∨ (0x2FF8 ≤ o ∧ o < 0x4000) ∨
        (0x8100 ≤ o ∧ o < 0x04000000) ∨ 0x1C000000 ≤ o) ∧
      (asked (.read 4 (BitVec.ofNat 29 o)) small).agenda = .host (.read 4 (BitVec.ofNat 29 o)) :: [] := by
  decide +kernel

/-- The first word, the last word below the capacity 8, the one after it, and the last word of the window of buffer 3; and the
last valid byte. -/
theorem witness_BufferWordsAreLittleEndian :
    small.phase = .idle ∧ 4 * 0 + 1 < ((holding .b3 [7, 9]).len.get .b3).toNat ∧
    Store.get ((holding .b3 [7, 9]).mem.buf.get .b3) (4 * 0 + 1) = some 9 ∧
    ∀ w ∈ [0, 1, 2, 2 ^ 24 - 1], w < 2 ^ 24 ∧
      locate (BitVec.ofNat 29 (0x0C000000 + 0x04000000 * Buf.b3.toNat + 4 * w)).toNat = .buf .b3 w := by decide +kernel

/-- The first word, the last word below the capacity of 64 bits, the one after it, and the last word of the window. -/
theorem witness_BitWordsMapBitForBit :
    small.phase = .idle ∧ 32 * 0 + 1 < (withBits [false, true] small).bitLen.toNat ∧
    Store.get (withBits [false, true] small).mem.bit (32 * 0 + 1) = some true ∧
    ∀ w ∈ [0, 1, 2, 2 ^ 24 - 1], w < 2 ^ 24 ∧ locate (BitVec.ofNat 29 (0x08000000 + 4 * w)).toNat = .bit w := by
  decide +kernel

/-- The first and the last word of both windows, the run words at either side of the capacity 8, and a valid entry of each. -/
theorem witness_RunAndAlphaWords :
    small.phase = .idle ∧
    (∀ j ∈ [0, 7, 8, 2 ^ 24 - 1], j < 2 ^ 24 ∧ locate (BitVec.ofNat 29 (0x04000000 + 4 * j)).toNat = .run j) ∧
    (∀ w ∈ [0, 63], w < 64 ∧ locate (BitVec.ofNat 29 (0x8000 + 4 * w)).toNat = .alpha w) ∧
    0 < (small.putRuns [⟨5, 3⟩]).runLen.toNat ∧ 0 < (small.putAlphabet [5]).alphaLen.toNat ∧
    Store.get (small.putAlphabet [5]).mem.alpha 0 = some 5 ∧
    Store.get (small.putRuns [⟨5, 3⟩]).mem.run 0 = some ⟨(0x00000305#32).extractLsb' 0 8, (0x00000305#32).extractLsb' 8 24⟩ := by
  decide +kernel

/-- Idle states with a leaf, an inner entry and, at the last index, no valid entry. -/
theorem witness_RegistersAndTablesReadAsTheyAre :
    tripled.phase = .idle ∧ tripled.node? 0 = some ⟨true, 0x61, 0x1FF, 0x1FF, 1⟩ ∧
    tripled.node? 4 = some ⟨false, 0, 2, 3, 6⟩ ∧ tripled.node? 510 = none := by decide +kernel

theorem witness_ResetAbortsEverything : ({ running 1 with agenda := [.reset] } : State).agenda = .reset :: [] := rfl

/-- Each clause that has hypotheses: IRQ is up, and the write drops it. -/
theorem witness_InterruptLine :
    ({ small with done := true, irqEn := true } : State).irq = true ∧ (2#32).getLsbD 1 = true ∧
    (asked (.write 4 0x00C#29 2) { small with done := true, irqEn := true }).agenda = .host (.write 4 0x00C#29 2) :: [] ∧
    (asked (.write 4 0x008#29 1) { small with done := true, irqEn := true }).agenda = .host (.write 4 0x008#29 1) :: [] ∧
    seen State.irq (exec .nop { small with irqEn := true }) = some true ∧
    seen State.irq (completion 0xFF { small with irqEn := true }) = some true := by decide +kernel

theorem witness_InputsAreStableWhileBusy :
    ∃ t, (asked (.write 4 0x010#29 1) (running 1)).phase = .busy 1 ∧
      (asked (.write 4 0x010#29 1) (running 1)).agenda = .host (.write 4 0x010#29 1) :: [] ∧
      step (asked (.write 4 0x010#29 1) (running 1)) = .next t := ⟨_, rfl, rfl, rfl⟩

theorem witness_ResetIsSound : 1 ≤ 1 ∧ 1 ≤ 2 ^ 24 - 1 ∧ 2 ^ 24 - 1 ≤ 2 ^ 24 - 1 := by decide

/-- A busy state with a block, a tree, codes and a BitStream. -/
def busyFull : State := (withBits [false, true, false] tripledCa).accept 0x0C05

theorem witness_StepKeepsSound : busyFull.Sound ∧ ∃ t, step busyFull = .next t :=
  ⟨sound_of_check (by decide +kernel), _, next_after (by decide +kernel)⟩

theorem witness_StepKeepsArena : busyFull.Sound ∧ busyFull.ArenaOk ∧ ∃ t, step busyFull = .next t :=
  ⟨witness_StepKeepsSound.1, arenaOk_of_check (by decide +kernel), witness_StepKeepsSound.2⟩

theorem witness_ArenaCountsItsLeaves : tripled.ArenaOk ∧ tripled.nodeCount ≠ 0 :=
  ⟨witness_ArenaOk_inner.1, by decide +kernel⟩

end Sys2Proof.Tests
end

/-! ## How much each command writes

The length of every output is bounded by the length of the input it is computed from, or by the check that guards it. -/

namespace Sys2Proof.Machine

/-! ### HFREQ: the counts of a block (R110) -/

theorem byteValues_nodup : ((List.range 256).map (BitVec.ofNat 8)).Nodup :=
  List.Nodup.map_on (fun i hi j hj h => by
    rw [List.mem_range] at hi hj
    rw [← toNat_ofNat_of_lt (n := 8) hi, h, toNat_ofNat_of_lt hj]) List.nodup_range

theorem mem_byteValues (v : Byte) : v ∈ (List.range 256).map (BitVec.ofNat 8) :=
  List.mem_map.2 ⟨v.toNat, List.mem_range.2 v.isLt, by simp⟩

/-- Every byte of a block is counted once. -/
theorem sum_byteCount (b : List Byte) : ((List.range 256).map (byteCount b)).sum = b.length := by
  have hsum : ((List.range 256).map (byteCount b)).sum =
      (((List.range 256).map (BitVec.ofNat 8)).map fun v => (b : Multiset Byte).count v).sum := by
    rw [List.map_map]
    exact congrArg List.sum (List.map_congr_left fun _ _ => (Multiset.coe_count ..).symm)
  rw [hsum, ← List.sum_toFinset _ byteValues_nodup, Multiset.sum_count_eq_card, Multiset.coe_card]
  exact fun v _ => List.mem_toFinset.2 (mem_byteValues v)

/-! ### HTREE: the arena of a frequency table (R112) -/

theorem Key.min_eq_or (a b : Key) : Key.min a b = a ∨ Key.min a b = b := by
  unfold Key.min
  split
  · exact .inr rfl
  · exact .inl rfl

theorem foldl_keyMin_mem (es : List Key) (e : Key) : es.foldl Key.min e ∈ e :: es := by
  induction es generalizing e with
  | nil => exact List.mem_singleton_self e
  | cons x es ih =>
    rcases Key.min_eq_or e x with h | h <;> rw [List.foldl_cons, h]
    · exact List.cons_subset_cons e (List.subset_cons_self x es) (ih e)
    · exact List.mem_cons_of_mem _ (ih x)

/-- The pool is its smallest element and the rest. -/
theorem takeMin_perm {pool rest : List Key} {m : Key} (h : takeMin pool = some (m, rest)) :
    pool.Perm (m :: rest) := by
  cases pool with
  | nil => cases h
  | cons e es =>
    cases h
    exact List.perm_cons_erase (foldl_keyMin_mem es e)

/-- Each merge takes two elements off the pool and puts one back, so there are fewer merges than elements. -/
theorem length_mergeLoop_le (fuel : Nat) (pool : List Key) (arena : List ProtoNode) :
    (mergeLoop fuel pool arena).length ≤ arena.length + (pool.length - 1) := by
  induction fuel generalizing pool arena with
  | zero => exact Nat.le_add_right ..
  | succ fuel ih =>
    unfold mergeLoop
    split
    · exact Nat.le_add_right ..
    · next a pool₁ h₁ =>
      split
      · exact Nat.le_add_right ..
      · next b pool₂ h₂ =>
        have hp₁ := (takeMin_perm h₁).length_eq
        have hp₂ := (takeMin_perm h₂).length_eq
        have hm := ih (pool₂ ++ [(a.1 + b.1, arena.length)]) (arena ++ [ProtoNode.mkInner (a.1 + b.1) a.2 b.2])
        simp only [List.length_cons, List.length_append, List.length_nil] at hp₁ hp₂ hm
        omega

theorem length_leavesOf_le (freq : Nat → Nat) : (leavesOf freq).length ≤ 256 := by
  rw [leavesOf, List.length_map, occurring]
  exact (List.length_filter_le _ _).trans (by simp)

theorem length_buildTree_le (freq : Nat → Nat) : (buildTree freq).length ≤ Config.nodeCap := by
  have hk := length_leavesOf_le freq
  have hm := length_mergeLoop_le (leavesOf freq).length ((leavesOf freq).mapIdx fun j n => (n.weight, j))
    (leavesOf freq)
  rw [List.length_mapIdx] at hm
  rw [Config.nodeCap]
  exact hm.trans (by omega)

/-! ### HCODE: the codes of a tree (R114) -/

/-- A tree read within `fuel` levels has paths of fewer than `fuel` bits. -/
theorem State.length_paths_lt {s : State} {fuel i : Nat} {t : Tree} (h : s.readTree fuel i = some t) (p : List Bool) :
    ∀ e ∈ t.paths p, e.2.length < p.length + fuel := by
  induction fuel generalizing i t p with
  | zero => cases h
  | succ fuel ih =>
    unfold State.readTree at h
    split at h
    · cases h
    · split at h
      · cases h
        simp [Tree.paths]
      · split at h
        · next l r hl hr =>
          cases h
          intro e he
          rcases List.mem_append.1 he with he | he
          · have := ih hl (p ++ [false]) e he
            simp only [List.length_append, List.length_singleton] at this
            omega
          · have := ih hr (p ++ [true]) e he
            simp only [List.length_append, List.length_singleton] at this
            omega
        · cases h

/-- A code has at most `CODE_MAXLEN` bits (R7). -/
theorem State.length_codes_lt {s : State} {t : Tree} (h : s.tree? = some t) : ∀ e ∈ t.codes, e.2.length < 256 := by
  cases t with
  | leaf i sym => simp [Tree.codes]
  | node i l r => simpa [Tree.codes, Config.codeMaxLen] using State.length_paths_lt h []

theorem length_codeOf_lt {cs : List (Byte × List Bool)} {n : Nat} (hn : 0 < n) (h : ∀ e ∈ cs, e.2.length < n) (v : Nat) :
    (codeOf cs v).length < n := by
  unfold codeOf
  cases hv : cs.reverse.lookup (BitVec.ofNat 8 v) with
  | none => exact hn
  | some c =>
    obtain ⟨l₁, l₂, heq, -⟩ := List.lookup_eq_some_iff.1 hv
    exact h (BitVec.ofNat 8 v, c) (List.mem_reverse.1 (by simp [heq]))

/-- An entry made of a code of at most 255 bits has no bit set at or above its length (R47). -/
theorem CodeEntry.ofBits_clean {c : List Bool} (h : c.length < 256) {j : Nat} (hj : (CodeEntry.ofBits c).clen.toNat ≤ j) :
    (CodeEntry.ofBits c).cbits.getLsbD j = false := by
  have hl : (CodeEntry.ofBits c).clen.toNat = c.length := toNat_ofNat_of_lt h
  rw [CodeEntry.ofBits, getLsbD_ofNat_bitsNat, List.getD_eq_default _ _ (hl ▸ hj), Bool.and_false]

/-! ### HTLOAD: the nodes the parser makes (R116) -/

/-- The parser refuses a node past `NODE_CAP`. -/
theorem length_made_parseTree {fuel : Nat} {p q : Parse} {i : Nat} (h : parseTree fuel p = some (i, q))
    (hp : p.made.length ≤ Config.nodeCap) : q.made.length ≤ Config.nodeCap := by
  induction fuel generalizing p q i with
  | zero => cases h
  | succ fuel ih =>
    unfold parseTree at h
    split at h
    · cases h
    · next hfull =>
      have hroom : p.made.length + 1 ≤ Config.nodeCap := by omega
      split at h
      · cases h
      · dsimp only at h
        split at h
        · split at h
          · cases h
          · split at h
            · cases h
            · cases h
              simpa using hroom
        · split at h
          · split at h
            · cases h
            · next l p₁ h₁ =>
              split at h
              · cases h
              · next r p₂ h₂ =>
                cases h
                rw [List.length_set]
                exact ih h₂ (ih h₁ (by simpa using hroom))
          · cases h

theorem length_loadTree_le {input : List Byte} {ns : List ProtoNode} (h : loadTree input = some ns) :
    ns.length ≤ Config.nodeCap := by
  unfold loadTree at h
  split at h
  · cases h
  · next hp =>
    split at h
    · cases h
      exact length_made_parseTree hp (Nat.zero_le _)
    · cases h

/-! ### HDEC, BWTF, BWTI, MTFD, RLEE, RLED, PACK -/

/-- The decoder emits no byte past `BUF_CAP` (R142). -/
theorem State.length_decodeBits_le {s : State} {bits : List Bool} {cur : Nat} {out res : List Byte}
    (h : s.decodeBits bits cur out = .ok res) (hout : out.length ≤ s.bufCap) : res.length ≤ s.bufCap := by
  induction bits generalizing cur out with
  | nil =>
    unfold State.decodeBits at h
    split at h
    · cases h
      exact hout
    · cases h
  | cons b bits ih =>
    unfold State.decodeBits at h
    split at h
    · cases h
    · cases h
    · exact ih h hout
    · split at h
      · cases h
      · next hfull => exact ih h (by simp; omega)

@[simp] theorem length_lastColumn (b : List Byte) : (lastColumn b).length = b.length := by
  simp [lastColumn, rotationOrder]

@[simp] theorem length_linkWalk (l : List Byte) (p : List Nat) (n r : Nat) : (linkWalk l p n r).length = n := by
  induction n generalizing r with
  | zero => rfl
  | succ n ih => rw [linkWalk, List.length_cons, ih]

theorem length_mtfDecode {lst x out : List Byte} (h : mtfDecode lst x = some out) : out.length = x.length := by
  induction x generalizing lst out with
  | nil =>
    cases h
    rfl
  | cons p x ih =>
    unfold mtfDecode at h
    split at h
    · cases h
    · obtain ⟨out', hout, rfl⟩ := Option.map_eq_some_iff.1 h
      rw [List.length_cons, List.length_cons, ih hout]

theorem length_runsFrom_le (v : Byte) (c : Nat) (x : List Byte) : (runsFrom v c x).length ≤ x.length + 1 := by
  induction x generalizing v c with
  | nil => exact Nat.le_refl _
  | cons y x ih =>
    unfold runsFrom
    split
    · exact (ih v (c + 1)).trans (Nat.le_succ _)
    · exact Nat.succ_le_succ (ih y 1)

theorem length_runsOf_le (x : List Byte) : (runsOf x).length ≤ x.length := by
  cases x with
  | nil => exact Nat.le_refl _
  | cons v x => exact length_runsFrom_le v 1 x

/-- The run expander puts out no byte past the capacity (R182). -/
theorem length_expandRuns_le {cap : Nat} {rs : List Run} {out res : List Byte} (h : expandRuns cap rs out = .ok res)
    (hout : out.length ≤ cap) : res.length ≤ cap := by
  induction rs generalizing out with
  | nil =>
    cases h
    exact hout
  | cons r rs ih =>
    unfold expandRuns at h
    split at h
    · cases h
    · split at h
      · cases h
      · next hfit => exact ih h (by simp; omega)

@[simp] theorem length_unpackBits (y : List Byte) (m : Nat) : (unpackBits y m).length = m := by simp [unpackBits]

theorem State.length_packBits_bits_le {s : State} (h : s.LengthsLegal) : (packBits s.bits).length ≤ s.bufCap := by
  have hb := h.bitLen
  rw [length_packBits, s.length_bits]
  unfold State.bitCap at hb
  unfold ceil8
  omega

end Sys2Proof.Machine

/-! ## Soundness, one state update at a time -/

namespace Sys2Proof.Machine

/-! ### Stores inside a capacity -/

/-- A store in canonical form that lists no index at or above its capacity: what `State.MemoryFits` says of each memory. -/
def Store.Fits {α : Type} (cap : Nat) (m : Store α) : Prop := Store.wf m ∧ Store.Below cap m

theorem Store.fits_nil {α : Type} (cap : Nat) : Store.Fits cap ([] : Store α) := ⟨.nil, nofun⟩

theorem Store.Fits.put {α : Type} {cap : Nat} {m : Store α} (h : Store.Fits cap m) {xs : List α} (hx : xs.length ≤ cap) :
    Store.Fits cap (Store.put xs m) :=
  ⟨Store.wf_put xs m h.1, fun _ he => (Store.mem_put he).elim (fun hlt => by omega) (h.2 _)⟩

theorem Store.Fits.setFrom {α : Type} {cap : Nat} {m : Store α} (h : Store.Fits cap m) (base : Nat) (vs : List α) :
    Store.Fits cap (Store.setFrom cap base vs m) :=
  ⟨Store.wf_setFrom cap vs base m h.1, fun _ he => (Store.mem_setFrom he).elim id (h.2 _)⟩

theorem PerBuf.forall_set {α : Type} {P : α → Prop} {p : PerBuf α} (h : ∀ k, P (p.get k)) (k : Buf) {v : α} (hv : P v) :
    ∀ j, P ((p.set k v).get j) := by
  intro j
  rw [PerBuf.get_set]
  split
  · exact hv
  · exact h j

theorem State.memoryFits_iff {s : State} :
    s.MemoryFits ↔ (∀ k, Store.Fits s.bufCap (s.mem.buf.get k)) ∧ Store.Fits s.bitCap s.mem.bit ∧
      Store.Fits Config.alphaCap s.mem.alpha ∧ Store.Fits s.runCap s.mem.run ∧ Store.Fits Config.nodeCap s.mem.node := by
  constructor
  · rintro ⟨⟨w0, w1, w2, w3, wb, wa, wr, wn⟩, bufs, bit, alpha, run, node⟩
    exact ⟨fun k => ⟨by cases k <;> assumption, bufs k⟩, ⟨wb, bit⟩, ⟨wa, alpha⟩, ⟨wr, run⟩, ⟨wn, node⟩⟩
  · rintro ⟨bufs, ⟨wb, bit⟩, ⟨wa, alpha⟩, ⟨wr, run⟩, ⟨wn, node⟩⟩
    exact ⟨⟨(bufs .b0).1, (bufs .b1).1, (bufs .b2).1, (bufs .b3).1, wb, wa, wr, wn⟩, fun k => (bufs k).2,
      bit, alpha, run, node⟩

/-! ### Updates of one field -/

section
variable {s : State}

/-- Soundness says nothing of OVR, IRQ_EN, ORIG_INDEX, NODE_COUNT, ROOT and the model's own fields. -/
theorem State.Sound.setFree (h : s.Sound) {ovr irqEn : Bool} {origIndex : Word} {nodeCount : BitVec 10} {root : BitVec 9}
    {agenda : List Event} {resp : Option BusResp} {draws : Nat} :
    State.Sound { s with ovr, irqEn, origIndex, nodeCount, root, agenda, resp, draws } where
  lengths := { h.lengths with }
  memory := { h.memory with }
  busy := h.busy
  freq := h.freq
  code := h.code

/-- The phase, CMD, DONE and ERR may change together, as long as a busy core stays marked (R24). -/
theorem State.Sound.setMarks (h : s.Sound) {phase : Phase} {cmd : Word} {done : Bool} {err : ErrCode}
    (hm : ∀ c, phase = .busy c → cmd = c ∧ done = false ∧ err = .ok) :
    State.Sound { s with phase, cmd, done, err } where
  lengths := { h.lengths with }
  memory := { h.memory with }
  busy := hm
  freq := h.freq
  code := h.code

theorem State.Sound.setLengths (h : s.Sound) {len : PerBuf Word} {bitLen alphaLen runLen : Word}
    (hl : State.LengthsLegal { s with len, bitLen, alphaLen, runLen }) :
    State.Sound { s with len, bitLen, alphaLen, runLen } where
  lengths := hl
  memory := { h.memory with }
  busy := h.busy
  freq := h.freq
  code := h.code

theorem State.Sound.setLen (h : s.Sound) (k : Buf) {v : Word} (hv : v.toNat ≤ s.bufCap) :
    State.Sound { s with len := s.len.set k v } :=
  h.setLengths { h.lengths with len := PerBuf.forall_set (P := fun v : Word => v.toNat ≤ s.bufCap) h.lengths.len k hv }

theorem State.Sound.setBitLen (h : s.Sound) {v : Word} (hv : v.toNat ≤ s.bitCap) : State.Sound { s with bitLen := v } :=
  h.setLengths { h.lengths with bitLen := hv }

theorem State.Sound.setAlphaLen (h : s.Sound) {v : Word} (hv : v.toNat ≤ Config.alphaCap) :
    State.Sound { s with alphaLen := v } :=
  h.setLengths { h.lengths with alphaLen := hv }

theorem State.Sound.setRunLen (h : s.Sound) {v : Word} (hv : v.toNat ≤ s.runCap) : State.Sound { s with runLen := v } :=
  h.setLengths { h.lengths with runLen := hv }

theorem State.Sound.setMem (h : s.Sound) {mem : Memory} (hm : State.MemoryFits { s with mem }) :
    State.Sound { s with mem } where
  lengths := { h.lengths with }
  memory := hm
  busy := h.busy
  freq := h.freq
  code := h.code

theorem State.Sound.setBuf (h : s.Sound) (k : Buf) {m : Store Byte}
    (hm : Store.Fits s.bufCap (s.mem.buf.get k) → Store.Fits s.bufCap m) :
    State.Sound { s with mem := { s.mem with buf := s.mem.buf.set k m } } :=
  have ⟨bufs, rest⟩ := State.memoryFits_iff.1 h.memory
  h.setMem (State.memoryFits_iff.2 ⟨PerBuf.forall_set bufs k (hm (bufs k)), rest⟩)

theorem State.Sound.setBit (h : s.Sound) {m : Store Bool} (hm : Store.Fits s.bitCap s.mem.bit → Store.Fits s.bitCap m) :
    State.Sound { s with mem := { s.mem with bit := m } } :=
  have ⟨bufs, bit, rest⟩ := State.memoryFits_iff.1 h.memory
  h.setMem (State.memoryFits_iff.2 ⟨bufs, hm bit, rest⟩)

theorem State.Sound.setAlpha (h : s.Sound) {m : Store Byte}
    (hm : Store.Fits Config.alphaCap s.mem.alpha → Store.Fits Config.alphaCap m) :
    State.Sound { s with mem := { s.mem with alpha := m } } :=
  have ⟨bufs, bit, alpha, rest⟩ := State.memoryFits_iff.1 h.memory
  h.setMem (State.memoryFits_iff.2 ⟨bufs, bit, hm alpha, rest⟩)

theorem State.Sound.setRun (h : s.Sound) {m : Store Run} (hm : Store.Fits s.runCap s.mem.run → Store.Fits s.runCap m) :
    State.Sound { s with mem := { s.mem with run := m } } :=
  have ⟨bufs, bit, alpha, run, node⟩ := State.memoryFits_iff.1 h.memory
  h.setMem (State.memoryFits_iff.2 ⟨bufs, bit, alpha, hm run, node⟩)

theorem State.Sound.setNode (h : s.Sound) {m : Store Node}
    (hm : Store.Fits Config.nodeCap s.mem.node → Store.Fits Config.nodeCap m) :
    State.Sound { s with mem := { s.mem with node := m } } :=
  have ⟨bufs, bit, alpha, run, node⟩ := State.memoryFits_iff.1 h.memory
  h.setMem (State.memoryFits_iff.2 ⟨bufs, bit, alpha, run, hm node⟩)

/-! ### What a commit writes -/

/-- A length cut to its register is at most the length (R14). -/
theorem toNat_ofNat_le {w n max : Nat} (h : n ≤ max) : (BitVec.ofNat w n).toNat ≤ max := by
  rw [BitVec.toNat_ofNat]
  exact (Nat.mod_le ..).trans h

theorem State.Sound.putBlock (h : s.Sound) (k : Buf) {xs : List Byte} (hx : xs.length ≤ s.bufCap) :
    (s.putBlock k xs).Sound :=
  (h.setBuf k fun hm => hm.put hx).setLen k (toNat_ofNat_le hx)

theorem State.Sound.putBits (h : s.Sound) {bs : List Bool} (hx : bs.length ≤ s.bitCap) : (s.putBits bs).Sound :=
  h.setBit fun hm => hm.put hx

theorem State.Sound.putBitLen (h : s.Sound) {n : Nat} (hn : n ≤ s.bitCap) : (s.putBitLen n).Sound :=
  h.setBitLen (toNat_ofNat_le hn)

theorem State.Sound.putRuns (h : s.Sound) {rs : List Run} (hx : rs.length ≤ s.runCap) : (s.putRuns rs).Sound :=
  (h.setRun fun hm => hm.put hx).setRunLen (toNat_ofNat_le hx)

theorem State.Sound.putAlphabet (h : s.Sound) {a : List Byte} (hx : a.length ≤ Config.alphaCap) :
    (s.putAlphabet a).Sound :=
  (h.setAlpha fun hm => hm.put hx).setAlphaLen (toNat_ofNat_le hx)

theorem State.Sound.putOrigIndex (h : s.Sound) (i : Nat) : (s.putOrigIndex i).Sound := h.setFree

theorem State.Sound.putArena (h : s.Sound) {ns : List ProtoNode} (root : Nat) (hx : ns.length ≤ Config.nodeCap) :
    (s.putArena ns root).Sound :=
  (h.setNode fun hm => hm.put (by simpa using hx)).setFree

theorem State.Sound.putFreq (h : s.Sound) {f : Nat → Nat} (hf : ((List.range 256).map f).sum ≤ s.bufCap) :
    (s.putFreq f).Sound where
  lengths := { h.lengths with }
  memory := { h.memory with }
  busy := h.busy
  freq := by
    rw [State.FreqBounded, State.putFreq_freq, toList_tabulate, List.map_map]
    exact (List.sum_le_sum fun v _ => toNat_ofNat_le (Nat.le_refl (f v))).trans hf
  code := h.code

theorem State.Sound.putCode (h : s.Sound) {c : Nat → List Bool} (hc : ∀ v, (c v).length < 256) :
    (s.putCode c).Sound where
  lengths := { h.lengths with }
  memory := { h.memory with }
  busy := h.busy
  freq := h.freq
  code := by
    intro e he j hj
    rw [State.putCode_code, toList_tabulate] at he
    obtain ⟨v, -, rfl⟩ := List.mem_map.1 he
    exact CodeEntry.ofBits_clean (hc v) hj

/-! ### How a command starts and ends -/

theorem State.Sound.complete (h : s.Sound) (e : ErrCode) : (s.complete e).Sound :=
  State.Sound.setFree (h.setMarks (phase := .idle) (cmd := s.cmd) (done := true) (err := e) nofun)

theorem State.Sound.accept (h : s.Sound) (c : Word) : (s.accept c).Sound :=
  h.setMarks fun _ hc => by cases hc; exact ⟨rfl, rfl, rfl⟩

end
end Sys2Proof.Machine

/-! ## Every step keeps the machine sound -/

namespace Sys2Proof.Machine

section
variable {s : State}

theorem State.Sound.length_block_le (h : s.Sound) (k : Buf) : (s.block k).length ≤ s.bufCap := by
  rw [s.length_block]
  exact h.lengths.len k

/-- Whatever a command commits fits its destination. -/
theorem State.Sound.committed (h : s.Sound) {i : Instr} {u : State} (hu : Committed i s u) : u.Sound := by
  cases i with
  | nop => exact hu ▸ h
  | hfreq k => exact hu ▸ h.putFreq ((sum_byteCount _).trans_le (h.length_block_le k))
  | htree =>
    obtain ⟨-, rfl⟩ := hu
    exact h.putArena _ (length_buildTree_le _)
  | hcode =>
    rcases hu with ⟨-, rfl⟩ | ⟨-, tr, htr, rfl⟩
    · exact h.putCode fun _ => Nat.zero_lt_succ _
    · exact h.putCode (length_codeOf_lt (Nat.zero_lt_succ _) (State.length_codes_lt htr))
  | henc k =>
    obtain ⟨bits, -, hfit, rfl⟩ := hu
    exact (h.putBits hfit).putBitLen hfit
  | hdec d =>
    rcases hu with ⟨-, rfl⟩ | ⟨-, -, out, hout, rfl⟩
    · exact h.putBlock d (Nat.zero_le _)
    · exact h.putBlock d (State.length_decodeBits_le hout (Nat.zero_le _))
  | htser d =>
    obtain ⟨out, hfit, rfl, -⟩ := hu
    exact h.putBlock d hfit
  | htload k =>
    rcases hu with ⟨-, rfl⟩ | ⟨-, ns, hns, rfl⟩
    · exact h.setFree
    · exact h.putArena 0 (length_loadTree_le hns)
  | bwtf k d => exact hu ▸ (h.putBlock d ((length_lastColumn _).trans_le (h.length_block_le k))).putOrigIndex _
  | bwti k d =>
    rcases hu with ⟨-, rfl⟩ | ⟨-, -, rfl⟩
    · exact h.putBlock d (Nat.zero_le _)
    · exact h.putBlock d ((length_linkWalk ..).trans_le (h.length_block_le k))
  | mtfe k d =>
    refine hu ▸ (h.putAlphabet (initialAlphabet_length _)).putBlock d ?_
    rw [List.length_map, length_mtfEncode]
    exact h.length_block_le k
  | mtfd k d =>
    obtain ⟨out, hout, rfl⟩ := hu
    exact h.putBlock d ((length_mtfDecode hout).trans_le (h.length_block_le k))
  | rlee k =>
    refine hu ▸ h.putRuns ?_
    rw [List.length_map]
    exact (length_runsOf_le _).trans (h.length_block_le k)
  | rled d =>
    obtain ⟨out, hout, rfl⟩ := hu
    exact h.putBlock d (length_expandRuns_le hout (Nat.zero_le _))
  | pack d => exact hu ▸ h.putBlock d (State.length_packBits_bits_le h.lengths)
  | unpack k =>
    obtain ⟨-, rfl⟩ := hu
    exact h.putBits ((length_unpackBits ..).trans_le h.lengths.bitLen)

theorem State.Sound.exec (h : s.Sound) {i : Instr} {t : State} (ht : exec i s = .next t) : t.Sound := by
  rcases exec_cases ht with ⟨e, -, rfl⟩ | ⟨u, rfl, hu⟩
  · exact h.complete e
  · exact (h.committed hu).complete .ok

theorem State.Sound.coreTurn (h : s.Sound) {t : State} (ht : coreTurn s = .next t) : t.Sound := by
  cases hp : s.phase with
  | idle =>
    rw [coreTurn_idle hp] at ht
    cases ht
    exact h
  | busy c =>
    rw [coreTurn_busy hp] at ht
    cases hd : decode c with
    | ok i => exact h.exec (completion_ok hd s ▸ ht)
    | error e =>
      rw [completion_error hd] at ht
      cases ht
      exact h.complete _

/-- A length register that was legal stays legal (R39). -/
theorem legalOr_le {max : Nat} {v old : Word} (h : old.toNat ≤ max) : (legalOr max v old).toNat ≤ max := by
  unfold legalOr
  split
  · assumption
  · exact h

theorem State.Sound.writeStatus (h : s.Sound) (v : Word) : (s.writeStatus v).Sound :=
  State.Sound.setFree (h.setMarks (done := s.done && !v.getLsbD 1) fun c hc => by
    obtain ⟨hcmd, hdone, herr⟩ := h.busy c hc
    exact ⟨hcmd, by rw [hdone, Bool.false_and], herr⟩)

theorem State.Sound.writeIdle (h : s.Sound) (v : Word) (l : Loc) : (s.writeIdle v l).Sound := by
  cases l with
  | status => exact h.writeStatus v
  | cmd => exact h.accept v
  | ctrl | origIndex => exact h.setFree
  | len k => exact h.setLen k (legalOr_le (h.lengths.len k))
  | bitLen => exact h.setBitLen (legalOr_le h.lengths.bitLen)
  | alphaLen => exact h.setAlphaLen (legalOr_le h.lengths.alphaLen)
  | runLen => exact h.setRunLen (legalOr_le h.lengths.runLen)
  | alpha w => exact h.setAlpha fun hm => hm.setFrom _ _
  | run j => exact h.setRun fun hm => hm.setFrom _ _
  | bit w => exact h.setBit fun hm => hm.setFrom _ _
  | buf k w => exact h.setBuf k fun hm => hm.setFrom _ _
  | id | nodeCount | root | bufCap | bitCap | runCap | freq | node | code | unassigned => exact h

theorem State.Sound.writeLoc (h : s.Sound) (v : Word) (l : Loc) : (s.writeLoc v l).Sound := by
  unfold State.writeLoc
  split
  · exact h.setFree
  · exact h.writeIdle v l

theorem State.Sound.access (h : s.Sound) (op : HostOp) : (s.access op).Sound := by
  unfold State.access
  split
  · exact h.setFree
  · cases op with
    | read _ o => exact h.setFree
    | write _ o v => exact (h.writeLoc v (locate o.toNat)).setFree

theorem State.resetOf_sound {cap : Nat} (hpos : 1 ≤ cap) (hmax : cap ≤ Config.bufCapMax) : (State.resetOf cap).Sound where
  lengths :=
    ⟨hpos, hmax, fun k => by cases k <;> exact Nat.zero_le _, Nat.zero_le _, Nat.zero_le _, Nat.zero_le _⟩
  memory := State.memoryFits_iff.2
    ⟨fun k => by cases k <;> exact Store.fits_nil _,
      Store.fits_nil _, Store.fits_nil _, Store.fits_nil _, Store.fits_nil _⟩
  busy := nofun
  freq := by
    rw [State.FreqBounded, State.resetOf_freq, Vector.toList_replicate, List.map_replicate, List.sum_replicate]
    exact Nat.zero_le _
  code := by
    intro e he j _
    rw [State.resetOf_code, Vector.toList_replicate] at he
    rw [List.eq_of_mem_replicate he]
    exact BitVec.getLsbD_zero

end

/-- Settles O58: a step is the core's turn, a host access or a reset, and each is a chain of updates that keep
soundness. -/
theorem stepKeepsSound : Obligations.StepKeepsSound := by
  intro s t h ht
  rcases hs : s.agenda with _ | ⟨op | _ | _, es⟩
  · exact h.coreTurn (step_nil hs ▸ ht)
  · rw [step_host hs] at ht
    cases ht
    exact h.setFree.access op
  · exact State.Sound.coreTurn h.setFree (step_core hs ▸ ht)
  · rw [step_reset hs] at ht
    cases ht
    exact (State.resetOf_sound h.lengths.capPos h.lengths.capMax).setFree

end Sys2Proof.Machine

/-! ## A tree laid out in an arena

The weight of a leaf is a function of its byte: the frequency for HTREE and 0 for HTLOAD. -/

namespace Sys2Proof.Machine

/-- The arena index of a tree's root. -/
def Tree.index : Tree → Nat
  | .leaf i _ => i
  | .node i _ _ => i

/-- The weight of a tree whose leaf for byte `v` weighs `wt v`. -/
def Tree.weight (wt : Byte → Nat) (t : Tree) : Nat := (t.syms.map wt).sum

/-- The nodes `ns` hold every node of the tree at its index, linked as in the tree (R43). -/
def Tree.LaidOut (wt : Byte → Nat) (ns : List ProtoNode) : Tree → Prop
  | .leaf i sym => ns[i]? = some (ProtoNode.mkLeaf sym (wt sym))
  | .node i l r => ns[i]? = some (ProtoNode.mkInner (l.weight wt + r.weight wt) l.index r.index) ∧
      l.LaidOut wt ns ∧ r.LaidOut wt ns

/-- The nodes `ns` are exactly the nodes of the tree, whose leaf symbols are distinct (R44). -/
structure Tree.Fills (wt : Byte → Nat) (ns : List ProtoNode) (t : Tree) : Prop where
  laid    : t.LaidOut wt ns
  indices : t.indices.Perm (List.range ns.length)
  syms    : t.syms.Nodup

section
variable {wt : Byte → Nat} {ns : List ProtoNode} {t : Tree}

@[simp] theorem Tree.weight_leaf (i : Nat) (sym : Byte) : (Tree.leaf i sym).weight wt = wt sym := by
  simp [Tree.weight, Tree.syms]

@[simp] theorem Tree.weight_node (i : Nat) (l r : Tree) : (Tree.node i l r).weight wt = l.weight wt + r.weight wt := by
  simp [Tree.weight, Tree.syms]

/-- A binary tree has one node fewer than twice its leaves. -/
theorem Tree.length_indices (t : Tree) : t.indices.length + 1 = 2 * t.syms.length := by
  induction t with
  | leaf i sym => rfl
  | node i l r hl hr =>
    simp only [Tree.indices, Tree.syms, List.length_cons, List.length_append]
    omega

theorem Tree.length_syms_pos (t : Tree) : 0 < t.syms.length := by
  have := t.length_indices
  omega

theorem length_le_of_nodup_bytes {vs : List Byte} (h : vs.Nodup) : vs.length ≤ 256 := by
  simpa using (h.subperm fun v _ => mem_byteValues v).length_le

/-- A layout speaks of the tree's own indices only. -/
theorem Tree.LaidOut.congr {ns' : List ProtoNode} (h : t.LaidOut wt ns) (hns : ∀ i ∈ t.indices, ns'[i]? = ns[i]?) :
    t.LaidOut wt ns' := by
  induction t with
  | leaf i sym => exact (hns i List.mem_cons_self).trans h
  | node i l r ihl ihr =>
    obtain ⟨hi, hl, hr⟩ := h
    exact ⟨(hns i List.mem_cons_self).trans hi,
      ihl hl fun j hj => hns j (List.mem_cons_of_mem _ (List.mem_append_left _ hj)),
      ihr hr fun j hj => hns j (List.mem_cons_of_mem _ (List.mem_append_right _ hj))⟩

/-- Every index of the tree is the root of a subtree, which weighs no more than the tree. -/
theorem Tree.LaidOut.subtree (h : t.LaidOut wt ns) {i : Nat} (hi : i ∈ t.indices) :
    ∃ u : Tree, u.index = i ∧ u.LaidOut wt ns ∧ u.weight wt ≤ t.weight wt := by
  induction t with
  | leaf j sym => exact ⟨.leaf j sym, (List.mem_singleton.1 hi).symm, h, Nat.le_refl _⟩
  | node j l r ihl ihr =>
    rw [Tree.weight_node]
    rcases List.mem_cons.1 hi with rfl | hi
    · exact ⟨_, rfl, h, (Tree.weight_node ..).le⟩
    · rcases List.mem_append.1 hi with hi | hi
      · obtain ⟨u, hu, hlaid, hw⟩ := ihl h.2.1 hi
        exact ⟨u, hu, hlaid, by omega⟩
      · obtain ⟨u, hu, hlaid, hw⟩ := ihr h.2.2 hi
        exact ⟨u, hu, hlaid, by omega⟩

/-- What the root of a tree laid out in `ns` holds. -/
theorem Tree.LaidOut.root (h : t.LaidOut wt ns) : ∃ n, ns[t.index]? = some n ∧ n.weight = t.weight wt := by
  cases t with
  | leaf i sym => exact ⟨_, h, (Tree.weight_leaf ..).symm⟩
  | node i l r => exact ⟨_, h.1, (Tree.weight_node ..).symm⟩

theorem Tree.LaidOut.index_lt (h : t.LaidOut wt ns) : t.index < ns.length := by
  obtain ⟨n, hn, -⟩ := h.root
  exact (List.getElem?_eq_some_iff.1 hn).1

/-- A child index of an arena that fits survives its 9-bit field. -/
theorem Tree.LaidOut.toNat_index (h : t.LaidOut wt ns) (hlen : ns.length ≤ Config.nodeCap) :
    (BitVec.ofNat 9 t.index).toNat = t.index :=
  toNat_ofNat_of_lt ((h.index_lt.trans_le hlen).trans (by decide))

theorem Tree.Fills.length_le (h : t.Fills wt ns) : ns.length ≤ Config.nodeCap := by
  have hn := h.indices.length_eq
  have hs := length_le_of_nodup_bytes h.syms
  have := t.length_indices
  rw [List.length_range] at hn
  rw [Config.nodeCap]
  omega

end

/-! ### The arena after a commit of nodes -/

section
variable {wt : Byte → Nat} {ns : List ProtoNode} {t : Tree} (s : State)

theorem State.toNat_nodeCount_putArena (hlen : ns.length ≤ Config.nodeCap) (root : Nat) :
    (s.putArena ns root).nodeCount.toNat = ns.length :=
  toNat_ofNat_of_lt (hlen.trans_lt (by decide))

theorem State.node?_putArena (hlen : ns.length ≤ Config.nodeCap) (root i : Nat) :
    (s.putArena ns root).node? i = ns[i]?.map ProtoNode.toNode := by
  rw [State.node?, s.toNat_nodeCount_putArena hlen]
  split
  · next hi => rw [State.putArena_mem, Store.get_put, List.length_map, if_pos hi, List.getElem?_map]
  · next hi => rw [List.getElem?_eq_none (Nat.le_of_not_lt hi), Option.map_none]

theorem State.readTree_of_leaf {s : State} {i : Nat} {n : Node} (h : s.node? i = some n) (hn : n.leaf = true)
    (fuel : Nat) : s.readTree (fuel + 1) i = some (.leaf i n.sym) := by
  simp [State.readTree, h, hn]

theorem State.readTree_of_inner {s : State} {i fuel : Nat} {n : Node} {l r : Tree} (h : s.node? i = some n)
    (hn : n.leaf = false) (hl : s.readTree fuel n.left.toNat = some l) (hr : s.readTree fuel n.right.toNat = some r) :
    s.readTree (fuel + 1) i = some (.node i l r) := by
  simp [State.readTree, h, hn, hl, hr]

/-- A tree has no more levels than leaves, so it is read back within as many. -/
theorem State.readTree_putArena (hlen : ns.length ≤ Config.nodeCap) (root : Nat) (h : t.LaidOut wt ns) {fuel : Nat}
    (hfuel : t.syms.length ≤ fuel) : (s.putArena ns root).readTree fuel t.index = some t := by
  induction t generalizing fuel with
  | leaf i sym =>
    obtain ⟨fuel, rfl⟩ := Nat.exists_eq_add_of_le' hfuel
    have hi : (s.putArena ns root).node? i = some (ProtoNode.mkLeaf sym (wt sym)).toNode := by
      rw [s.node?_putArena hlen, h, Option.map_some]
    exact State.readTree_of_leaf hi rfl fuel
  | node i l r ihl ihr =>
    obtain ⟨hi, hl, hr⟩ := h
    have hsyms : l.syms.length + r.syms.length ≤ fuel := by simpa [Tree.syms] using hfuel
    have hlpos := l.length_syms_pos
    have hrpos := r.length_syms_pos
    obtain ⟨fuel, rfl⟩ : ∃ k, fuel = k + 1 := ⟨fuel - 1, by omega⟩
    have hi' := s.node?_putArena hlen root i
    rw [hi, Option.map_some] at hi'
    refine State.readTree_of_inner hi' rfl ?_ ?_
    · exact (congrArg _ (hl.toNat_index hlen)).trans (ihl hl (by omega))
    · exact (congrArg _ (hr.toNat_index hlen)).trans (ihr hr (by omega))

/-- A valid entry after the commit is a leaf, or the parent of two trees laid out beside it. -/
theorem State.node?_putArena_cases (h : t.Fills wt ns) {i : Nat} {n : Node}
    (hi : (s.putArena ns t.index).node? i = some n) :
    (∃ sym w, n = (ProtoNode.mkLeaf sym w).toNode) ∨
      ∃ l r : Tree, l.LaidOut wt ns ∧ r.LaidOut wt ns ∧ l.weight wt + r.weight wt ≤ t.weight wt ∧
        n = (ProtoNode.mkInner (l.weight wt + r.weight wt) l.index r.index).toNode := by
  have hlt := State.node?_lt hi
  rw [s.toNat_nodeCount_putArena h.length_le] at hlt
  rw [s.node?_putArena h.length_le] at hi
  obtain ⟨u, rfl, hlaid, hle⟩ := h.laid.subtree (h.indices.mem_iff.2 (List.mem_range.2 hlt))
  cases u with
  | leaf j sym =>
    rw [Tree.index, hlaid] at hi
    cases hi
    exact .inl ⟨sym, wt sym, rfl⟩
  | node j l r =>
    obtain ⟨hj, hl, hr⟩ := hlaid
    rw [Tree.index, hj] at hi
    cases hi
    exact .inr ⟨l, r, hl, hr, (Tree.weight_node ..).symm.trans_le hle, rfl⟩

/-- The entry a parent's child field names holds the weight of the child's tree. -/
theorem State.exists_child_putArena (hlen : ns.length ≤ Config.nodeCap) (root : Nat) (h : t.LaidOut wt ns)
    (hw : t.weight wt < 2 ^ 32) :
    ∃ n, (s.putArena ns root).node? (BitVec.ofNat 9 t.index).toNat = some n ∧ n.weight.toNat = t.weight wt := by
  obtain ⟨n, hn, hweight⟩ := h.root
  refine ⟨n.toNode, ?_, ?_⟩
  · rw [h.toNat_index hlen, s.node?_putArena hlen, hn, Option.map_some]
  · exact (congrArg (fun w => (BitVec.ofNat 32 w).toNat) hweight).trans (toNat_ofNat_of_lt hw)

/-- A commit of the nodes of one tree, rooted where the tree is, makes a valid arena (R44). -/
theorem State.arenaOk_putArena (h : t.Fills wt ns) (hw : t.weight wt < 2 ^ 32) : (s.putArena ns t.index).ArenaOk := by
  have hlen := h.length_le
  have hcount := s.toNat_nodeCount_putArena hlen t.index
  refine ⟨fun h0 => ?rootNil, fun _ => ?tree, fun i n hi hleaf => ?leaf, fun i n hi hleaf => ?inner⟩
  case rootNil =>
    rw [h0] at hcount
    exact absurd (hcount ▸ h.laid.index_lt) (Nat.not_lt_zero _)
  case tree =>
    refine ⟨t, ?_, hcount ▸ h.indices, h.syms⟩
    rw [State.tree?, State.putArena_root, h.laid.toNat_index hlen]
    exact s.readTree_putArena hlen _ h.laid (length_le_of_nodup_bytes h.syms)
  case leaf =>
    rcases s.node?_putArena_cases h hi with ⟨sym, w, rfl⟩ | ⟨l, r, -, -, -, rfl⟩
    · exact ⟨rfl, rfl⟩
    · cases hleaf
  case inner =>
    rcases s.node?_putArena_cases h hi with ⟨sym, w, rfl⟩ | ⟨l, r, hl, hr, hle, rfl⟩
    · cases hleaf
    · obtain ⟨nl, hnl, hwl⟩ := s.exists_child_putArena hlen t.index hl (by omega)
      obtain ⟨nr, hnr, hwr⟩ := s.exists_child_putArena hlen t.index hr (by omega)
      refine ⟨rfl, nl, nr, hnl, hnr, ?_⟩
      rw [hwl, hwr]
      exact toNat_ofNat_of_lt (hle.trans_lt hw)

end
end Sys2Proof.Machine

/-! ## HTLOAD parses one tree into the arena -/

namespace Sys2Proof.Machine

/-- What one call of the parser of R116 reads: a leaf record, or an inner record and the two subtrees after it. -/
theorem parseTree_cases {fuel i : Nat} {p q : Parse} (h : parseTree (fuel + 1) p = some (i, q)) :
    i = p.made.length ∧
      ((∃ sym rest, p.rest = 0x01 :: sym :: rest ∧ sym ∉ p.seen ∧
          q = ⟨rest, p.made ++ [ProtoNode.mkLeaf sym 0], sym :: p.seen⟩) ∨
        ∃ rest l r p₁ p₂, p.rest = 0x00 :: rest ∧
          parseTree fuel ⟨rest, p.made ++ [ProtoNode.mkInner 0 0 0], p.seen⟩ = some (l, p₁) ∧
          parseTree fuel p₁ = some (r, p₂) ∧
          q = ⟨p₂.rest, p₂.made.set p.made.length (ProtoNode.mkInner 0 l r), p₂.seen⟩) := by
  unfold parseTree at h
  split at h
  · cases h
  · split at h
    · cases h
    · next tag rest hrest =>
      dsimp only at h
      split at h
      · next htag =>
        subst htag
        split at h
        · cases h
        · next sym rest =>
          split at h
          · cases h
          · next hseen =>
            cases h
            exact ⟨rfl, .inl ⟨sym, rest, hrest, hseen, rfl⟩⟩
      · split at h
        · next htag =>
          subst htag
          split at h
          · cases h
          · next l p₁ h₁ =>
            split at h
            · cases h
            · next r p₂ h₂ =>
              cases h
              exact ⟨rfl, .inr ⟨rest, l, r, p₁, p₂, hrest, h₁, h₂, rfl⟩⟩
        · cases h

/-- The parser went from `p` to `q` over the tree `t`: it appended the nodes of `t` in pre-order, without weight, and
saw its symbols. -/
structure Parse.Reads (p q : Parse) (t : Tree) : Prop where
  made    : ∃ new, q.made = p.made ++ new ∧ new.length = t.indices.length
  indices : t.indices = List.range' p.made.length t.indices.length
  laid    : t.LaidOut (fun _ => 0) q.made
  seen    : q.seen.Perm (t.syms ++ p.seen)
  nodup   : p.seen.Nodup → q.seen.Nodup

theorem Tree.weight_zero (t : Tree) : t.weight (fun _ => 0) = 0 := by simp [Tree.weight]

/-- The parser's subtree has the index of its first node. -/
theorem Parse.Reads.index {p q : Parse} {t : Tree} (h : p.Reads q t) : t.index = p.made.length := by
  have hi := h.indices
  cases t <;> (rw [Tree.indices, List.length_cons, List.range'_succ] at hi; exact (List.cons.inj hi).1)

theorem Parse.reads_leaf {p : Parse} {sym : Byte} {rest : List Byte} (hseen : sym ∉ p.seen) :
    p.Reads ⟨rest, p.made ++ [ProtoNode.mkLeaf sym 0], sym :: p.seen⟩ (.leaf p.made.length sym) where
  made := ⟨_, rfl, rfl⟩
  indices := rfl
  laid := List.getElem?_concat_length
  seen := .refl _
  nodup h := List.nodup_cons.2 ⟨hseen, h⟩

/-- Two subtrees read one after the other, behind the inner node that waits for their indices. -/
theorem Parse.reads_node {p p₁ p₂ : Parse} {rest : List Byte} {l r : Tree}
    (hl : Parse.Reads ⟨rest, p.made ++ [ProtoNode.mkInner 0 0 0], p.seen⟩ p₁ l) (hr : p₁.Reads p₂ r) :
    p.Reads ⟨p₂.rest, p₂.made.set p.made.length (ProtoNode.mkInner 0 l.index r.index), p₂.seen⟩
      (.node p.made.length l r) := by
  obtain ⟨new₁, hmade₁, hlen₁⟩ := hl.made
  obtain ⟨new₂, hmade₂, hlen₂⟩ := hr.made
  have hset : p₂.made.set p.made.length (ProtoNode.mkInner 0 l.index r.index) =
      p.made ++ ProtoNode.mkInner 0 l.index r.index :: (new₁ ++ new₂) := by
    simp [hmade₂, hmade₁]
  have hp₁ : p₁.made.length = p.made.length + 1 + l.indices.length := by
    simp [hmade₁, hlen₁, Nat.add_assoc, Nat.add_comm 1]
  have hil := hl.indices
  have hir := hr.indices
  rw [List.length_append, List.length_singleton] at hil
  rw [hp₁] at hir
  have hset_ne : ∀ j, p.made.length < j →
      (p₂.made.set p.made.length (ProtoNode.mkInner 0 l.index r.index))[j]? = p₂.made[j]? := fun j hj =>
    List.getElem?_set_ne (Nat.ne_of_lt hj)
  have hkeep : ∀ j, j < p₁.made.length → p₂.made[j]? = p₁.made[j]? := fun j hj => by
    rw [hmade₂, List.getElem?_append_left hj]
  refine ⟨?made, ?indices, ?laid, ?seen, fun h => hr.nodup (hl.nodup h)⟩
  case made => exact ⟨_, hset, by simp [Tree.indices, hlen₁, hlen₂]⟩
  case indices =>
    rw [Tree.indices, List.length_cons, List.length_append, List.range'_succ, ← List.range'_append_1, ← hil, ← hir]
  case laid =>
    refine ⟨?_, hl.laid.congr fun j hj => ?_, hr.laid.congr fun j hj => ?_⟩
    · rw [hset, Tree.weight_zero, Tree.weight_zero]
      simp
    · rw [hil, List.mem_range'_1] at hj
      rw [hset_ne j (by omega), hkeep j (by omega)]
    · rw [hir, List.mem_range'_1] at hj
      exact hset_ne j (by omega)
  case seen =>
    calc List.Perm p₂.seen (r.syms ++ p₁.seen) := hr.seen
      List.Perm _ (r.syms ++ (l.syms ++ p.seen)) := hl.seen.append_left _
      List.Perm _ ((l.syms ++ r.syms) ++ p.seen) := by
        rw [← List.append_assoc]
        exact List.perm_append_comm.append_right _

/-- A parse that succeeds reads the tree whose root it answers. -/
theorem parseTree_reads {fuel i : Nat} {p q : Parse} (h : parseTree fuel p = some (i, q)) :
    ∃ t, t.index = i ∧ p.Reads q t := by
  induction fuel generalizing i p q with
  | zero => cases h
  | succ fuel ih =>
    rcases parseTree_cases h with ⟨rfl, ⟨sym, rest, -, hseen, rfl⟩ | ⟨rest, l, r, p₁, p₂, -, hl, hr, rfl⟩⟩
    · exact ⟨_, rfl, Parse.reads_leaf hseen⟩
    · obtain ⟨tl, rfl, htl⟩ := ih hl
      obtain ⟨tr, rfl, htr⟩ := ih hr
      exact ⟨_, rfl, Parse.reads_node htl htr⟩

/-- The nodes HTLOAD commits are those of one tree, rooted at 0 and without weight (R116). -/
theorem loadTree_fills {input : List Byte} {ns : List ProtoNode} (h : loadTree input = some ns) :
    ∃ t : Tree, t.index = 0 ∧ t.Fills (fun _ => 0) ns := by
  unfold loadTree at h
  split at h
  · cases h
  · next i p hp =>
    split at h
    · cases h
      obtain ⟨t, -, ht⟩ := parseTree_reads hp
      obtain ⟨new, hmade, hlen⟩ := ht.made
      refine ⟨t, ht.index, ht.laid, ?_, ?_⟩
      · rw [hmade, List.nil_append, hlen, ht.indices, List.length_nil, List.length_range', List.range_eq_range']
      · simpa using ht.seen.nodup_iff.1 (ht.nodup List.nodup_nil)
    · cases h

end Sys2Proof.Machine

/-! ## HTREE merges its leaves into one tree -/

namespace Sys2Proof.Machine

/-! ### The forest of trees not merged yet (R112) -/

/-- The pool element of a tree: its weight and the index of its root (R111). -/
def Tree.key (wt : Byte → Nat) (t : Tree) : Key := (t.weight wt, t.index)

theorem Tree.key_node (wt : Byte → Nat) (i : Nat) (l r : Tree) :
    (Tree.node i l r).key wt = ((l.key wt).1 + (r.key wt).1, i) := by
  rw [Tree.key, Tree.weight_node]
  rfl

/-- Between two merges: the arena holds the nodes of the trees `ts`, over the byte values `vs`; the pool holds their
keys; the newest node is a root. -/
structure Forest (wt : Byte → Nat) (vs : List Byte) (pool : List Key) (arena : List ProtoNode) (ts : List Tree) :
    Prop where
  laid    : ∀ t ∈ ts, t.LaidOut wt arena
  pool    : pool.Perm (ts.map (Tree.key wt))
  indices : (ts.flatMap Tree.indices).Perm (List.range arena.length)
  syms    : (ts.flatMap Tree.syms).Perm vs
  newest  : ∃ t ∈ ts, t.index + 1 = arena.length

section
variable {wt : Byte → Nat} {vs : List Byte} {pool rest : List Key} {arena : List ProtoNode} {ts : List Tree}

theorem Tree.LaidOut.append {t : Tree} (h : t.LaidOut wt arena) (new : List ProtoNode)
    (hlt : ∀ i ∈ t.indices, i < arena.length) : t.LaidOut wt (arena ++ new) :=
  h.congr fun i hi => List.getElem?_append_left (hlt i hi)

/-- The tree whose key is taken off the pool, and the trees whose keys stay. -/
theorem exists_tree_of_takeMin {a : Key} (h : pool.Perm (ts.map (Tree.key wt))) (ha : takeMin pool = some (a, rest)) :
    ∃ t ts', a = t.key wt ∧ ts.Perm (t :: ts') ∧ rest.Perm (ts'.map (Tree.key wt)) := by
  have hcons := (takeMin_perm ha).symm.trans h
  obtain ⟨t, ht, rfl⟩ := List.mem_map.1 (hcons.subset List.mem_cons_self)
  have hts := List.perm_cons_erase ht
  exact ⟨t, ts.erase t, rfl, hts, (hcons.trans (hts.map _)).cons_inv⟩

/-- One merge (R112). -/
theorem Forest.merge {a b : Key} {rest₂ : List Key} (h : Forest wt vs pool arena ts)
    (ha : takeMin pool = some (a, rest)) (hb : takeMin rest = some (b, rest₂)) :
    ∃ ts', Forest wt vs (rest₂ ++ [(a.1 + b.1, arena.length)])
      (arena ++ [ProtoNode.mkInner (a.1 + b.1) a.2 b.2]) ts' := by
  obtain ⟨ta, ts₁, rfl, hts₁, hrest₁⟩ := exists_tree_of_takeMin h.pool ha
  obtain ⟨tb, ts₂, rfl, hts₂, hrest₂⟩ := exists_tree_of_takeMin hrest₁ hb
  have hts : ts.Perm (ta :: tb :: ts₂) := hts₁.trans (hts₂.cons ta)
  have hlaid : ∀ t ∈ ts, t.LaidOut wt (arena ++ [ProtoNode.mkInner (ta.weight wt + tb.weight wt) ta.index tb.index]) :=
    fun t ht => (h.laid t ht).append _ fun i hi =>
      List.mem_range.1 (h.indices.subset (List.mem_flatMap.2 ⟨t, ht, hi⟩))
  have hmem : ∀ t ∈ ta :: tb :: ts₂, t ∈ ts := fun t => hts.mem_iff.2
  refine ⟨.node arena.length ta tb :: ts₂, ?laid, ?pool, ?indices, ?syms, _, List.mem_cons_self, by simp [Tree.index]⟩
  case laid =>
    intro t ht
    rcases List.mem_cons.1 ht with rfl | ht
    · exact ⟨List.getElem?_concat_length, hlaid _ (hmem _ (by simp)), hlaid _ (hmem _ (by simp))⟩
    · exact hlaid t (hmem t (by simp [ht]))
  case pool =>
    rw [List.map_cons, Tree.key_node]
    exact (List.perm_append_singleton ..).trans (hrest₂.cons _)
  case indices =>
    have := (hts.flatMap_right Tree.indices).symm.trans h.indices
    rw [List.length_append, List.length_singleton, List.range_succ]
    refine .trans ?_ (List.perm_append_singleton ..).symm
    simpa [Tree.indices] using this
  case syms =>
    simpa [Tree.syms] using (hts.flatMap_right Tree.syms).symm.trans h.syms

/-- With at most one element left in the pool, one tree is left. -/
theorem Forest.eq_singleton (h : Forest wt vs pool arena ts) (hpool : pool.length ≤ 1) : ∃ t, ts = [t] := by
  obtain ⟨t, ht, -⟩ := h.newest
  have hlen := h.pool.length_eq
  have hpos := List.length_pos_of_mem ht
  rw [List.length_map] at hlen
  exact List.length_eq_one_iff.1 (by omega)

theorem takeMin_eq_none (h : takeMin pool = none) : pool = [] := by
  cases pool with
  | nil => rfl
  | cons e es => cases h

/-- As many merges as elements but one leave one tree. -/
theorem Forest.mergeLoop {fuel : Nat} (h : Forest wt vs pool arena ts) (hfuel : pool.length ≤ fuel + 1) :
    ∃ t pool', Forest wt vs pool' (mergeLoop fuel pool arena) [t] := by
  induction fuel generalizing pool arena ts with
  | zero =>
    obtain ⟨t, rfl⟩ := h.eq_singleton hfuel
    exact ⟨t, pool, h⟩
  | succ fuel ih =>
    unfold Machine.mergeLoop
    split
    · next ha =>
      obtain ⟨t, rfl⟩ := h.eq_singleton (by simp [takeMin_eq_none ha])
      exact ⟨t, pool, h⟩
    · next a rest ha =>
      have hrest := (takeMin_perm ha).length_eq
      rw [List.length_cons] at hrest
      split
      · next hb =>
        obtain ⟨t, rfl⟩ := h.eq_singleton (by simp [hrest, takeMin_eq_none hb])
        exact ⟨t, pool, h⟩
      · next b rest₂ hb =>
        have hrest₂ := (takeMin_perm hb).length_eq
        obtain ⟨ts', h'⟩ := h.merge ha hb
        refine ih h' ?_
        rw [List.length_cons] at hrest₂
        rw [List.length_append, List.length_singleton]
        omega

end

/-! ### The leaves (R111) -/

section
variable (freq : Nat → Nat)

/-- The byte values of the leaves, in ascending order (R111). -/
def leafBytes : List Byte := (occurring freq).map (BitVec.ofNat 8)

/-- The leaves, each a tree of its own. -/
def leafTrees : List Tree := (occurring freq).zipIdx.map fun e => .leaf e.2 (BitVec.ofNat 8 e.1)

theorem lt_of_mem_occurring {freq : Nat → Nat} {v : Nat} (h : v ∈ occurring freq) : v < 256 :=
  List.mem_range.1 (List.mem_filter.1 h).1

theorem leafBytes_nodup : (leafBytes freq).Nodup :=
  byteValues_nodup.sublist (List.filter_sublist.map _)

theorem forest_leaves (h : occurring freq ≠ []) :
    Forest (fun v => freq v.toNat) (leafBytes freq) ((leavesOf freq).mapIdx fun j n => (n.weight, j)) (leavesOf freq)
      (leafTrees freq) := by
  have hwt : ∀ v ∈ occurring freq, freq (BitVec.ofNat 8 v).toNat = freq v := fun v hv => by
    rw [toNat_ofNat_of_lt (lt_of_mem_occurring hv)]
  refine ⟨?laid, ?pool, ?indices, ?syms, ?newest⟩
  case laid =>
    intro t ht
    obtain ⟨⟨v, j⟩, he, rfl⟩ := List.mem_map.1 ht
    have hv := List.mem_zipIdx_iff_getElem?.1 he
    rw [Tree.LaidOut, leavesOf, List.getElem?_map, hv, Option.map_some, hwt v (List.mem_of_getElem? hv)]
  case pool =>
    refine .of_eq ?_
    rw [List.mapIdx_eq_zipIdx_map, leavesOf, List.zipIdx_map, List.map_map, leafTrees, List.map_map]
    refine List.map_congr_left fun ⟨v, j⟩ he => ?_
    have hkey : (Tree.leaf j (BitVec.ofNat 8 v)).key (fun v => freq v.toNat) = (freq v, j) := by
      rw [Tree.key, Tree.weight_leaf, hwt v (List.fst_mem_of_mem_zipIdx he)]
      rfl
    exact hkey.symm
  case indices =>
    rw [leafTrees, List.flatMap_map]
    simp only [Tree.indices, ← List.map_eq_flatMap]
    rw [List.zipIdx_map_snd, leavesOf, List.length_map, List.range_eq_range']
  case syms =>
    rw [leafTrees, List.flatMap_map, leafBytes]
    simp only [Tree.syms, ← List.map_eq_flatMap]
    conv_rhs => rw [← List.zipIdx_map_fst 0 (occurring freq), List.map_map]
    exact .refl _
  case newest =>
    have hpos := List.length_pos_of_ne_nil h
    refine ⟨.leaf ((occurring freq).length - 1) (BitVec.ofNat 8 ((occurring freq).getLast h)),
      List.mem_map.2 ⟨(_, _), List.mem_zipIdx_iff_getElem?.2 ?_, rfl⟩, ?_⟩
    · rw [List.getElem?_eq_getElem (by omega), List.getLast_eq_getElem]
    · rw [Tree.index, leavesOf, List.length_map]
      omega

/-- HTREE's arena is one tree over the occurring byte values, and its last node is the root (R112). -/
theorem buildTree_fills (h : occurring freq ≠ []) :
    ∃ t : Tree, t.index = (buildTree freq).length - 1 ∧ t.Fills (fun v => freq v.toNat) (buildTree freq) ∧
      t.syms.Perm (leafBytes freq) := by
  have hfuel : ((leavesOf freq).mapIdx fun j n => (n.weight, j)).length ≤ (leavesOf freq).length + 1 := by simp
  obtain ⟨t, pool, hlaid, -, hindices, hsyms, t', ht', hlast⟩ := (forest_leaves freq h).mergeLoop hfuel
  rw [List.mem_singleton.1 ht'] at hlast
  rw [List.flatMap_singleton] at hindices hsyms
  have hnodup : t.syms.Nodup := hsyms.nodup_iff.2 (leafBytes_nodup freq)
  exact ⟨t, Nat.eq_sub_of_add_eq hlast, ⟨hlaid t List.mem_cons_self, hindices, hnodup⟩, hsyms⟩

/-- The root weighs at most the sum of all frequencies (R112). -/
theorem weight_le_sum_freq {freq : Nat → Nat} {t : Tree} (h : t.syms.Perm (leafBytes freq)) :
    t.weight (fun v => freq v.toNat) ≤ ((List.range 256).map freq).sum := by
  have hleaf : (leafBytes freq).map (fun v => freq v.toNat) = (occurring freq).map freq := by
    rw [leafBytes, List.map_map]
    exact List.map_congr_left fun v hv => congrArg freq (toNat_ofNat_of_lt (lt_of_mem_occurring hv))
  calc t.weight (fun v => freq v.toNat)
    _ = ((occurring freq).map freq).sum := by rw [Tree.weight, (h.map _).sum_eq, hleaf]
    _ ≤ ((List.range 256).map freq).sum :=
      (List.filter_sublist.map freq).sum_le_sum fun _ _ => Nat.zero_le _

end

/-- The frequencies HTREE reads are those of FREQ. -/
theorem State.map_freqAt (s : State) : (List.range 256).map s.freqAt = s.freq.toList.map BitVec.toNat := by
  refine List.ext_getElem (by simp) fun i hi _ => ?_
  have hlt : i < 256 := by simpa using hi
  simp [State.freqAt, hlt]

/-- The weights of a tree over a sound FREQ fit their field (R14). -/
theorem State.Sound.weight_lt {s : State} (h : s.Sound) {t : Tree} (ht : t.syms.Perm (leafBytes s.freqAt)) :
    t.weight (fun v => s.freqAt v.toNat) < 2 ^ 32 := by
  have hfreq := h.freq
  have hcap := h.lengths.capMax
  have hw := weight_le_sum_freq ht
  rw [s.map_freqAt] at hw
  exact hw.trans_lt ((hfreq.trans hcap).trans_lt (by decide))

end Sys2Proof.Machine

/-! ## Every step keeps the arena a valid tree -/

namespace Sys2Proof.Machine

/-- `t` has the arena of `s`: the valid nodes and the root. -/
structure State.SameArena (s t : State) : Prop where
  nodeCount : t.nodeCount = s.nodeCount
  root      : t.root = s.root
  node      : t.mem.node = s.mem.node

section
variable {s t u : State}

theorem State.SameArena.node?_eq (h : s.SameArena t) (i : Nat) : t.node? i = s.node? i := by
  rw [State.node?, State.node?, h.nodeCount, h.node]

theorem State.SameArena.readTree_eq (h : s.SameArena t) (fuel i : Nat) : t.readTree fuel i = s.readTree fuel i := by
  induction fuel generalizing i with
  | zero => rfl
  | succ fuel ih => simp only [State.readTree, h.node?_eq, ih]

theorem State.ArenaOk.of_sameArena (h : s.ArenaOk) (hst : s.SameArena t) : t.ArenaOk where
  rootNil := by
    rw [hst.nodeCount, hst.root]
    exact h.rootNil
  tree := by
    rw [hst.nodeCount, State.tree?, hst.root, hst.readTree_eq]
    exact h.tree
  leaf := by
    simp only [hst.node?_eq]
    exact h.leaf
  inner := by
    simp only [hst.node?_eq]
    exact h.inner

/-- An arena with no node is valid when its root is NIL. -/
theorem State.arenaOk_of_empty (hcount : s.nodeCount = 0) (hroot : s.root = Config.nil) : s.ArenaOk := by
  have hnone : ∀ i, s.node? i = none := fun i => by rw [State.node?, hcount]; rfl
  refine ⟨fun _ => hroot, fun h => absurd hcount h, fun i n hi => ?_, fun i n hi => ?_⟩ <;>
    exact absurd hi (by simp [hnone])

/-- What a commit leaves as it is: the registers it never writes and the model's own fields, and, unless it is HTREE's
or HTLOAD's, the arena (R43). -/
structure CommitFrame (i : Instr) (s u : State) : Prop where
  control : u = { s with
    len := u.len, bitLen := u.bitLen, origIndex := u.origIndex, alphaLen := u.alphaLen, runLen := u.runLen,
    nodeCount := u.nodeCount, root := u.root, freq := u.freq, code := u.code, mem := u.mem }
  arena   : i ≠ .htree → (∀ k, i ≠ .htload k) → s.SameArena u

theorem Committed.frame {i : Instr} (hu : Committed i s u) : CommitFrame i s u := by
  have same : s.SameArena s := ⟨rfl, rfl, rfl⟩
  cases i with
  | htree =>
    obtain ⟨-, rfl⟩ := hu
    exact ⟨rfl, fun h => absurd rfl h⟩
  | htload k => rcases hu with ⟨-, rfl⟩ | ⟨-, ns, -, rfl⟩ <;> exact ⟨rfl, fun _ h => absurd rfl (h k)⟩
  | nop | hfreq k | bwtf k d | mtfe k d | rlee k | pack d =>
    cases hu
    exact ⟨rfl, fun _ _ => { same with }⟩
  | hcode => rcases hu with ⟨-, rfl⟩ | ⟨-, tr, -, rfl⟩ <;> exact ⟨rfl, fun _ _ => { same with }⟩
  | henc k =>
    obtain ⟨bits, -, -, rfl⟩ := hu
    exact ⟨rfl, fun _ _ => { same with }⟩
  | hdec d => rcases hu with ⟨-, rfl⟩ | ⟨-, -, out, -, rfl⟩ <;> exact ⟨rfl, fun _ _ => { same with }⟩
  | htser d =>
    obtain ⟨out, -, rfl, -⟩ := hu
    exact ⟨rfl, fun _ _ => { same with }⟩
  | bwti k d => rcases hu with ⟨-, rfl⟩ | ⟨-, -, rfl⟩ <;> exact ⟨rfl, fun _ _ => { same with }⟩
  | mtfd k d | rled d =>
    obtain ⟨out, -, rfl⟩ := hu
    exact ⟨rfl, fun _ _ => { same with }⟩
  | unpack k =>
    obtain ⟨-, rfl⟩ := hu
    exact ⟨rfl, fun _ _ => { same with }⟩

theorem CommitFrame.bufCap {i : Instr} (h : CommitFrame i s u) : u.bufCap = s.bufCap := by rw [h.control]

theorem CommitFrame.ovr {i : Instr} (h : CommitFrame i s u) : u.ovr = s.ovr := by rw [h.control]

/-- HTREE and HTLOAD commit a whole tree, or none. -/
theorem State.ArenaOk.committed (h : s.ArenaOk) (hs : s.Sound) {i : Instr} (hu : Committed i s u) : u.ArenaOk := by
  by_cases htree : i = .htree
  · subst htree
    obtain ⟨hne, rfl⟩ := hu
    obtain ⟨tr, hroot, hfills, hsyms⟩ := buildTree_fills s.freqAt hne
    exact hroot ▸ s.arenaOk_putArena hfills (hs.weight_lt hsyms)
  by_cases htload : ∃ k, i = .htload k
  · obtain ⟨k, rfl⟩ := htload
    rcases hu with ⟨-, rfl⟩ | ⟨-, ns, hns, rfl⟩
    · exact State.arenaOk_of_empty rfl rfl
    · obtain ⟨tr, hroot, hfills⟩ := loadTree_fills hns
      exact hroot ▸ s.arenaOk_putArena hfills (by rw [Tree.weight_zero]; exact Nat.two_pow_pos 32)
  exact h.of_sameArena (hu.frame.arena htree fun k hk => htload ⟨k, hk⟩)

/-- No host access writes the arena (R66). -/
theorem State.sameArena_writeLoc (s : State) (v : Word) (l : Loc) : s.SameArena (s.writeLoc v l) := by
  unfold State.writeLoc
  split
  · exact ⟨rfl, rfl, rfl⟩
  · cases l <;> exact ⟨rfl, rfl, rfl⟩

theorem State.sameArena_access (s : State) (op : HostOp) : s.SameArena (s.access op) := by
  unfold State.access
  split
  · exact ⟨rfl, rfl, rfl⟩
  · cases op with
    | read n o => exact ⟨rfl, rfl, rfl⟩
    | write n o v => exact { s.sameArena_writeLoc v (locate o.toNat) with }

/-! ### What a step can do -/

/-- The core's turn does nothing, ends a command with a code, or commits one (R202, R203). -/
theorem coreTurn_cases (h : coreTurn s = .next t) :
    t = s ∨ (∃ e, t = s.complete e) ∨ ∃ i u, Committed i s u ∧ t = u.complete .ok := by
  cases hp : s.phase with
  | idle =>
    rw [coreTurn_idle hp] at h
    cases h
    exact .inl rfl
  | busy c =>
    rw [coreTurn_busy hp] at h
    cases hd : decode c with
    | error e =>
      rw [completion_error hd] at h
      cases h
      exact .inr (.inl ⟨_, rfl⟩)
    | ok i =>
      rw [completion_ok hd] at h
      rcases exec_cases h with ⟨e, -, he⟩ | ⟨u, rfl, hu⟩
      · exact .inr (.inl ⟨e, he⟩)
      · exact .inr (.inr ⟨i, u, hu, rfl⟩)

/-- A step takes the next event off the agenda and is the core's turn, a host access or a reset (R16). -/
theorem step_cases (h : step s = .next t) :
    (∃ es, (s.agenda = .core :: es ∨ s.agenda = [] ∧ es = []) ∧ coreTurn { s with agenda := es } = .next t) ∨
      (∃ op es, s.agenda = .host op :: es ∧ t = State.access op { s with agenda := es }) ∨
      ∃ es, s.agenda = .reset :: es ∧ t = State.resetNow { s with agenda := es } := by
  rcases hs : s.agenda with _ | ⟨op | _ | _, es⟩
  · exact .inl ⟨[], .inr ⟨rfl, rfl⟩, by rw [← hs]; exact step_nil hs ▸ h⟩
  · rw [step_host hs] at h
    cases h
    exact .inr (.inl ⟨op, es, rfl, rfl⟩)
  · exact .inl ⟨es, .inl rfl, step_core hs ▸ h⟩
  · rw [step_reset hs] at h
    cases h
    exact .inr (.inr ⟨es, rfl, rfl⟩)

end

/-- Settles O59: of the moves of a step only a commit of HTREE or HTLOAD, and reset, write the arena. -/
theorem stepKeepsArena : Obligations.StepKeepsArena := by
  intro s t hs h ht
  have hset : ∀ es, State.ArenaOk { s with agenda := es } := fun es => h.of_sameArena ⟨rfl, rfl, rfl⟩
  rcases step_cases ht with ⟨es, -, hcore⟩ | ⟨op, es, -, rfl⟩ | ⟨es, -, rfl⟩
  · rcases coreTurn_cases hcore with rfl | ⟨e, rfl⟩ | ⟨i, u, hu, rfl⟩
    · exact hset es
    · exact (hset es).of_sameArena ⟨rfl, rfl, rfl⟩
    · exact ((hset es).committed hs.setFree hu).of_sameArena ⟨rfl, rfl, rfl⟩
  · exact (hset es).of_sameArena (State.sameArena_access _ op)
  · exact State.arenaOk_of_empty rfl rfl

/-- Settles O60: a valid arena has as many entries as its tree has nodes. -/
theorem arenaCountsItsLeaves : Obligations.ArenaCountsItsLeaves := by
  intro s h hne
  obtain ⟨t, htree, hindices, hsyms⟩ := h.tree hne
  have hcount := hindices.length_eq
  have hnodes := t.length_indices
  rw [List.length_range] at hcount
  exact ⟨_, t, htree, rfl, t.length_syms_pos, length_le_of_nodup_bytes hsyms, by omega⟩

/-- Settles O57: after reset no memory lists an index and the arena has no node. -/
theorem resetIsSound : Obligations.ResetIsSound := fun _ hpos hmax =>
  ⟨State.resetOf_sound hpos hmax, State.arenaOk_of_empty rfl rfl⟩

end Sys2Proof.Machine

/-! ## The memories and their length registers after a commit -/

namespace Sys2Proof.Machine

/-- A memory `m` under a length register that held `len` is left alone, or holds a new value list of at most `cap`
elements from index 0 on, whose length the register takes. -/
def Store.CommitsTo {α : Type} (cap len : Nat) (m : Store α) (len' : Nat) (m' : Store α) : Prop :=
  (len' = len ∧ m' = m) ∨ ∃ xs : List α, xs.length ≤ cap ∧ len' = xs.length ∧ m' = Store.put xs m

section
variable {α : Type} {cap len len' : Nat} {m m' : Store α}

theorem Store.commitsTo_refl : Store.CommitsTo cap len m len m := .inl ⟨rfl, rfl⟩

theorem Store.commitsTo_put {w : Nat} {xs : List α} (hx : xs.length ≤ cap) (hcap : cap < 2 ^ w) :
    Store.CommitsTo cap len m (BitVec.ofNat w xs.length).toNat (Store.put xs m) :=
  .inr ⟨xs, hx, toNat_ofNat_of_lt (hx.trans_lt hcap), rfl⟩

theorem Store.CommitsTo.length_le (h : Store.CommitsTo cap len m len' m') (hlen : len ≤ cap) : len' ≤ cap := by
  rcases h with ⟨rfl, -⟩ | ⟨xs, hx, rfl, -⟩
  · exact hlen
  · exact hx

/-- An index at or above the new length keeps its content (R48). -/
theorem Store.CommitsTo.get_stale (h : Store.CommitsTo cap len m len' m') {j : Nat} (hj : len' ≤ j) :
    Store.get m' j = Store.get m j := by
  rcases h with ⟨-, rfl⟩ | ⟨xs, -, rfl, rfl⟩
  · rfl
  · rw [Store.get_put, if_neg (Nat.not_lt.2 hj)]

end

/-- Every memory of `u` is the one of `s` or a new value list under its new length (R78). -/
structure State.CommitsTo (s u : State) : Prop where
  buf   : ∀ k, Store.CommitsTo s.bufCap (s.len.get k).toNat (s.mem.buf.get k) (u.len.get k).toNat (u.mem.buf.get k)
  bit   : Store.CommitsTo s.bitCap s.bitLen.toNat s.mem.bit u.bitLen.toNat u.mem.bit
  alpha : Store.CommitsTo Config.alphaCap s.alphaLen.toNat s.mem.alpha u.alphaLen.toNat u.mem.alpha
  run   : Store.CommitsTo s.runCap s.runLen.toNat s.mem.run u.runLen.toNat u.mem.run
  node  : Store.CommitsTo Config.nodeCap s.nodeCount.toNat s.mem.node u.nodeCount.toNat u.mem.node

section
variable {s u : State}

theorem State.commitsTo_refl (s : State) : s.CommitsTo s :=
  ⟨fun _ => Store.commitsTo_refl, Store.commitsTo_refl, Store.commitsTo_refl, Store.commitsTo_refl,
    Store.commitsTo_refl⟩

theorem State.LengthsLegal.bufCap_lt (h : s.LengthsLegal) : s.bufCap < 2 ^ 32 := h.capMax.trans_lt (by decide)

theorem State.LengthsLegal.bitCap_lt (h : s.LengthsLegal) : s.bitCap < 2 ^ 32 := by
  have := h.capMax
  simp only [Config.bufCapMax] at this
  rw [State.bitCap]
  omega

theorem State.LengthsLegal.commitsTo_putBlock (h : s.LengthsLegal) (k : Buf) {xs : List Byte}
    (hx : xs.length ≤ s.bufCap) : s.CommitsTo (s.putBlock k xs) :=
  { s.commitsTo_refl with
    buf := fun j => by
      rw [State.len_putBlock, State.putBlock_mem, PerBuf.get_set]
      split
      · next hj => exact hj ▸ Store.commitsTo_put hx h.bufCap_lt
      · exact Store.commitsTo_refl }

theorem State.LengthsLegal.commitsTo_putBits (h : s.LengthsLegal) {bs : List Bool} (hx : bs.length ≤ s.bitCap) :
    s.CommitsTo ((s.putBits bs).putBitLen bs.length) :=
  { s.commitsTo_refl with bit := Store.commitsTo_put hx h.bitCap_lt }

theorem State.LengthsLegal.commitsTo_putRuns (h : s.LengthsLegal) {rs : List Run} (hx : rs.length ≤ s.runCap) :
    s.CommitsTo (s.putRuns rs) :=
  { s.commitsTo_refl with run := Store.commitsTo_put hx h.bufCap_lt }

theorem State.commitsTo_putAlphabet {a : List Byte} (hx : a.length ≤ Config.alphaCap) : s.CommitsTo (s.putAlphabet a) :=
  { s.commitsTo_refl with alpha := Store.commitsTo_put hx (by decide) }

theorem State.commitsTo_putArena {ns : List ProtoNode} (root : Nat) (hx : ns.length ≤ Config.nodeCap) :
    s.CommitsTo (s.putArena ns root) :=
  { s.commitsTo_refl with
    node := by
      rw [State.putArena_nodeCount, ← List.length_map ProtoNode.toNode]
      exact Store.commitsTo_put (by simpa using hx) (by decide) }

theorem State.LengthsLegal.length_block_le (h : s.LengthsLegal) (k : Buf) : (s.block k).length ≤ s.bufCap :=
  (s.length_block k).trans_le (h.len k)

/-- Whatever a command commits fits its destination, and nothing else is written. -/
theorem State.LengthsLegal.commitsTo (h : s.LengthsLegal) {i : Instr} (hu : Committed i s u) : s.CommitsTo u := by
  have same := s.commitsTo_refl
  cases i with
  | nop | hfreq k =>
    cases hu
    exact { same with }
  | htree =>
    obtain ⟨-, rfl⟩ := hu
    exact State.commitsTo_putArena _ (length_buildTree_le _)
  | hcode => rcases hu with ⟨-, rfl⟩ | ⟨-, tr, -, rfl⟩ <;> exact { same with }
  | henc k =>
    obtain ⟨bits, -, hfit, rfl⟩ := hu
    exact h.commitsTo_putBits hfit
  | hdec d =>
    rcases hu with ⟨-, rfl⟩ | ⟨-, -, out, hout, rfl⟩
    · exact h.commitsTo_putBlock d (Nat.zero_le _)
    · exact h.commitsTo_putBlock d (State.length_decodeBits_le hout (Nat.zero_le _))
  | htser d =>
    obtain ⟨out, hfit, rfl, -⟩ := hu
    exact h.commitsTo_putBlock d hfit
  | htload k =>
    rcases hu with ⟨-, rfl⟩ | ⟨-, ns, hns, rfl⟩
    · exact { same with node := .inr ⟨[], Nat.zero_le _, rfl, by simp [Store.put, Store.listFrom]⟩ }
    · exact State.commitsTo_putArena 0 (length_loadTree_le hns)
  | bwtf k d =>
    cases hu
    exact { h.commitsTo_putBlock d ((length_lastColumn _).trans_le (h.length_block_le k)) with }
  | bwti k d =>
    rcases hu with ⟨-, rfl⟩ | ⟨-, -, rfl⟩
    · exact h.commitsTo_putBlock d (Nat.zero_le _)
    · exact h.commitsTo_putBlock d ((length_linkWalk ..).trans_le (h.length_block_le k))
  | mtfe k d =>
    cases hu
    have hlen : ((mtfEncode (initialAlphabet (s.block k)) (s.block k)).map (BitVec.ofNat 8)).length ≤ s.bufCap := by
      rw [List.length_map, length_mtfEncode]
      exact h.length_block_le k
    exact { h.commitsTo_putBlock d hlen with alpha := (State.commitsTo_putAlphabet (initialAlphabet_length _)).alpha }
  | mtfd k d =>
    obtain ⟨out, hout, rfl⟩ := hu
    exact h.commitsTo_putBlock d ((length_mtfDecode hout).trans_le (h.length_block_le k))
  | rlee k =>
    cases hu
    refine h.commitsTo_putRuns ?_
    rw [List.length_map]
    exact (length_runsOf_le _).trans (h.length_block_le k)
  | rled d =>
    obtain ⟨out, hout, rfl⟩ := hu
    exact h.commitsTo_putBlock d (length_expandRuns_le hout (Nat.zero_le _))
  | pack d =>
    cases hu
    exact h.commitsTo_putBlock d (State.length_packBits_bits_le h)
  | unpack k =>
    obtain ⟨-, rfl⟩ := hu
    exact { same with bit := .inr ⟨_, (length_unpackBits ..).trans_le h.bitLen, (length_unpackBits ..).symm, rfl⟩ }

end

/-- Settles O13: a commit writes a memory below its new length only, and a failure writes none. -/
theorem commandsKeepStaleStorage : Obligations.CommandsKeepStaleStorage := by
  intro i s t h ht
  have hst : s.CommitsTo t := by
    rcases exec_cases ht with ⟨e, -, rfl⟩ | ⟨u, rfl, hu⟩
    · exact { s.commitsTo_refl with }
    · exact { h.commitsTo hu with }
  exact ⟨fun k _ hj => (hst.buf k).get_stale hj, fun _ hj => hst.bit.get_stale hj, fun _ hj => hst.run.get_stale hj,
    fun _ hj => hst.alpha.get_stale hj, fun _ hj => hst.node.get_stale hj⟩

end Sys2Proof.Machine

/-! ## Host accesses to registers and unassigned offsets -/

namespace Sys2Proof.Machine

section
variable {s t : State} {v : Word} {o : BitVec 29} {es : List Event}

/-! ### The step of one access -/

theorem step_read (ho : o.toNat % 4 = 0) (hs : s.agenda = .host (.read 4 o) :: es) :
    step s = .next { s with
      agenda := es, resp := some (.readData (State.readLoc { s with agenda := es } (locate o.toNat))),
      draws := s.draws + 1 } := by
  rw [step_host hs, State.access_read ho]

theorem step_write (ho : o.toNat % 4 = 0) (hs : s.agenda = .host (.write 4 o v) :: es) :
    step s = .next { State.writeLoc v { s with agenda := es } (locate o.toNat) with
      resp := some .writeDone, draws := s.draws + 1 } := by
  rw [step_host hs, State.access_write ho]

theorem step_write_idle (hp : s.phase = .idle) (ho : o.toNat % 4 = 0) (hs : s.agenda = .host (.write 4 o v) :: es) :
    step s = .next { State.writeIdle v { s with agenda := es } (locate o.toNat) with
      resp := some .writeDone, draws := s.draws + 1 } := by
  rw [step_write ho hs, State.writeLoc_idle (s := { s with agenda := es }) (State.busy_eq_false.2 hp)]

/-! ### STATUS (R23 to R27) -/

/-- A location R68 lists reads as it is, idle or busy. -/
theorem State.readLoc_of_readableBusy {l : Loc} (h : l.readableBusy = true) : s.readLoc l = s.readIdle l := by
  simp [State.readLoc, h]

/-- The fields of STATUS, each at its place. -/
theorem State.readLoc_status (s : State) :
    s.readLoc (locate 0x00C) =
      (if s.busy then 1#32 else 0) ||| (if s.done then 2#32 else 0) ||| (if s.ovr then 4#32 else 0) |||
      (match s.err with
        | .ok => 0x000#32 | .emptyInput => 0x100 | .corruptStream => 0x200 | .format => 0x300
        | .unsupported => 0x400 | .noCode => 0x500 | .capacity => 0x600) := by
  rw [locate_eq_status.2 rfl, State.readLoc_of_readableBusy rfl, State.readIdle, State.statusWord]
  generalize s.busy = b, s.done = d, s.ovr = o, s.err = e
  revert b d o
  cases e <;> decide

/-- A write to STATUS has its effect idle or busy. -/
theorem State.writeLoc_status : s.writeLoc v .status = s.writeStatus v := by
  simp [State.writeLoc, State.writeIdle]

end

/-- Settles O42: STATUS is readable and writable whether or not the core is busy. -/
theorem statusFieldsAndWrites : Obligations.StatusFieldsAndWrites := by
  refine ⟨State.readLoc_status, fun s v es hs => ?_⟩
  rw [step_write (by decide) hs, locate_eq_status.2 (by decide), State.writeLoc_status]
  rfl

section
variable {s t : State} {v : Word} {op : HostOp}

/-! ### OVR (R26) -/

theorem State.ovr_access_read (n : Nat) (o : BitVec 29) : (s.access (.read n o)).ovr = s.ovr := by
  unfold State.access
  split <;> rfl

/-- A write that takes OVR from 1 to 0 is a write of 1 to bit 2 of STATUS. -/
theorem State.eq_status_of_ovr_writeLoc {l : Loc} (hs : s.ovr = true) (ht : (s.writeLoc v l).ovr = false) :
    l = .status ∧ v.getLsbD 2 = true := by
  unfold State.writeLoc at ht
  split at ht
  · cases ht
  · cases l with
    | status => exact ⟨rfl, by simpa [State.writeIdle, hs] using ht⟩
    | _ => cases hs.symm.trans ht

theorem State.eq_write_status_of_ovr_access (hs : s.ovr = true) (ht : (s.access op).ovr = false) :
    ∃ v, op = .write 4 0x00C#29 v ∧ v.getLsbD 2 = true := by
  cases op with
  | read n o => cases hs.symm.trans ((State.ovr_access_read n o).symm.trans ht)
  | write n o v =>
    cases href : busRefusal (.write n o v) with
    | some e =>
      rw [State.access_refused href] at ht
      cases hs.symm.trans ht
    | none =>
      obtain ⟨hn, ho⟩ := busRefusal_none.1 href
      obtain rfl : n = 4 := hn
      rw [State.access_write (o := o) ho] at ht
      obtain ⟨hl, hv⟩ := State.eq_status_of_ovr_writeLoc hs ht
      obtain rfl : o = 0x00C#29 := BitVec.eq_of_toNat_eq (locate_eq_status.1 hl)
      exact ⟨v, rfl, hv⟩

theorem ovr_coreTurn (h : coreTurn s = .next t) : t.ovr = s.ovr := by
  rcases coreTurn_cases h with rfl | ⟨e, rfl⟩ | ⟨i, u, hu, rfl⟩
  · rfl
  · rfl
  · exact hu.frame.ovr

end

/-- Settles O43: of the moves of a step only a write to STATUS and reset can clear OVR. -/
theorem busyWritesAreLostAndFlagged : Obligations.BusyWritesAreLostAndFlagged := by
  refine ⟨fun s c v o es hp ho hctrl hstatus hs => ?_, fun s t n o es hs ht => ?_, fun s t ht hovr hclear => ?_⟩
  · have hl₁ : locate o.toNat ≠ .status := fun h => hstatus (BitVec.eq_of_toNat_eq (locate_eq_status.1 h))
    have hl₂ : locate o.toNat ≠ .ctrl := fun h => hctrl (BitVec.eq_of_toNat_eq (locate_eq_ctrl.1 h))
    rw [step_write ho hs, State.writeLoc_busy (s := { s with agenda := es }) (State.busy_eq_true.2 ⟨c, hp⟩) hl₁ hl₂]
  · rw [step_host hs] at ht
    cases ht
    exact State.ovr_access_read n o
  · rcases step_cases ht with ⟨es, -, hcore⟩ | ⟨op, es, hs, rfl⟩ | ⟨es, hs, -⟩
    · cases hovr.symm.trans ((ovr_coreTurn hcore).symm.trans hclear)
    · obtain ⟨v, rfl, hv⟩ := State.eq_write_status_of_ovr_access (s := { s with agenda := es }) hovr hclear
      exact .inl ⟨v, es, hs, hv⟩
    · exact .inr ⟨es, hs⟩

/-! ### Unassigned offsets (R38, R65) -/

theorem locateReg_unassigned {o : Nat} (h : o = 0x038 ∨ o = 0x03C ∨ 0x048 < o) : locateReg o = .unassigned := by
  unfold locateReg
  split
  case h_18 => rfl
  all_goals omega

theorem locate_unassigned {o : Nat}
    (h : o ∈ [0x038, 0x03C] ∨ (0x048 < o ∧ o < 0x1000) ∨ (0x1400 ≤ o ∧ o < 0x2000) ∨ (0x2FF8 ≤ o ∧ o < 0x4000) ∨
      (0x8100 ≤ o ∧ o < 0x04000000) ∨ 0x1C000000 ≤ o) : locate o = .unassigned := by
  simp only [List.mem_cons, List.not_mem_nil, or_false] at h
  by_cases hreg : o < 0x1000
  · rw [locate_of_lt hreg, locateReg_unassigned (by omega)]
  · unfold locate
    rcases h with h | h | h | h | h | h
    · omega
    · omega
    · rw [if_neg hreg, if_neg (by omega), if_pos (by omega)]
    · rw [if_neg hreg, if_neg (by omega), if_neg (by omega), if_neg (by omega), if_pos (by omega)]
    · rw [if_neg hreg, if_neg (by omega), if_neg (by omega), if_neg (by omega), if_neg (by omega), if_neg (by omega),
        if_neg (by omega), if_pos (by omega)]
    · rw [if_neg hreg]
      iterate 13 rw [if_neg (by omega)]

theorem State.writeLoc_unassigned (s : State) (v : Word) :
    s.writeLoc v .unassigned = { s with ovr := s.ovr || s.busy } := by
  cases hb : s.busy with
  | true => rw [State.writeLoc_busy hb (by decide) (by decide), Bool.or_true]
  | false => rw [State.writeLoc_idle hb, Bool.or_false]; rfl

/-- Settles O48: the map sends each of these ranges to no location. -/
theorem unassignedOffsetsReadZero : Obligations.UnassignedOffsetsReadZero := by
  intro s v o es ho hrange
  have hl := locate_unassigned hrange
  refine ⟨fun hp hs => ?_, fun hs => ?_⟩
  · rw [step_read ho hs, hl, State.readLoc_idle (s := { s with agenda := es }) (State.busy_eq_false.2 hp)]
    rfl
  · rw [step_write ho hs, hl, State.writeLoc_unassigned]
    rfl

/-! ### Length registers (R30 to R34, R39) -/

section
variable {s t : State}

theorem State.LengthsLegal.writeIdle (h : s.LengthsLegal) (v : Word) (l : Loc) : (s.writeIdle v l).LengthsLegal := by
  cases l with
  | len k =>
    exact { h with
      len := PerBuf.forall_set (P := fun v : Word => v.toNat ≤ s.bufCap) h.len k (legalOr_le (h.len k)) }
  | bitLen => exact { h with bitLen := legalOr_le h.bitLen }
  | alphaLen => exact { h with alphaLen := legalOr_le h.alphaLen }
  | runLen => exact { h with runLen := legalOr_le h.runLen }
  | _ => exact { h with }

theorem State.LengthsLegal.access (h : s.LengthsLegal) (op : HostOp) : (s.access op).LengthsLegal := by
  have hw : ∀ v l, (s.writeLoc v l).LengthsLegal := fun v l => by
    unfold State.writeLoc
    split
    · exact { h with }
    · exact h.writeIdle v l
  unfold State.access
  split
  · exact { h with }
  · cases op with
    | read n o => exact { h with }
    | write n o v => exact { hw v (locate o.toNat) with }

/-- A commit under legal lengths leaves legal lengths. -/
theorem State.LengthsLegal.committed (h : s.LengthsLegal) {i : Instr} {u : State} (hu : Committed i s u) :
    u.LengthsLegal := by
  have hc := h.commitsTo hu
  have hcap : u.bufCap = s.bufCap := hu.frame.bufCap
  refine ⟨hcap ▸ h.capPos, hcap ▸ h.capMax, fun k => ?_, ?_, hc.alpha.length_le h.alphaLen, ?_⟩
  · rw [hcap]
    exact (hc.buf k).length_le (h.len k)
  · rw [State.bitCap, hcap]
    exact hc.bit.length_le h.bitLen
  · rw [State.runCap, hcap]
    exact hc.run.length_le h.runLen

theorem State.LengthsLegal.coreTurn (h : s.LengthsLegal) (ht : coreTurn s = .next t) : t.LengthsLegal := by
  rcases coreTurn_cases ht with rfl | ⟨e, rfl⟩ | ⟨i, u, hu, rfl⟩
  · exact h
  · exact { h with }
  · exact { h.committed hu with }

theorem State.LengthsLegal.step (h : s.LengthsLegal) (ht : step s = .next t) : t.LengthsLegal := by
  have hset : ∀ es, State.LengthsLegal { s with agenda := es } := fun es => { h with }
  rcases step_cases ht with ⟨es, -, hcore⟩ | ⟨op, es, -, rfl⟩ | ⟨es, -, rfl⟩
  · exact (hset es).coreTurn hcore
  · exact (hset es).access op
  · exact { (State.resetOf_sound h.capPos h.capMax).lengths with }

theorem locate_len (k : Buf) : locate (BitVec.ofNat 29 (0x010 + 4 * k.toNat)).toNat = .len k := by
  cases k <;> rfl

theorem legalOr_of_le {max : Nat} {v old : Word} (h : v.toNat ≤ max) : legalOr max v old = v := if_pos h

theorem legalOr_of_lt {max : Nat} {v old : Word} (h : max < v.toNat) : legalOr max v old = old :=
  if_neg (Nat.not_le.2 h)

end

/-- Settles O46: commits and host writes keep the lengths legal, and each register's write is its one access. -/
theorem lengthRegistersTakeLegalValues : Obligations.LengthRegistersTakeLegalValues := by
  refine ⟨fun s t h ht => h.step ht, fun s v es hp => ⟨fun k hs => ?_, ?_, ?_, ?_, ?_⟩⟩
  · have ho : (BitVec.ofNat 29 (0x010 + 4 * k.toNat)).toNat % 4 = 0 := by cases k <;> rfl
    refine ⟨_, step_write_idle hp ho hs, ?_⟩
    rw [locate_len]
    refine ⟨rfl, fun hv => ?_, fun hv => ?_, fun j hj => PerBuf.get_set_ne _ _ hj⟩
    · exact (PerBuf.get_set_self ..).trans (legalOr_of_le hv)
    · exact (PerBuf.get_set_self ..).trans (legalOr_of_lt hv)
  all_goals exact step_write_idle hp (by decide)

/-! ### The reset state (R52) -/

theorem CodeEntry.word_zero (w : Nat) : CodeEntry.word ⟨0, 0⟩ w = 0 := by
  unfold CodeEntry.word
  split
  · rfl
  · split
    · simp
    · rfl

/-- Settles O53: the reset state is idle, so every location reads as its field. -/
theorem resetValues : Obligations.ResetValues := by
  rintro cap s rfl
  refine ⟨rfl, ?ctrl, rfl, ?status, fun k => by cases k <;> rfl, rfl, rfl, rfl, rfl, rfl, rfl, rfl, rfl, rfl,
    fun v hv => ?freq, fun v w hv hw => ?code, rfl, rfl, rfl⟩
  case ctrl =>
    have hword : (0#31) ++ BitVec.ofBool false = 0#32 := by decide
    exact hword
  case status =>
    rw [State.readLoc_status]
    simp [State.busy]
  case freq =>
    rw [locate_freq hv, State.readLoc_idle rfl, State.readIdle, State.resetOf_freq, Vector.toList_replicate]
    exact List.getD_replicate _ hv
  case code =>
    rw [locate_code hv hw, State.readLoc_idle rfl, State.readIdle, State.resetOf_code, Vector.toList_replicate]
    exact (congrArg (CodeEntry.word · w) (List.getD_replicate _ hv)).trans (CodeEntry.word_zero w)

end Sys2Proof.Machine

/-! ## A command whose source is its destination -/

namespace Sys2Proof.Machine

/-- Of a transform with a source and a destination, only the place its block goes to depends on the destination (R79): the
failure, the registers and the block itself are those of the source alone. -/
theorem exec_srcDst_cases {c : Buf → Buf → Instr} (hc : c ∈ [Instr.bwtf, Instr.bwti, Instr.mtfe, Instr.mtfd]) (s : State)
    (k : Buf) :
    (∃ e, e ≠ .ok ∧ ∀ d, exec (c k d) s = .next (s.complete e)) ∨
      ∃ (b : State) (out : List Byte), out.length = (s.block k).length ∧
        ∀ d, exec (c k d) s = .next ((b.putBlock d out).complete .ok) := by
  simp only [List.mem_cons, List.not_mem_nil, or_false] at hc
  rcases hc with rfl | rfl | rfl | rfl
  · exact .inr ⟨s.putOrigIndex (originalRank (s.block k)), _, length_lastColumn _, fun d => rfl⟩
  · by_cases hb : s.block k = []
    · exact .inr ⟨s, [], by rw [hb], fun d => by simp [exec, execBwti, hb]⟩
    · by_cases hi : (s.block k).length ≤ s.origIndex.toNat
      · exact .inl ⟨.format, by decide, fun d => by rw [exec, execBwti, if_neg hb, if_pos hi, failWith_eq]⟩
      · exact .inr ⟨s, _, length_linkWalk .., fun d => by
          rw [exec, execBwti, if_neg hb, if_neg hi, commit_eq, inverseBwt]⟩
  · exact .inr ⟨s.putAlphabet (initialAlphabet (s.block k)), _, by rw [List.length_map, length_mtfEncode],
      fun d => rfl⟩
  · cases hout : mtfDecode s.alphabet (s.block k) with
    | none => exact .inl ⟨.format, by decide, fun d => by simp [exec, execMtfd, hout]⟩
    | some out => exact .inr ⟨s, out, length_mtfDecode hout, fun d => by simp [exec, execMtfd, hout]⟩

/-- Settles O41: the destination is only where the result goes, and a block just written is read back from there. -/
theorem sourceMayBeDestination : Obligations.SourceMayBeDestination := by
  intro k d s t u c hc ht hu
  rcases exec_srcDst_cases hc s k with ⟨e, he, hexec⟩ | ⟨b, out, hlen, hexec⟩
  · rw [hexec] at ht hu
    cases ht
    cases hu
    exact ⟨rfl, rfl, rfl, rfl, fun herr => absurd herr he⟩
  · rw [hexec] at ht hu
    cases ht
    cases hu
    have hlt : out.length < 2 ^ 32 := hlen ▸ s.block_length_lt k
    refine ⟨rfl, rfl, rfl, rfl, fun _ => ?_⟩
    rw [State.block_complete_putBlock _ _ _ _ hlt, State.block_complete_putBlock _ _ _ _ hlt]

end Sys2Proof.Machine

/-! ## Host accesses in general: refused, read, and made while the core is busy -/

namespace Sys2Proof.Machine

section
variable {s : State} {v : Word} {o : BitVec 29} {es : List Event}

/-- What a location reads as does not depend on the pending events. -/
theorem State.readLoc_agenda (s : State) (es : List Event) (l : Loc) :
    State.readLoc { s with agenda := es } l = s.readLoc l := by
  cases l <;> rfl

theorem step_read_idle (hp : s.phase = .idle) (ho : o.toNat % 4 = 0) (hs : s.agenda = .host (.read 4 o) :: es) :
    step s = .next { s with
      agenda := es, resp := some (.readData (s.readIdle (locate o.toNat))), draws := s.draws + 1 } := by
  rw [step_read ho hs, State.readLoc_agenda, State.readLoc_idle (State.busy_eq_false.2 hp)]

/-- While the core is busy a write reaches the three flags the host may change, and nothing else (R23, R26, R28). -/
theorem State.writeLoc_busy_frame (hb : s.busy = true) (v : Word) (l : Loc) :
    s.writeLoc v l = { s with
      done := (s.writeLoc v l).done, ovr := (s.writeLoc v l).ovr, irqEn := (s.writeLoc v l).irqEn } := by
  by_cases hstatus : l = .status
  · subst hstatus
    rw [State.writeLoc_status]
    rfl
  by_cases hctrl : l = .ctrl
  · subst hctrl
    simp [State.writeLoc, State.writeIdle, State.writeCtrl]
  rw [State.writeLoc_busy hb hstatus hctrl]

/-- While the core is busy a host access reaches those flags and the model's own fields, and nothing else (R70). -/
theorem State.access_busy_frame (hb : s.busy = true) (op : HostOp) :
    s.access op = { s with
      done := (s.access op).done, ovr := (s.access op).ovr, irqEn := (s.access op).irqEn,
      resp := (s.access op).resp, draws := (s.access op).draws } := by
  cases href : busRefusal op with
  | some e => rw [State.access_refused href]
  | none =>
    obtain ⟨hn, ho⟩ := busRefusal_none.1 href
    cases op with
    | read n o =>
      obtain rfl : n = 4 := hn
      rw [State.access_read (o := o) ho]
    | write n o v =>
      obtain rfl : n = 4 := hn
      rw [State.access_write (o := o) ho, State.writeLoc_busy_frame hb]

end

/-- Settles O44: the bus accepts an access only if it is four bytes wide and aligned, and a refused one writes nothing. -/
theorem refusedAccessesChangeNothing : Obligations.RefusedAccessesChangeNothing := by
  intro s op es hs hbad
  rw [step_host hs]
  cases href : busRefusal op with
  | some e => exact ⟨e, by rw [State.access_refused href]⟩
  | none =>
    obtain ⟨hn, ho⟩ := busRefusal_none.1 href
    exact (hbad.elim (· hn) (· ho)).elim

/-- Settles O45: the step of an aligned read answers what its location reads as. -/
theorem readsHaveNoSideEffects : Obligations.ReadsHaveNoSideEffects := by
  intro s o es ho hs
  rw [step_read ho hs, State.readLoc_agenda]

/-- Settles O56: a step that takes a host access is that access, and a busy core lets it reach the flags alone. -/
theorem inputsAreStableWhileBusy : Obligations.InputsAreStableWhileBusy := by
  intro s t c op es hp hs ht
  rw [step_host hs] at ht
  cases ht
  exact State.access_busy_frame (s := { s with agenda := es }) (State.busy_eq_true.2 ⟨c, hp⟩) op

/-! ### Read-only locations (R22, R35 to R37, R66) -/

/-- The locations the host can read but not write (R22, R35 to R37, R42, R43, R47). -/
def Loc.readOnly : Loc → Bool
  | .id | .nodeCount | .root | .bufCap | .bitCap | .runCap | .freq _ | .node _ _ | .code _ _ => true
  | _ => false

/-- A write to a read-only location has no effect but to set OVR while busy. -/
theorem State.writeLoc_readOnly {l : Loc} (h : l.readOnly = true) (s : State) (v : Word) :
    s.writeLoc v l = { s with ovr := s.ovr || s.busy } := by
  have hstatus : l ≠ .status := by rintro rfl; cases h
  have hctrl : l ≠ .ctrl := by rintro rfl; cases h
  cases hb : s.busy with
  | true => rw [State.writeLoc_busy hb hstatus hctrl, Bool.or_true]
  | false =>
    rw [State.writeLoc_idle hb, Bool.or_false]
    cases l with
    | id | nodeCount | root | bufCap | bitCap | runCap | freq | node | code => rfl
    | _ => cases h

theorem locate_readOnly {o : Nat} (ho : o % 4 = 0)
    (h : o ∈ [0x000, 0x030, 0x034, 0x040, 0x044, 0x048] ∨ (0x1000 ≤ o ∧ o < 0x1400) ∨ (0x2000 ≤ o ∧ o < 0x2FF8) ∨
      (0x4000 ≤ o ∧ o < 0x8000)) : (locate o).readOnly = true := by
  rcases h with h | h | h | h
  · have hregs : ∀ r ∈ [0x000, 0x030, 0x034, 0x040, 0x044, 0x048], (locate r).readOnly = true := by decide
    exact hregs o h
  · obtain ⟨v, hv, rfl⟩ : ∃ v < 256, o = 0x1000 + 4 * v := ⟨(o - 0x1000) / 4, by omega, by omega⟩
    rw [locate_freq hv]
    rfl
  · obtain ⟨i, w, hi, hw, rfl⟩ : ∃ i w, i < 511 ∧ w < 2 ∧ o = 0x2000 + 8 * i + 4 * w :=
      ⟨(o - 0x2000) / 8, (o - 0x2000) / 4 % 2, by omega, by omega, by omega⟩
    rw [locate_node hi hw]
    rfl
  · obtain ⟨v, w, hv, hw, rfl⟩ : ∃ v w, v < 256 ∧ w < 16 ∧ o = 0x4000 + 64 * v + 4 * w :=
      ⟨(o - 0x4000) / 64, (o - 0x4000) / 4 % 16, by omega, by omega, by omega⟩
    rw [locate_code hv hw]
    rfl

/-- Settles O47: the map sends each of these offsets to a read-only location. -/
theorem readOnlyLocationsIgnoreWrites : Obligations.ReadOnlyLocationsIgnoreWrites := by
  intro s v o es ho hrange hs
  rw [step_write ho hs, State.writeLoc_readOnly (locate_readOnly ho hrange)]
  rfl

end Sys2Proof.Machine

/-! ## Window words of the memories (R61, R62, R65) -/

namespace Sys2Proof.Machine

/-! ### Stores: one word of consecutive indices -/

section
variable {α : Type} {cap base : Nat} {vs : List α} {m : Store α}

theorem Store.get_setFrom_lane {l : Nat} (hl : l < vs.length) (hcap : base + l < cap) :
    Store.get (Store.setFrom cap base vs m) (base + l) = vs[l]? := by
  rw [Store.get_setFrom, if_pos (by omega), Nat.add_sub_cancel_left]

theorem Store.get_setFrom_frame {i : Nat} (h : i < base ∨ base + vs.length ≤ i ∨ cap ≤ i) :
    Store.get (Store.setFrom cap base vs m) i = Store.get m i := by
  rw [Store.get_setFrom, if_neg (by omega)]

end

/-! ### The map -/

theorem locate_alpha {w : Nat} (h : w < 64) : locate (0x8000 + 4 * w) = .alpha w := by
  unfold locate
  iterate 6 rw [if_neg (by omega)]
  rw [if_pos (by omega)]
  congr 1; omega

theorem locate_run {j : Nat} (h : j < 2 ^ 24) : locate (0x04000000 + 4 * j) = .run j := by
  unfold locate
  iterate 8 rw [if_neg (by omega)]
  rw [if_pos (by omega)]
  congr 1; omega

theorem locate_bit {w : Nat} (h : w < 2 ^ 24) : locate (0x08000000 + 4 * w) = .bit w := by
  unfold locate
  iterate 9 rw [if_neg (by omega)]
  rw [if_pos (by omega)]
  congr 1; omega

theorem locate_buf (k : Buf) {w : Nat} (h : w < 2 ^ 24) :
    locate (0x0C000000 + 0x04000000 * k.toNat + 4 * w) = .buf k w := by
  cases k
  all_goals
    simp only [Buf.toNat]
    unfold locate
    iterate 10 rw [if_neg (by omega)]
  case b0 =>
    rw [if_pos (by omega)]
    congr 1; omega
  case b1 =>
    rw [if_neg (by omega), if_pos (by omega)]
    congr 1; omega
  case b2 =>
    rw [if_neg (by omega), if_neg (by omega), if_pos (by omega)]
    congr 1; omega
  case b3 =>
    rw [if_neg (by omega), if_neg (by omega), if_neg (by omega), if_pos (by omega)]
    congr 1; omega

theorem Buf.toNat_le (k : Buf) : k.toNat ≤ 3 := by cases k <;> decide

/-! ### Idle accesses at an offset given as a number -/

section
variable {s : State} {es : List Event} {o : BitVec 29} {v : Word} {n : Nat} {l : Loc}

theorem step_write_at (hp : s.phase = .idle) (hl : locate n = l) (hn : n < 2 ^ 29) (hn₄ : n % 4 = 0)
    (ho : o = BitVec.ofNat 29 n) (hs : s.agenda = .host (.write 4 o v) :: es) :
    step s = .next { State.writeIdle v { s with agenda := es } l with
      resp := some .writeDone, draws := s.draws + 1 } := by
  have hval : o.toNat = n := ho ▸ toNat_ofNat_of_lt hn
  rw [step_write_idle hp (hval ▸ hn₄) hs, hval, hl]

theorem step_read_at (hp : s.phase = .idle) (hl : locate n = l) (hn : n < 2 ^ 29) (hn₄ : n % 4 = 0)
    (ho : o = BitVec.ofNat 29 n) (hs : s.agenda = .host (.read 4 o) :: es) :
    step s = .next { s with agenda := es, resp := some (.readData (s.readIdle l)), draws := s.draws + 1 } := by
  have hval : o.toNat = n := ho ▸ toNat_ofNat_of_lt hn
  rw [step_read_idle hp (hval ▸ hn₄) hs, hval, hl]

end

/-- An idle write to a word of buffer `k` reaches its bytes below the capacity. -/
theorem State.buf_writeIdle_buf (s : State) (v : Word) (k : Buf) (w : Nat) :
    (s.writeIdle v (.buf k w)).mem.buf.get k =
      Store.setFrom s.bufCap (4 * w) (bytesOfWord v) (s.mem.buf.get k) :=
  PerBuf.get_set_self ..

/-- Settles O49: a word write is four consecutive bytes of one buffer, and a read gathers them. -/
theorem bufferWordsAreLittleEndian : Obligations.BufferWordsAreLittleEndian := by
  intro s k w es o hp hw ho
  have hk := Buf.toNat_le k
  refine ⟨fun v hs => ⟨_, step_write_at hp (locate_buf k hw) (by omega) (by omega) ho hs, rfl,
      fun j hj => PerBuf.get_set_ne _ _ hj, fun l hl hcap => ?_, fun i hi => ?_⟩,
    fun hs => ⟨_, step_read_at hp (locate_buf k hw) (by omega) (by omega) ho hs, fun l hl => ?_⟩⟩
  · dsimp only
    rw [State.buf_writeIdle_buf, Store.get_setFrom_lane hl hcap, getElem?_bytesOfWord v hl]
  · dsimp only
    rw [State.buf_writeIdle_buf, Store.get_setFrom_frame hi]
  · rw [State.readIdle, extractLsb'_wordOfBytes _ hl]
    refine ⟨fun hcap => if_neg (Nat.not_lt.2 hcap), fun y hcap hlen hy => ?_⟩
    rw [if_pos hcap]
    exact Store.readBelow_valid _ hlen hy

/-- Settles O50: a word write is 32 consecutive bits, and a read gathers them. -/
theorem bitWordsMapBitForBit : Obligations.BitWordsMapBitForBit := by
  intro s w es o hp hw ho
  refine ⟨fun v hs => ⟨_, step_write_at hp (locate_bit hw) (by omega) (by omega) ho hs, rfl, fun j hj hcap => ?_,
      fun i hi => Store.get_setFrom_frame hi⟩,
    fun hs => ⟨_, step_read_at hp (locate_bit hw) (by omega) (by omega) ho hs, fun j hj => ?_⟩⟩
  · exact (Store.get_setFrom_lane hj hcap).trans (getElem?_bitsOfWord v hj)
  · rw [State.readIdle, getLsbD_wordOfBits _ hj, State.bitCap]
    refine ⟨fun hcap => by rw [decide_eq_false (Nat.not_lt.2 hcap), Bool.false_and], fun y hcap hlen hy => ?_⟩
    rw [decide_eq_true hcap, Bool.true_and]
    exact Store.readBelow_valid _ hlen hy

/-- Settles O51: a run word is one entry and an alphabet word four consecutive bytes. -/
theorem runAndAlphaWords : Obligations.RunAndAlphaWords := by
  intro s es o v hp
  refine ⟨fun j hj ho => ⟨fun hs => ?runWrite, fun hs => ?runRead⟩,
    fun w hw ho => ⟨fun hs => ?alphaWrite, fun hs => ?alphaRead⟩⟩
  case runWrite =>
    refine ⟨_, step_write_at hp (locate_run hj) (by omega) (by omega) ho hs, rfl, fun hcap => ?_, fun i hi => ?_⟩
    · exact Store.get_setFrom_lane (l := 0) Nat.one_pos hcap
    · refine Store.get_setFrom_frame (cap := s.bufCap) ?_
      rw [List.length_singleton]
      omega
  case runRead =>
    rw [step_read_at hp (locate_run hj) (by omega) (by omega) ho hs, State.readIdle, State.runCap]
    refine ⟨fun hcap hlen hrun => ?_, fun hcap => by rw [if_neg (Nat.not_lt.2 hcap)]⟩
    have hat : s.runAt j = Run.ofWord v := Store.readBelow_valid _ hlen hrun
    rw [if_pos hcap, hat, Run.toWord_ofWord]
  case alphaWrite =>
    refine ⟨_, step_write_at hp (locate_alpha hw) (by omega) (by omega) ho hs, rfl, fun l hl => ?_, fun i hi => ?_⟩
    · have hcap : 4 * w + l < Config.alphaCap := by rw [Config.alphaCap]; omega
      exact (Store.get_setFrom_lane hl hcap).trans (getElem?_bytesOfWord v hl)
    · exact Store.get_setFrom_frame (hi.imp_right .inl)
  case alphaRead =>
    refine ⟨_, step_read_at hp (locate_alpha hw) (by omega) (by omega) ho hs, fun l y hl hlen hy => ?_⟩
    rw [State.readIdle, extractLsb'_wordOfBytes _ hl]
    exact Store.readBelow_valid _ hlen hy

/-! ### Registers and read-only memories (R28, R42, R43, R47) -/

theorem State.ctrlWord_eq (s : State) : s.ctrlWord = if s.irqEn then 1 else 0 := by
  rw [State.ctrlWord]
  generalize s.irqEn = b
  revert b
  decide

/-- The fields of the first word of an arena entry, each at its place (R43). -/
theorem Node.fields_word_zero (n : Node) :
    (n.word 0).getLsbD 31 = n.leaf ∧ (n.word 0).extractLsb' 18 8 = n.sym ∧ (n.word 0).extractLsb' 9 9 = n.right ∧
      (n.word 0).extractLsb' 0 9 = n.left ∧ (n.word 0).extractLsb' 26 5 = 0 := by
  refine ⟨(n.getLsbD_word_zero 31).trans (Bool.true_and _), ?sym, ?right, ?left, ?unused⟩
  all_goals
    ext i hi
    rw [BitVec.getElem_extractLsb', Node.getLsbD_word_zero]
  case sym =>
    rw [if_neg (by omega), if_neg (by omega), if_pos (by omega), Nat.add_sub_cancel_left, BitVec.getLsbD_eq_getElem hi]
  case right => rw [if_neg (by omega), if_pos (by omega), Nat.add_sub_cancel_left, BitVec.getLsbD_eq_getElem hi]
  case left => rw [if_pos (by omega), Nat.zero_add, BitVec.getLsbD_eq_getElem hi]
  case unused =>
    rw [if_neg (by omega), if_neg (by omega), if_neg (by omega), if_pos (by omega)]
    exact (BitVec.getElem_zero hi).symm

section
variable {s : State}

theorem State.readLoc_freq (hp : s.phase = .idle) (v : Fin 256) : s.readLoc (locate (0x1000 + 4 * v.val)) = s.freq[v] := by
  rw [locate_freq v.isLt, State.readLoc_idle (State.busy_eq_false.2 hp), State.readIdle]
  simp

theorem State.readLoc_node (hp : s.phase = .idle) {i w : Nat} (hi : i < 511) (hw : w < 2) :
    s.readLoc (locate (0x2000 + 8 * i + 4 * w)) = (s.nodeAt i).word w := by
  rw [locate_node hi hw, State.readLoc_idle (State.busy_eq_false.2 hp), State.readIdle]

theorem State.readLoc_code (hp : s.phase = .idle) (v : Fin 256) {w : Nat} (hw : w < 16) :
    s.readLoc (locate (0x4000 + 64 * v.val + 4 * w)) = s.code[v].word w := by
  rw [locate_code v.isLt hw, State.readLoc_idle (State.busy_eq_false.2 hp), State.readIdle]
  simp

end

/-- Settles O52: each of these locations reads as its field, those of R68 busy too. -/
theorem registersAndTablesReadAsTheyAre : Obligations.RegistersAndTablesReadAsTheyAre := by
  intro s
  refine ⟨⟨State.readLoc_of_readableBusy rfl, (State.readLoc_of_readableBusy rfl).trans s.ctrlWord_eq,
    State.readLoc_of_readableBusy rfl, State.readLoc_of_readableBusy rfl, State.readLoc_of_readableBusy rfl,
    State.readLoc_of_readableBusy rfl, State.readLoc_of_readableBusy rfl⟩,
    fun hp => ⟨?regs, State.readLoc_freq hp, ?node, ?code⟩⟩
  case regs =>
    have hidle : ∀ l, s.readLoc l = s.readIdle l := fun l => State.readLoc_idle (State.busy_eq_false.2 hp)
    simp only [hidle]
    exact ⟨fun k => by cases k <;> rfl, rfl, rfl, rfl, rfl, BitVec.toNat_setWidth_of_le (by decide),
      BitVec.toNat_setWidth_of_le (by decide)⟩
  case node =>
    rintro i w₀ w₁ hi rfl rfl
    have h₀ : s.readLoc (locate (0x2000 + 8 * i)) = (s.nodeAt i).word 0 :=
      State.readLoc_node hp hi (w := 0) (by decide)
    have h₁ : s.readLoc (locate (0x2004 + 8 * i)) = (s.nodeAt i).word 1 := by
      rw [show 0x2004 + 8 * i = 0x2000 + 8 * i + 4 * 1 by omega, State.readLoc_node hp hi (by decide)]
    rw [h₀, h₁]
    obtain ⟨hleaf, hsym, hright, hleft, hunused⟩ := (s.nodeAt i).fields_word_zero
    refine ⟨hunused, fun n hn => ?_⟩
    obtain rfl := State.nodeAt_valid hn
    exact ⟨hleaf, hsym, hright, hleft, rfl⟩
  case code =>
    rintro v e rfl
    refine ⟨?_, fun w j hw hj => ?_, fun w hw₁ hw₂ => ?_⟩
    · have h₀ : s.readLoc (locate (0x4000 + 64 * v.val)) = s.code[v].clen.setWidth 32 :=
        State.readLoc_code hp v (w := 0) (by decide)
      rw [h₀, BitVec.toNat_setWidth_of_le (by decide)]
    · rw [State.readLoc_code hp v (by omega), CodeEntry.getLsbD_word _ hw hj]
    · rw [State.readLoc_code hp v hw₂, CodeEntry.word, if_neg (by omega), if_neg (by omega)]

end Sys2Proof.Machine

/-! ## Command words: the decoder and the encoder -/

namespace Sys2Proof

/-! ### The rows of R94: which command, which fields -/

/-- The command a row names has the row's opcode, the given buffers where `opUses` says it uses them, and 0 elsewhere. -/
theorem fields_of_opRow {op : BitVec 8} {src dst : Buf} {i : Instr} (h : opRow op src dst = some i) :
    ∃ us ud, opUses op = some (us, ud) ∧
      i.fields = ⟨op, if us then src.toBits else 0, if ud then dst.toBits else 0, 0⟩ := by
  have hop : BitVec.ofNat 8 op.toNat = op := by simp
  unfold opRow at h
  split at h
  case h_17 => cases h
  all_goals
    next hn =>
      cases h
      rw [hn] at hop
      subst hop
      exact ⟨_, _, rfl, rfl⟩

theorem opRow_isSome_of_opUses {op : BitVec 8} {us ud : Bool} (h : opUses op = some (us, ud)) (src dst : Buf) :
    (opRow op src dst).isSome = true := by
  unfold opUses at h
  split at h
  case h_17 => cases h
  all_goals
    next hn => simp only [opRow, hn, Option.isSome_some]

theorem opRow_isSome (op : BitVec 8) (src dst : Buf) : (opRow op src dst).isSome = (opUses op).isSome := by
  cases hrow : opRow op src dst with
  | some i =>
    obtain ⟨us, ud, huses, -⟩ := fields_of_opRow hrow
    rw [huses]
    rfl
  | none =>
    cases huses : opUses op with
    | none => rfl
    | some u =>
      have hsome := opRow_isSome_of_opUses (us := u.1) (ud := u.2) huses src dst
      rw [hrow] at hsome
      cases hsome

@[simp] theorem opRow_fields (i : Instr) :
    opRow i.fields.op (Buf.ofBits i.fields.src) (Buf.ofBits i.fields.dst) = some i := by
  cases i <;> simp [Instr.fields, opRow]

/-! ### Decoding the four fields (R95) -/

theorem CmdFields.wellFormed_iff_of_opUses {f : CmdFields} {us ud : Bool} (h : opUses f.op = some (us, ud)) :
    f.wellFormed = true ↔ f.rsvd = 0 ∧ (us = false → f.src = 0) ∧ (ud = false → f.dst = 0) := by
  cases us <;> cases ud <;>
    simp [wellFormed, rsvdZero, opListed, srcZeroIfUnused, dstZeroIfUnused, h, and_assoc]

theorem CmdFields.exists_opUses_of_wellFormed {f : CmdFields} (h : f.wellFormed = true) :
    ∃ us ud, opUses f.op = some (us, ud) := by
  cases huses : opUses f.op with
  | none => simp [wellFormed, opListed, huses] at h
  | some u => exact ⟨u.1, u.2, rfl⟩

theorem Instr.fields_wellFormed (i : Instr) : i.fields.wellFormed = true := by
  obtain ⟨us, ud, huses, hf⟩ := fields_of_opRow (opRow_fields i)
  refine (CmdFields.wellFormed_iff_of_opUses huses).2 ⟨by rw [hf], ?_, ?_⟩ <;>
    (rintro rfl; rw [hf]; rfl)

/-- Well-formed fields are those of the command in their row. -/
theorem CmdFields.exists_fields_of_wellFormed {f : CmdFields} (h : f.wellFormed = true) : ∃ i : Instr, f = i.fields := by
  obtain ⟨us, ud, huses⟩ := exists_opUses_of_wellFormed h
  obtain ⟨hrsvd, hsrc, hdst⟩ := (wellFormed_iff_of_opUses huses).1 h
  obtain ⟨i, hi⟩ := Option.isSome_iff_exists.1 (opRow_isSome_of_opUses huses (Buf.ofBits f.src) (Buf.ofBits f.dst))
  obtain ⟨us', ud', huses', hf⟩ := fields_of_opRow hi
  obtain ⟨rfl, rfl⟩ : us = us' ∧ ud = ud' := by simpa [huses] using huses'
  have hkeep : ∀ {u : Bool} {b : BitVec 2}, (u = false → b = 0) → (if u then b else 0) = b := by
    intro u b hb
    cases u
    · exact (hb rfl).symm
    · rfl
  refine ⟨i, ?_⟩
  rw [hf, Buf.toBits_ofBits, Buf.toBits_ofBits, hkeep hsrc, hkeep hdst, ← hrsvd]

theorem decodeFields_fields (i : Instr) : decodeFields i.fields = .ok i := by
  have h := i.fields_wellFormed
  simp only [CmdFields.wellFormed, Bool.and_eq_true] at h
  obtain ⟨⟨⟨hr, -⟩, hs⟩, hd⟩ := h
  simp [decodeFields, hr, hs, hd]

theorem isOk_decodeFields (f : CmdFields) : (decodeFields f).isOk = f.wellFormed := by
  rw [CmdFields.wellFormed, CmdFields.opListed, ← opRow_isSome f.op (Buf.ofBits f.src) (Buf.ofBits f.dst), decodeFields]
  cases f.rsvdZero
  · rfl
  · cases opRow f.op (Buf.ofBits f.src) (Buf.ofBits f.dst)
    · rfl
    · cases f.srcZeroIfUnused
      · rfl
      · cases f.dstZeroIfUnused <;> rfl

theorem decodeFields_eq_ok_iff {f : CmdFields} {i : Instr} : decodeFields f = .ok i ↔ f = i.fields := by
  refine ⟨fun h => ?_, fun h => h ▸ decodeFields_fields i⟩
  obtain ⟨j, rfl⟩ := CmdFields.exists_fields_of_wellFormed (f := f) (by rw [← isOk_decodeFields, h]; rfl)
  rw [decodeFields_fields j] at h
  cases h
  rfl

/-! ### Decoding the word -/

theorem decode_eq_ok_iff {c : Word} {i : Instr} : decode c = .ok i ↔ CmdFields.ofWord c = i.fields :=
  decodeFields_eq_ok_iff

/-- Settles O2: the decoder and the encoder agree on the four fields, and the fields and the word are the same 32 bits. -/
theorem decodeInvertsEncode : Obligations.DecodeInvertsEncode := by
  intro c i
  rw [decode_eq_ok_iff]
  constructor
  · intro h
    rw [encode, ← h, CmdFields.toWord_ofWord]
  · rintro rfl
    exact CmdFields.ofWord_toWord _

theorem exists_decode_eq_ok_iff {c : Word} : (∃ i, decode c = .ok i) ↔ (CmdFields.ofWord c).wellFormed = true := by
  simp only [decode_eq_ok_iff]
  exact ⟨fun ⟨i, h⟩ => h ▸ i.fields_wellFormed, CmdFields.exists_fields_of_wellFormed⟩

theorem exists_decode_eq_error_iff {c : Word} :
    (∃ e, decode c = .error e) ↔ ¬ (CmdFields.ofWord c).wellFormed = true := by
  rw [← exists_decode_eq_ok_iff]
  cases decode c <;> simp

/-! ### The reserved encodings (R96) -/

theorem opUses_eq_none_iff {op : BitVec 8} :
    opUses op = none ↔ op.toNat ∉ [0x00, 0x01, 0x02, 0x03, 0x04, 0x05, 0x06, 0x07,
      0x10, 0x11, 0x20, 0x21, 0x30, 0x31, 0x40, 0x41] := by
  unfold opUses
  split
  case h_17 => simp_all
  all_goals
    next hn => simp [hn]

/-- The opcodes of the commands without a source, and of those without a destination. -/
theorem unused_iff_of_opUses {op : BitVec 8} {us ud : Bool} (h : opUses op = some (us, ud)) :
    (us = false ↔ op.toNat ∈ [0x00, 0x02, 0x03, 0x05, 0x06, 0x31, 0x40]) ∧
    (ud = false ↔ op.toNat ∈ [0x00, 0x01, 0x02, 0x03, 0x04, 0x07, 0x30, 0x41]) := by
  unfold opUses at h
  split at h
  case h_17 => cases h
  all_goals
    next hn =>
      cases h
      rw [hn]
      decide

/-- Settles O4: the lists of R96 are the opcodes of R94 and those whose row leaves a field out. -/
theorem reservedEncodingsAreIllegal : Obligations.ReservedEncodingsAreIllegal := by
  refine fun c => ⟨?_, fun e s h => Machine.completion_error h s⟩
  rw [exists_decode_eq_error_iff, ← opUses_eq_none_iff]
  cases huses : opUses (c.extractLsb' 0 8) with
  | none => simp [CmdFields.wellFormed, CmdFields.opListed, CmdFields.ofWord, huses]
  | some u =>
    obtain ⟨us, ud⟩ := u
    obtain ⟨hsrc, hdst⟩ := unused_iff_of_opUses huses
    rw [← hsrc, ← hdst, CmdFields.wellFormed_iff_of_opUses (f := CmdFields.ofWord c) huses]
    simp only [CmdFields.ofWord, not_and_or, Classical.not_imp, ne_eq, reduceCtorEq, false_or]

/-! ### The opcode table (R95) -/

/-- The opcode of a row: the OP field of its match. -/
def OpRow.opcode (row : OpRow) : BitVec 8 := (CmdFields.ofWord row.value).op

/-- The mask of a row of R95: every bit but those of the buffer fields that the command uses. -/
def opMask (us ud : Bool) : Word :=
  CmdFields.toWord ⟨.allOnes 8, if us then 0 else .allOnes 2, if ud then 0 else .allOnes 2, .allOnes 20⟩

theorem opTable_row {row : OpRow} (h : row ∈ opTable) :
    row.value = CmdFields.toWord ⟨row.opcode, 0, 0, 0⟩ ∧
    ∃ us ud, opUses row.opcode = some (us, ud) ∧ row.mask = opMask us ud := by
  revert row
  decide

theorem CmdFields.ofWord_and (c d : Word) :
    CmdFields.ofWord (c &&& d) =
      ⟨(ofWord c).op &&& (ofWord d).op, (ofWord c).src &&& (ofWord d).src,
        (ofWord c).dst &&& (ofWord d).dst, (ofWord c).rsvd &&& (ofWord d).rsvd⟩ := by
  simp only [ofWord, BitVec.extractLsb'_and]

theorem CmdFields.ofWord_inj {c d : Word} : ofWord c = ofWord d ↔ c = d :=
  (Function.LeftInverse.injective toWord_ofWord).eq_iff

/-- Match and mask, read field by field. -/
theorem and_opMask_eq_iff {c : Word} {us ud : Bool} {op : BitVec 8} :
    c &&& opMask us ud = CmdFields.toWord ⟨op, 0, 0, 0⟩ ↔
      (CmdFields.ofWord c).op = op ∧ (CmdFields.ofWord c).rsvd = 0 ∧
      (us = false → (CmdFields.ofWord c).src = 0) ∧ (ud = false → (CmdFields.ofWord c).dst = 0) := by
  rw [← CmdFields.ofWord_inj, CmdFields.ofWord_and, opMask, CmdFields.ofWord_toWord, CmdFields.ofWord_toWord]
  cases us <;> cases ud <;> simp [-BitVec.reduceAllOnes, and_assoc, and_left_comm, and_comm]

/-- A word meets a row's match and mask exactly if its fields are well formed and its opcode is the row's. -/
theorem and_mask_eq_value_iff {row : OpRow} (h : row ∈ opTable) {c : Word} :
    c &&& row.mask = row.value ↔ (CmdFields.ofWord c).wellFormed = true ∧ (CmdFields.ofWord c).op = row.opcode := by
  obtain ⟨hvalue, us, ud, huses, hmask⟩ := opTable_row h
  rw [hvalue, hmask, and_opMask_eq_iff, and_comm]
  exact and_congr_left fun hop => (CmdFields.wellFormed_iff_of_opUses (hop ▸ huses)).symm

theorem opTable_opcode_nodup : (opTable.map OpRow.opcode).Nodup := by decide

theorem opTable_mnemonic_nodup : (opTable.map OpRow.mnemonic).Nodup := by decide

/-- Every command has its row. -/
theorem Instr.exists_row (i : Instr) : ∃ row ∈ opTable, row.opcode = i.fields.op ∧ row.mnemonic = i.mnemonic := by
  cases i <;> simp [opTable, OpRow.opcode, Instr.fields, Instr.mnemonic, CmdFields.ofWord]

theorem Instr.mnemonic_eq_iff (i : Instr) {row : OpRow} (h : row ∈ opTable) :
    i.mnemonic = row.mnemonic ↔ i.fields.op = row.opcode := by
  obtain ⟨r, hr, hop, hmn⟩ := i.exists_row
  rw [← hop, ← hmn]
  calc r.mnemonic = row.mnemonic
      _ ↔ r = row := ⟨List.inj_on_of_nodup_map opTable_mnemonic_nodup hr h, congrArg _⟩
      _ ↔ r.opcode = row.opcode := ⟨congrArg _, List.inj_on_of_nodup_map opTable_opcode_nodup hr h⟩

theorem and_mask_eq_value_iff_decode {row : OpRow} (h : row ∈ opTable) {c : Word} :
    c &&& row.mask = row.value ↔ ∃ i, decode c = .ok i ∧ i.mnemonic = row.mnemonic := by
  simp only [and_mask_eq_value_iff h, ← exists_decode_eq_ok_iff, Instr.mnemonic_eq_iff _ h, ← exists_and_right]
  refine exists_congr fun i => and_congr_right fun hi => ?_
  rw [decode_eq_ok_iff.1 hi]

theorem opTable_disjoint :
    opTable.Pairwise fun a b => ∀ c : Word, ¬ (c &&& a.mask = a.value ∧ c &&& b.mask = b.value) := by
  refine (List.pairwise_map.1 opTable_opcode_nodup).imp_of_mem fun ha hb hne c ⟨hca, hcb⟩ => hne ?_
  exact ((and_mask_eq_value_iff ha).1 hca).2.symm.trans ((and_mask_eq_value_iff hb).1 hcb).2

theorem no_row_iff_decode_error {c : Word} :
    (∀ row ∈ opTable, c &&& row.mask ≠ row.value) ↔ ∃ e, decode c = .error e := by
  rw [exists_decode_eq_error_iff, ← exists_decode_eq_ok_iff]
  constructor
  · rintro hno ⟨i, hi⟩
    obtain ⟨row, hrow, -, hmn⟩ := i.exists_row
    exact hno row hrow ((and_mask_eq_value_iff_decode hrow).2 ⟨i, hi, hmn.symm⟩)
  · intro hno row hrow hc
    obtain ⟨i, hi, -⟩ := (and_mask_eq_value_iff_decode hrow).1 hc
    exact hno ⟨i, hi⟩

/-- Settles O3: a row's match and mask fix the opcode and ask for well-formed fields, and the opcode gives the row. -/
theorem decodeIsTheOpcodeTable : Obligations.DecodeIsTheOpcodeTable :=
  ⟨fun _ _ h => and_mask_eq_value_iff_decode h, fun _ _ hi => (decode_eq_ok_iff.1 hi).symm, opTable_disjoint,
    fun _ => no_row_iff_decode_error, fun _ _ s h => Machine.completion_error h s⟩

/-- Settles O1: the decoder runs on each of the words of R98. -/
theorem exampleWordsDecode : Obligations.ExampleWordsDecode := by
  unfold Obligations.ExampleWordsDecode
  decide

end Sys2Proof

/-! ## HTLOAD accepts the serialised trees and HTSER writes them back -/

namespace Sys2Proof.Machine

/-! ### The parser and the serialised form (R115, R116) -/

/-- `k` leaves take `3k - 1` bytes (R115). -/
theorem Tree.length_ser (t : Tree) : t.ser.length + 1 = 3 * t.syms.length := by
  induction t with
  | leaf i sym => rfl
  | node i l r hl hr =>
    simp only [Tree.ser, Tree.syms, List.length_cons, List.length_append]
    omega

theorem Tree.ser_ne_nil (t : Tree) : t.ser ≠ [] := by cases t <;> exact List.cons_ne_nil _ _

/-- A parse that succeeds consumes the serialised form of the tree it reads. -/
theorem parseTree_sound {fuel i : Nat} {p q : Parse} (h : parseTree fuel p = some (i, q)) :
    ∃ t, t.index = i ∧ p.Reads q t ∧ p.rest = t.ser ++ q.rest := by
  induction fuel generalizing i p q with
  | zero => cases h
  | succ fuel ih =>
    rcases parseTree_cases h with
      ⟨rfl, ⟨sym, rest, hrest, hseen, rfl⟩ | ⟨rest, l, r, p₁, p₂, hrest, hl, hr, rfl⟩⟩
    · exact ⟨_, rfl, Parse.reads_leaf hseen, hrest⟩
    · obtain ⟨tl, rfl, htl, hserl⟩ := ih hl
      obtain ⟨tr, rfl, htr, hserr⟩ := ih hr
      refine ⟨_, rfl, Parse.reads_node htl htr, ?_⟩
      rw [hrest, Tree.ser, List.cons_append, List.append_assoc, ← hserr, ← hserl]

theorem parseTree_leaf {fuel : Nat} {p : Parse} {sym : Byte} {rest : List Byte} (hrest : p.rest = 0x01 :: sym :: rest)
    (hroom : p.made.length < Config.nodeCap) (hseen : sym ∉ p.seen) :
    parseTree (fuel + 1) p =
      some (p.made.length, ⟨rest, p.made ++ [ProtoNode.mkLeaf sym 0], sym :: p.seen⟩) := by
  rw [parseTree, if_neg (Nat.ne_of_lt hroom), hrest]
  simp [hseen]

theorem parseTree_node {fuel l r : Nat} {p p₁ p₂ : Parse} {rest : List Byte} (hrest : p.rest = 0x00 :: rest)
    (hroom : p.made.length < Config.nodeCap)
    (hl : parseTree fuel ⟨rest, p.made ++ [ProtoNode.mkInner 0 0 0], p.seen⟩ = some (l, p₁))
    (hr : parseTree fuel p₁ = some (r, p₂)) :
    parseTree (fuel + 1) p =
      some (p.made.length, ⟨p₂.rest, p₂.made.set p.made.length (ProtoNode.mkInner 0 l r), p₂.seen⟩) := by
  rw [parseTree, if_neg (Nat.ne_of_lt hroom), hrest]
  simp [hl, hr]

/-- The parser reads every serialised tree whose symbols are new to it and whose nodes fit the arena. -/
theorem parseTree_complete (tr : Tree) {fuel : Nat} {p : Parse} {rest : List Byte} (hrest : p.rest = tr.ser ++ rest)
    (hfuel : tr.syms.length ≤ fuel) (hroom : p.made.length + tr.indices.length ≤ Config.nodeCap)
    (hsyms : (tr.syms ++ p.seen).Nodup) :
    ∃ i q, parseTree fuel p = some (i, q) ∧ q.rest = rest ∧ q.made.length = p.made.length + tr.indices.length ∧
      q.seen.Perm (tr.syms ++ p.seen) := by
  induction tr generalizing fuel p rest with
  | leaf i sym =>
    obtain ⟨fuel, rfl⟩ := Nat.exists_eq_add_of_le' hfuel
    exact ⟨_, _, parseTree_leaf hrest hroom (List.nodup_cons.1 hsyms).1, rfl, List.length_append, .refl _⟩
  | node i l r ihl ihr =>
    have hlpos := l.length_syms_pos
    have hrpos := r.length_syms_pos
    simp only [Tree.ser, Tree.syms, Tree.indices, List.cons_append, List.append_assoc, List.length_append,
      List.length_cons] at hrest hfuel hroom hsyms
    obtain ⟨fuel, rfl⟩ : ∃ k, fuel = k + 1 := ⟨fuel - 1, by omega⟩
    have hswap : (l.syms ++ (r.syms ++ p.seen)).Perm (r.syms ++ (l.syms ++ p.seen)) := List.perm_append_comm_assoc ..
    obtain ⟨il, p₁, hl, hrest₁, hmade₁, hseen₁⟩ :=
      ihl (p := ⟨l.ser ++ (r.ser ++ rest), p.made ++ [ProtoNode.mkInner 0 0 0], p.seen⟩) (fuel := fuel) rfl
        (by omega) (by simp; omega) (List.nodup_append.1 (hswap.nodup_iff.1 hsyms)).2.1
    have hroom₁ : p₁.made.length = p.made.length + 1 + l.indices.length := by simpa using hmade₁
    have hperm : (r.syms ++ p₁.seen).Perm (l.syms ++ (r.syms ++ p.seen)) := (hseen₁.append_left _).trans hswap.symm
    obtain ⟨ir, p₂, hr, hrest₂, hmade₂, hseen₂⟩ :=
      ihr (fuel := fuel) hrest₁ (by omega) (by omega) (hperm.nodup_iff.2 hsyms)
    refine ⟨_, _, parseTree_node hrest (by omega) hl hr, hrest₂, ?_, ?_⟩
    · simp only [List.length_set, Tree.indices, List.length_cons, List.length_append]
      omega
    · simpa [Tree.syms] using hseen₂.trans hperm

/-- A loaded arena is a tree whose serialised form is the input, its nodes in pre-order (R116). -/
theorem loadTree_sound {input : List Byte} {ns : List ProtoNode} (h : loadTree input = some ns) :
    ∃ t : Tree, t.index = 0 ∧ t.Fills (fun _ => 0) ns ∧ t.ser = input ∧ t.indices = List.range ns.length := by
  unfold loadTree at h
  split at h
  · cases h
  · next i p hp =>
    split at h
    · next hrest =>
      cases h
      obtain ⟨t, -, ht, hser⟩ := parseTree_sound hp
      obtain ⟨new, hmade, hlen⟩ := ht.made
      have hindices : t.indices = List.range p.made.length := by
        rw [hmade, List.nil_append, hlen, List.range_eq_range']
        exact ht.indices
      refine ⟨t, ht.index, ⟨ht.laid, .of_eq hindices, ?_⟩, ?_, hindices⟩
      · simpa using ht.seen.nodup_iff.1 (ht.nodup List.nodup_nil)
      · rw [hrest, List.append_nil] at hser
        exact hser.symm
    · cases h

/-- Every serialised tree with distinct symbols is loaded. -/
theorem loadTree_complete {tr : Tree} (h : tr.syms.Nodup) : ∃ ns, loadTree tr.ser = some ns := by
  have hsyms := length_le_of_nodup_bytes h
  have hnodes := tr.length_indices
  obtain ⟨i, q, hq, hrest, -, -⟩ :=
    parseTree_complete tr (fuel := Config.nodeCap + 1) (p := ⟨tr.ser, [], []⟩) (List.append_nil _).symm
      (by rw [Config.nodeCap]; omega) (by simp only [Config.nodeCap, List.length_nil]; omega) (by simpa using h)
  exact ⟨q.made, by rw [loadTree, hq]; exact if_pos hrest⟩

theorem loadTree_eq_none {input : List Byte} (h : ¬ ∃ tr : Tree, tr.syms.Nodup ∧ tr.ser = input) :
    loadTree input = none :=
  Option.eq_none_iff_forall_not_mem.2 fun _ hns =>
    have ⟨t, _, hfills, hser, _⟩ := loadTree_sound hns
    h ⟨t, hfills.syms, hser⟩

/-! ### The commands -/

section
variable {s : State} {k d : Buf}

theorem exec_htload_nil (h : s.block k = []) :
    exec (.htload k) s = .next { s.complete .ok with nodeCount := 0, root := Config.nil } :=
  if_pos h

theorem exec_htload_some {ns : List ProtoNode} (h : loadTree (s.block k) = some ns) (hne : s.block k ≠ []) :
    exec (.htload k) s = .next ((s.putArena ns 0).complete .ok) := by
  rw [exec, execHtload]
  simp only [if_neg hne, h, commit_eq]

theorem exec_htload_none (h : loadTree (s.block k) = none) (hne : s.block k ≠ []) :
    exec (.htload k) s = .next (s.complete .corruptStream) := by
  rw [exec, execHtload]
  simp only [if_neg hne, h, failWith_eq]

/-- The byte string HTSER writes: the serialised form of the tree, the empty string for no tree (R115). -/
def State.serial? (s : State) : Option (List Byte) :=
  if s.nodeCount = 0 then some [] else s.tree?.map Tree.ser

theorem exec_htser {out : List Byte} (h : s.serial? = some out) :
    exec (.htser d) s =
      if s.bufCap < out.length then .next (s.complete .capacity) else .next ((s.putBlock d out).complete .ok) := by
  have h' : (if s.nodeCount = 0 then some [] else s.tree?.map Tree.ser) = some out := h
  rw [exec, execHtser, h']
  dsimp only
  split <;> rfl

theorem State.SameArena.tree?_eq {t : State} (h : s.SameArena t) : t.tree? = s.tree? := by
  rw [State.tree?, State.tree?, h.root, h.readTree_eq]

@[simp] theorem State.node?_complete (s : State) (e : ErrCode) (i : Nat) : (s.complete e).node? i = s.node? i := rfl

@[simp] theorem State.tree?_complete (s : State) (e : ErrCode) : (s.complete e).tree? = s.tree? :=
  State.SameArena.tree?_eq ⟨rfl, rfl, rfl⟩

/-- A tree committed at its root is the tree the arena then holds. -/
theorem State.tree?_putArena {wt : Byte → Nat} {ns : List ProtoNode} {t : Tree} {root : Nat} (s : State)
    (h : t.Fills wt ns) (hroot : t.index = root) : (s.putArena ns root).tree? = some t := by
  subst hroot
  rw [State.tree?, State.putArena_root, h.laid.toNat_index h.length_le]
  exact s.readTree_putArena h.length_le _ h.laid (length_le_of_nodup_bytes h.syms)

theorem State.nodeCount_putArena_ne_zero {wt : Byte → Nat} {ns : List ProtoNode} {t : Tree} (s : State)
    (h : t.Fills wt ns) (root : Nat) : (s.putArena ns root).nodeCount ≠ 0 := fun h0 => by
  have hcount := s.toNat_nodeCount_putArena h.length_le root
  rw [h0] at hcount
  exact Nat.not_lt_zero _ (hcount ▸ h.laid.index_lt)

/-- Every node is the root of a subtree. -/
theorem Tree.Fills.exists_subtree {wt : Byte → Nat} {ns : List ProtoNode} {t : Tree} (h : t.Fills wt ns) {i : Nat}
    {n : ProtoNode} (hi : ns[i]? = some n) :
    ∃ u : Tree, u.index = i ∧ u.LaidOut wt ns ∧ n.weight = u.weight wt ∧ u.weight wt ≤ t.weight wt := by
  have hmem : i ∈ t.indices := h.indices.mem_iff.2 (List.mem_range.2 (List.getElem?_eq_some_iff.1 hi).1)
  obtain ⟨u, rfl, hlaid, hle⟩ := h.laid.subtree hmem
  obtain ⟨n', hn', hw⟩ := hlaid.root
  obtain rfl := Option.some.inj (hi.symm.trans hn')
  exact ⟨u, rfl, hlaid, hw, hle⟩

/-- Every node of a tree that weighs nothing has weight 0. -/
theorem State.weight_putArena_eq_zero {ns : List ProtoNode} {t : Tree} (h : t.Fills (fun _ => 0) ns) {root i : Nat}
    {n : Node} (hi : (s.putArena ns root).node? i = some n) : n.weight = 0 := by
  rw [s.node?_putArena h.length_le] at hi
  obtain ⟨n, hn, rfl⟩ := Option.map_eq_some_iff.1 hi
  obtain ⟨u, -, -, hw, -⟩ := h.exists_subtree hn
  rw [ProtoNode.toNode, hw, u.weight_zero]
  rfl

end

/-- Settles O21: the parser reads the serialised form of the tree it makes, and a serialised tree of distinct symbols
has few enough leaves to be read to its end. -/
theorem htloadAcceptsSerialTrees : Obligations.HtloadAcceptsSerialTrees := by
  intro k s
  refine ⟨by cases k <;> rfl, exec_htload_nil, fun tr hsyms hser => ?accept, fun hne hno => ?reject⟩
  case reject => exact exec_htload_none (loadTree_eq_none hno) hne
  case accept =>
    obtain ⟨ns, hns⟩ := loadTree_complete hsyms
    rw [hser] at hns
    obtain ⟨t, hroot, hfills, hser', hindices⟩ := loadTree_sound hns
    have hlen := hfills.length_le
    have hcount := s.toNat_nodeCount_putArena hlen 0
    refine ⟨_, t, exec_htload_some hns (hser ▸ tr.ser_ne_nil), rfl, rfl, ?_, hser', ?_, fun i n hi => ?_,
      fun j hj => ?_⟩
    · rw [State.tree?_complete, s.tree?_putArena hfills hroot]
    · rw [hindices, State.complete_nodeCount, hcount]
    · exact State.weight_putArena_eq_zero hfills ((State.node?_complete ..).symm.trans hi)
    · rw [State.complete_nodeCount, hcount] at hj
      rw [State.complete_mem, State.putArena_mem, Store.get_put, List.length_map, if_neg (Nat.not_lt.2 hj)]

/-- A block that HTLOAD accepts is the serialised form of the arena it leaves. -/
theorem serial?_of_htload {k : Buf} {s t : State} (h : exec (.htload k) s = .next t) (hok : t.err = .ok) :
    t.serial? = some (s.block k) := by
  rcases exec_cases h with ⟨e, he, rfl⟩ | ⟨u, rfl, ⟨hnil, rfl⟩ | ⟨hne, ns, hns, rfl⟩⟩
  · exact absurd hok he
  · rw [hnil]
    rfl
  · obtain ⟨tr, hroot, hfills, hser, -⟩ := loadTree_sound hns
    rw [State.serial?, State.complete_nodeCount, if_neg (s.nodeCount_putArena_ne_zero hfills 0), State.tree?_complete,
      s.tree?_putArena hfills hroot, Option.map_some, hser]

/-- Settles O22: HTSER writes the serialised form of the loaded arena, which is the loaded block, and a block fits any
buffer. -/
theorem htserAfterHtloadReproduces : Obligations.HtserAfterHtloadReproduces := by
  intro k d s t hs ht hok
  have hcap : t.bufCap = s.bufCap := by
    rcases exec_cases ht with ⟨e, he, rfl⟩ | ⟨u, rfl, hu⟩
    · rfl
    · exact hu.frame.bufCap
  have hfit : ¬ t.bufCap < (s.block k).length := Nat.not_lt.2 (hcap ▸ hs.length_block_le k)
  refine ⟨_, (exec_htser (serial?_of_htload ht hok)).trans (if_neg hfit), rfl, ?_⟩
  exact t.block_complete_putBlock d _ .ok (s.block_length_lt k)

end Sys2Proof.Machine

/-! ## HFREQ counts bytes and HTREE writes one tree -/

namespace Sys2Proof.Machine

/-- Settles O15: each entry is a count of at most the block's length, so it fits its word, and the counts sum to the
length. -/
theorem hfreqCountsBytes : Obligations.HfreqCountsBytes := by
  intro k s
  have hcount : ∀ v, (BitVec.ofNat 32 (byteCount (s.block k) v)).toNat = byteCount (s.block k) v := fun v =>
    toNat_ofNat_of_lt (List.count_le_length.trans_lt (s.block_length_lt k))
  have hentry : ∀ v : Fin 256, (s.putFreq (byteCount (s.block k))).freq[v].toNat = byteCount (s.block k) v := by
    intro v
    rw [State.putFreq_freq, Fin.getElem_fin, getElem_tabulate, hcount]
  refine ⟨by cases k <;> rfl, (s.putFreq (byteCount (s.block k))).complete .ok, rfl, rfl, hentry, ?sum,
    fun hlen v => ?bound⟩
  case sum =>
    rw [State.complete_freq, State.putFreq_freq, toList_tabulate, List.map_map, ← s.length_block k,
      ← sum_byteCount (s.block k)]
    exact congrArg List.sum (List.map_congr_left fun v _ => hcount v)
  case bound =>
    rw [State.complete_freq, hentry v]
    exact (List.count_le_length.trans (s.length_block k).le).trans hlen

/-! ### HTREE (R112) -/

section
variable {s : State}

theorem State.freqAt_fin (s : State) (v : Fin 256) : s.freqAt v = s.freq[v].toNat := by
  simp [State.freqAt]

theorem State.occurring_eq_nil_iff : occurring s.freqAt = [] ↔ ∀ v : Fin 256, s.freq[v] = 0 := by
  simp only [occurring, List.filter_eq_nil_iff, List.mem_range, decide_eq_true_eq, Nat.not_lt, Nat.le_zero]
  constructor
  · intro h v
    exact BitVec.eq_of_toNat_eq ((s.freqAt_fin v).symm.trans (h v v.isLt))
  · intro h v hv
    rw [s.freqAt_fin ⟨v, hv⟩, h]
    rfl

/-- HTREE's leaves are the nonzero entries of FREQ. -/
theorem State.length_occurring (s : State) :
    (occurring s.freqAt).length = (s.freq.toList.filter (· ≠ 0)).length := by
  have hpos : ∀ w : Word, decide (w ≠ 0) = decide (0 < w.toNat) := fun w =>
    decide_eq_decide.2 (by rw [Nat.pos_iff_ne_zero, ne_eq, BitVec.toNat_eq]; rfl)
  have hfilter : ∀ (p : Nat → Bool), ((List.range 256).filter fun v => p (s.freqAt v)).length =
      (s.freq.toList.filter fun w => p w.toNat).length := fun p => by
    rw [← List.countP_eq_length_filter, ← List.countP_eq_length_filter]
    exact (List.countP_map (f := s.freqAt)).symm.trans
      ((congrArg (List.countP p) s.map_freqAt).trans List.countP_map)
  simp only [hpos]
  exact hfilter fun n => decide (0 < n)

/-- A tree over `n` byte values has `2n - 1` nodes (R112). -/
theorem length_buildTree {freq : Nat → Nat} (h : occurring freq ≠ []) :
    (buildTree freq).length + 1 = 2 * (occurring freq).length := by
  obtain ⟨t, -, hfills, hsyms⟩ := buildTree_fills freq h
  rw [← List.length_range (n := (buildTree freq).length), ← hfills.indices.length_eq, t.length_indices,
    hsyms.length_eq, leafBytes, List.length_map]

theorem exec_htree_empty (h : occurring s.freqAt = []) : exec .htree s = .next (s.complete .emptyInput) :=
  if_pos h

theorem exec_htree (h : occurring s.freqAt ≠ []) :
    exec .htree s =
      .next ((s.putArena (buildTree s.freqAt) ((buildTree s.freqAt).length - 1)).complete .ok) :=
  if_neg h

end

/-- Settles O16: the tree over `n` occurring bytes has `2n - 1` nodes, its root the last of them. -/
theorem htreeFailsOnlyOnEmptyTable : Obligations.HtreeFailsOnlyOnEmptyTable := by
  intro s
  refine ⟨rfl, fun h => exec_htree_empty (State.occurring_eq_nil_iff.2 h), fun n hn hpos => ?_⟩
  rw [← s.length_occurring] at hn
  have hne : occurring s.freqAt ≠ [] := List.length_pos_iff.1 (Nat.pos_of_ne_zero (hn ▸ hpos))
  have hcap := length_buildTree_le s.freqAt
  have hlen := length_buildTree hne
  have hcount := s.toNat_nodeCount_putArena hcap ((buildTree s.freqAt).length - 1)
  refine ⟨_, exec_htree hne, rfl, ?count, ?root, fun j hj => ?stale⟩
  case count =>
    rw [State.complete_nodeCount, hcount]
    omega
  case root =>
    rw [State.complete_root, State.putArena_root, toNat_ofNat_of_lt] <;> rw [Config.nodeCap] at hcap <;> omega
  case stale =>
    rw [State.complete_nodeCount, hcount] at hj
    rw [State.complete_mem, State.putArena_mem, Store.get_put, List.length_map, if_neg (Nat.not_lt.2 hj)]

end Sys2Proof.Machine

/-! ## HCODE writes the paths of the tree, HTSER its serialised form -/

namespace Sys2Proof.Machine

section
variable {s : State}

/-! ### The tree and the arena it is read from -/

/-- The two ways to read a tree: a leaf, or a node and the trees of its children. -/
theorem State.readTree_cases {fuel i : Nat} {t : Tree} (h : s.readTree (fuel + 1) i = some t) :
    ∃ n, s.node? i = some n ∧ ((n.leaf = true ∧ t = .leaf i n.sym) ∨
      ∃ l r, n.leaf = false ∧ s.readTree fuel n.left.toNat = some l ∧ s.readTree fuel n.right.toNat = some r ∧
        t = .node i l r) := by
  unfold State.readTree at h
  split at h
  · cases h
  · next n hn =>
    refine ⟨n, hn, ?_⟩
    split at h
    · next hleaf =>
      cases h
      exact .inl ⟨hleaf, rfl⟩
    · next hleaf =>
      split at h
      · next l r hl hr =>
        cases h
        exact .inr ⟨l, r, Bool.eq_false_iff.2 hleaf, hl, hr, rfl⟩
      · cases h

/-- The serialised form of a tree is that of the subtree it is read from (R115). -/
theorem State.serial_of_readTree {fuel i : Nat} {t : Tree} (h : s.readTree fuel i = some t) : s.Serial i t.ser := by
  induction fuel generalizing i t with
  | zero => cases h
  | succ fuel ih =>
    obtain ⟨n, hn, ⟨hleaf, rfl⟩ | ⟨l, r, hleaf, hl, hr, rfl⟩⟩ := State.readTree_cases h
    · exact .leaf i n hn hleaf
    · exact .inner i n hn hleaf _ _ (ih hl) (ih hr)

/-! ### Paths (R114) -/

theorem State.follow_inner {i : Nat} {n : Node} (h : s.node? i = some n) (hn : n.leaf = false) (b : Bool)
    (p : List Bool) : s.follow i (b :: p) = s.follow (if b then n.right.toNat else n.left.toNat) p := by
  rw [State.follow, h]
  simp [hn]

/-- No path leads on from a leaf. -/
theorem State.follow_leaf {i : Nat} {n : Node} (h : s.node? i = some n) (hn : n.leaf = true) {p : List Bool} {j : Nat} :
    s.follow i p = some j ↔ p = [] ∧ i = j := by
  cases p with
  | nil => simp [State.follow]
  | cons b p => simp [State.follow, h, hn]

theorem State.follow_append (p q : List Bool) (i : Nat) :
    s.follow i (p ++ q) = (s.follow i p).bind fun j => s.follow j q := by
  induction p generalizing i with
  | nil => rfl
  | cons b p ih =>
    rw [List.cons_append, State.follow, State.follow]
    split
    · rfl
    · split
      · rfl
      · exact ih _

/-- The path `q` leads from arena index `i` to the leaf of byte `v`. -/
def State.PathTo (s : State) (i : Nat) (v : Byte) (q : List Bool) : Prop :=
  ∃ j n, s.node? j = some n ∧ n.leaf = true ∧ n.sym = v ∧ s.follow i q = some j

theorem State.pathTo_leaf {i : Nat} {n : Node} (h : s.node? i = some n) (hn : n.leaf = true) {v : Byte}
    {q : List Bool} : s.PathTo i v q ↔ v = n.sym ∧ q = [] := by
  constructor
  · rintro ⟨j, m, hj, hm, rfl, hq⟩
    obtain ⟨rfl, rfl⟩ := (State.follow_leaf h hn).1 hq
    rw [Option.some.inj (h.symm.trans hj)]
    exact ⟨rfl, rfl⟩
  · rintro ⟨rfl, rfl⟩
    exact ⟨i, n, h, hn, rfl, rfl⟩

theorem State.pathTo_inner {i : Nat} {n : Node} (h : s.node? i = some n) (hn : n.leaf = false) {v : Byte}
    {q : List Bool} : s.PathTo i v q ↔
      (∃ q', q = false :: q' ∧ s.PathTo n.left.toNat v q') ∨ ∃ q', q = true :: q' ∧ s.PathTo n.right.toNat v q' := by
  cases q with
  | nil =>
    refine iff_of_false ?_ (by simp)
    rintro ⟨j, m, hj, hm, -, hq⟩
    cases hq
    rw [Option.some.inj (hj.symm.trans h), hn] at hm
    cases hm
  | cons b q =>
    simp only [State.PathTo, State.follow_inner h hn]
    cases b <;> simp

/-- The paths of a tree are the paths to the leaves of the arena it is read from. -/
theorem State.mem_paths_iff {fuel i : Nat} {t : Tree} (h : s.readTree fuel i = some t) (p : List Bool) (v : Byte)
    (q : List Bool) : (v, q) ∈ t.paths p ↔ ∃ r, q = p ++ r ∧ s.PathTo i v r := by
  induction fuel generalizing i t p with
  | zero => cases h
  | succ fuel ih =>
    obtain ⟨n, hn, ⟨hleaf, rfl⟩ | ⟨l, r, hleaf, hl, hr, rfl⟩⟩ := State.readTree_cases h
    · simp only [Tree.paths, State.pathTo_leaf hn hleaf, List.mem_singleton, Prod.mk.injEq]
      constructor
      · rintro ⟨rfl, rfl⟩
        exact ⟨[], (List.append_nil _).symm, rfl, rfl⟩
      · rintro ⟨r, rfl, rfl, rfl⟩
        exact ⟨rfl, List.append_nil _⟩
    · simp only [Tree.paths, List.mem_append, ih hl, ih hr, State.pathTo_inner hn hleaf, List.append_assoc,
        List.singleton_append]
      constructor
      · rintro (⟨r, rfl, hr⟩ | ⟨r, rfl, hr⟩)
        · exact ⟨_, rfl, .inl ⟨r, rfl, hr⟩⟩
        · exact ⟨_, rfl, .inr ⟨r, rfl, hr⟩⟩
      · rintro ⟨_, rfl, ⟨r, rfl, hr⟩ | ⟨r, rfl, hr⟩⟩
        · exact .inl ⟨r, rfl, hr⟩
        · exact .inr ⟨r, rfl, hr⟩

/-- The codes of the arena's tree are the codes of R114. -/
theorem State.mem_codes_iff {t : Tree} (h : s.tree? = some t) (v : Byte) (p : List Bool) :
    (v, p) ∈ t.codes ↔ s.IsCode v p := by
  obtain ⟨n, hn, ⟨hleaf, rfl⟩ | ⟨l, r, hleaf, -, -, rfl⟩⟩ := State.readTree_cases h
  · simp only [Tree.codes, List.mem_singleton, Prod.mk.injEq]
    constructor
    · rintro ⟨rfl, rfl⟩
      exact ⟨_, n, hn, hleaf, rfl, .inl ⟨rfl, rfl⟩⟩
    · rintro ⟨i, m, hi, -, rfl, ⟨rfl, rfl⟩ | ⟨hne, hp⟩⟩
      · rw [Option.some.inj (hn.symm.trans hi)]
        exact ⟨rfl, rfl⟩
      · exact absurd ((State.follow_leaf hn hleaf).1 hp).2.symm hne
  · rw [Tree.codes, State.mem_paths_iff h]
    have hroot : ∀ {i m}, s.node? i = some m → m.leaf = true → i ≠ s.root.toNat := fun hi hm => by
      rintro rfl
      rw [Option.some.inj (hi.symm.trans hn), hleaf] at hm
      cases hm
    constructor
    · rintro ⟨_, rfl, i, m, hi, hm, hv, hp⟩
      exact ⟨i, m, hi, hm, hv, .inr ⟨hroot hi hm, hp⟩⟩
    · rintro ⟨i, m, hi, hm, hv, ⟨hi', -⟩ | ⟨-, hp⟩⟩
      · exact absurd hi' (hroot hi hm)
      · exact ⟨p, rfl, i, m, hi, hm, hv, hp⟩

theorem State.IsCode.ne_nil {v : Byte} {p : List Bool} (h : s.IsCode v p) : p ≠ [] := by
  rintro rfl
  obtain ⟨i, n, -, -, -, ⟨-, hp⟩ | ⟨hne, hp⟩⟩ := h
  · cases hp
  · exact hne (Option.some.inj hp).symm

/-- No code begins with the code of another byte: no path leads on from a leaf (R117). -/
theorem State.IsCode.eq_of_prefix {v w : Byte} {p q : List Bool} (hp : s.IsCode v p) (hq : s.IsCode w q)
    (hpre : p <+: q) : v = w := by
  obtain ⟨i, n, hi, hn, rfl, hpi⟩ := hp
  obtain ⟨j, m, hj, hm, rfl, hqj⟩ := hq
  suffices hij : i = j by
    subst hij
    rw [Option.some.inj (hi.symm.trans hj)]
  rcases hpi with ⟨rfl, -⟩ | ⟨hne, hpi⟩ <;> rcases hqj with ⟨rfl, -⟩ | ⟨hne', hqj⟩
  · rfl
  · exact ((State.follow_leaf hi hn).1 hqj).2
  · exact ((State.follow_leaf hj hm).1 hpi).2.symm
  · obtain ⟨e, rfl⟩ := hpre
    rw [State.follow_append, hpi, Option.bind_some] at hqj
    exact ((State.follow_leaf hi hn).1 hqj).2

/-! ### The code table -/

theorem Tree.map_fst_paths (t : Tree) (p : List Bool) : (t.paths p).map Prod.fst = t.syms := by
  induction t generalizing p with
  | leaf i sym => rfl
  | node i l r ihl ihr => rw [Tree.paths, List.map_append, ihl, ihr, Tree.syms]

theorem Tree.map_fst_codes (t : Tree) : t.codes.map Prod.fst = t.syms := by
  cases t with
  | leaf i sym => rfl
  | node i l r => exact Tree.map_fst_paths _ []

theorem mem_of_lookup_reverse {cs : List (Byte × List Bool)} {v : Byte} {p : List Bool}
    (h : cs.reverse.lookup v = some p) : (v, p) ∈ cs := by
  obtain ⟨l₁, l₂, heq, -⟩ := List.lookup_eq_some_iff.1 h
  exact List.mem_reverse.1 (by simp [heq])

/-- A code that is not empty was assigned. -/
theorem mem_of_codeOf_ne_nil {cs : List (Byte × List Bool)} {v : Nat} (h : codeOf cs v ≠ []) :
    (BitVec.ofNat 8 v, codeOf cs v) ∈ cs := by
  unfold codeOf at h ⊢
  cases hv : cs.reverse.lookup (BitVec.ofNat 8 v) with
  | none => exact absurd (by rw [hv]; rfl) h
  | some c => exact mem_of_lookup_reverse hv

/-- Where every byte is assigned at most once, the table holds what was assigned. -/
theorem codeOf_eq_of_mem {cs : List (Byte × List Bool)} {v : Nat} {p : List Bool} (hkeys : (cs.map Prod.fst).Nodup)
    (h : (BitVec.ofNat 8 v, p) ∈ cs) : codeOf cs v = p := by
  cases hv : cs.reverse.lookup (BitVec.ofNat 8 v) with
  | none => simpa using List.lookup_eq_none_iff.1 hv _ (List.mem_reverse.2 h)
  | some c =>
    rw [codeOf, hv]
    exact congrArg Prod.snd (List.inj_on_of_nodup_map hkeys (mem_of_lookup_reverse hv) h rfl)

theorem CodeEntry.toNat_clen_ofBits {c : List Bool} (h : c.length < 256) : (CodeEntry.ofBits c).clen.toNat = c.length :=
  toNat_ofNat_of_lt h

theorem CodeEntry.getLsbD_cbits_ofBits {p : List Bool} (h : p.length < 256) {j : Nat} {b : Bool} (hj : p[j]? = some b) :
    (CodeEntry.ofBits p).cbits.getLsbD j = b := by
  obtain ⟨hlt, rfl⟩ := List.getElem?_eq_some_iff.1 hj
  rw [CodeEntry.ofBits, getLsbD_ofNat_bitsNat, List.getD_eq_getElem _ _ hlt, decide_eq_true (by omega), Bool.true_and]

theorem State.codeAt_putCode (s : State) (c : Nat → List Bool) (v : Byte) :
    (s.putCode c).codeAt v = CodeEntry.ofBits (c v.toNat) := by
  simp [State.codeAt, List.getD_eq_getElem?_getD, v.isLt]

theorem State.length_codeOf_codes_lt {t : Tree} (h : s.tree? = some t) (v : Nat) : (codeOf t.codes v).length < 256 :=
  length_codeOf_lt (Nat.zero_lt_succ _) (State.length_codes_lt h) v

theorem exec_hcode_empty (h : s.nodeCount = 0) :
    exec .hcode s = .next ((s.putCode fun _ => []).complete .ok) := by
  rw [exec, execHcode, if_pos h, settle_ok]

theorem exec_hcode_tree {t : Tree} (h : s.tree? = some t) (hne : s.nodeCount ≠ 0) :
    exec .hcode s = .next ((s.putCode (codeOf t.codes)).complete .ok) := by
  rw [exec, execHcode, if_neg hne, h, settle_ok]

theorem exec_hcode_malformed (h : s.tree? = none) (hne : s.nodeCount ≠ 0) :
    exec .hcode s = .fault .malformedArena := by
  rw [exec, execHcode, if_neg hne, h, settle_malformed]

/-- A byte with a length in the table HCODE writes has its code there. -/
theorem isCode_of_hcode {t : State} {v : Byte} (ht : exec .hcode s = .next t) (hv : (t.codeAt v).clen ≠ 0) :
    s.IsCode v (t.codeAt v).bits := by
  by_cases h0 : s.nodeCount = 0
  · rw [exec_hcode_empty h0] at ht
    cases ht
    exact absurd (congrArg CodeEntry.clen (s.codeAt_putCode (fun _ => []) v)) hv
  cases htree : s.tree? with
  | none =>
    rw [exec_hcode_malformed htree h0] at ht
    cases ht
  | some tr =>
    rw [exec_hcode_tree htree h0] at ht
    cases ht
    have hentry : ((s.putCode (codeOf tr.codes)).complete .ok).codeAt v = CodeEntry.ofBits (codeOf tr.codes v.toNat) :=
      s.codeAt_putCode _ v
    rw [hentry] at hv ⊢
    rw [CodeEntry.bits_ofBits _ (State.length_codeOf_codes_lt htree _), ← State.mem_codes_iff htree]
    have hmem := mem_of_codeOf_ne_nil (cs := tr.codes) (v := v.toNat) fun hnil => hv (by rw [hnil]; rfl)
    rwa [BitVec.ofNat_toNat, BitVec.setWidth_eq] at hmem

end

/-- Settles O18: the codes of the tree are the paths of the arena, each byte has at most one, and at most 255 bits. -/
theorem hcodeWritesPathCodes : Obligations.HcodeWritesPathCodes := by
  refine ⟨rfl, fun s hs => ?_⟩
  by_cases h0 : s.nodeCount = 0
  · refine ⟨_, exec_hcode_empty h0, rfl, fun _ v => ?_, fun hne => absurd h0 hne⟩
    rw [State.complete_code, State.putCode_code, Fin.getElem_fin, getElem_tabulate]
    rfl
  obtain ⟨tr, htree, -, hsyms⟩ := hs.tree h0
  refine ⟨_, exec_hcode_tree htree h0, rfl, fun h => absurd h h0, fun _ v => ?_⟩
  have hlen := State.length_codeOf_codes_lt htree v
  rw [State.complete_code, State.putCode_code, Fin.getElem_fin, getElem_tabulate]
  refine ⟨fun p hp => ?code, fun hno => ?none, fun j hj => CodeEntry.ofBits_clean hlen hj⟩
  case code =>
    obtain rfl := codeOf_eq_of_mem (tr.map_fst_codes ▸ hsyms) ((State.mem_codes_iff htree _ _).2 hp)
    exact ⟨CodeEntry.toNat_clen_ofBits hlen, hp.ne_nil, fun j b hj => CodeEntry.getLsbD_cbits_ofBits hlen hj⟩
  case none =>
    have hnil : codeOf tr.codes v = [] := by
      by_contra hne
      exact hno _ ((State.mem_codes_iff htree _ _).1 (mem_of_codeOf_ne_nil hne))
    rw [hnil]
    rfl

/-- Settles O19: codes are paths that end in leaves, and no path leads on from a leaf. -/
theorem hcodeIsPrefixFree : Obligations.HcodeIsPrefixFree := fun _ _ _ _ _ ht hne hv hw hpre =>
  hne ((isCode_of_hcode ht hv).eq_of_prefix (isCode_of_hcode ht hw) hpre)

/-! ### HTSER (R115) -/

/-- A valid arena has a serialised form: that of the subtree at ROOT, three bytes for every two nodes. -/
theorem State.ArenaOk.serial? {s : State} (h : s.ArenaOk) :
    ∃ out, s.serial? = some out ∧ out.length < 2 ^ 32 ∧ (s.nodeCount = 0 → out = []) ∧
      (s.nodeCount ≠ 0 → s.Serial s.root.toNat out ∧ 2 * out.length = 3 * s.nodeCount.toNat + 1) := by
  by_cases h0 : s.nodeCount = 0
  · exact ⟨[], if_pos h0, Nat.two_pow_pos 32, fun _ => rfl, fun hne => absurd h0 hne⟩
  · obtain ⟨t, htree, hindices, hsyms⟩ := h.tree h0
    have hcount := hindices.length_eq
    have hnodes := t.length_indices
    have hser := t.length_ser
    have hleaves := length_le_of_nodup_bytes hsyms
    rw [List.length_range] at hcount
    refine ⟨t.ser, ?_, by omega, fun h => absurd h h0, fun _ => ⟨State.serial_of_readTree htree, by omega⟩⟩
    rw [State.serial?, if_neg h0, htree, Option.map_some]

theorem State.writesBlock_putBlock (s : State) (k : Buf) {xs : List Byte} (h : xs.length < 2 ^ 32) :
    WritesBlock k xs s (s.putBlock k xs) where
  length := by rw [State.len_putBlock, if_pos rfl, toNat_ofNat_of_lt h]
  bytes i := by simp only [State.get_putBlock, true_and]
  others j hj := by
    rw [State.putBlock_len, State.putBlock_mem, PerBuf.get_set_ne _ _ hj, PerBuf.get_set_ne _ _ hj]
    exact ⟨rfl, rfl⟩

/-- Settles O20: a valid arena has a serialised form, and HTSER writes it exactly if it fits. -/
theorem htserWritesSerialForm : Obligations.HtserWritesSerialForm := by
  intro d s hs
  obtain ⟨out, hout, hlen, hempty, htree⟩ := hs.serial?
  refine ⟨by cases d <;> rfl, out, hempty, htree, fun hlt => ?_, fun hle => ?_⟩
  · rw [exec_htser hout, if_pos hlt]
  · refine ⟨(s.putBlock d out).complete .ok, ?_, rfl, { s.writesBlock_putBlock d hlen with }⟩
    rw [exec_htser hout, if_neg (Nat.not_lt.2 hle)]

end Sys2Proof.Machine

/-! ## HTREE merges the two smallest keys of the pool -/

namespace Sys2Proof.Machine

/-! ### The smallest key (R111)

Keys are compared in the lexicographic order of weight and index. -/

theorem toLex_keyMin (a b : Key) : toLex (Key.min a b) = min (toLex a) (toLex b) := by
  unfold Key.min
  split
  · next h => exact (min_eq_right (Prod.Lex.toLex_lt_toLex.2 h).le).symm
  · next h => exact (min_eq_left (not_lt.1 fun hlt => h (Prod.Lex.toLex_lt_toLex.1 hlt))).symm

theorem foldl_keyMin_le (es : List Key) (e : Key) : ∀ x ∈ e :: es, toLex (es.foldl Key.min e) ≤ toLex x := by
  induction es generalizing e with
  | nil => simp
  | cons y es ih =>
    have hmin : toLex (es.foldl Key.min (Key.min e y)) ≤ min (toLex e) (toLex y) :=
      toLex_keyMin e y ▸ ih (Key.min e y) _ List.mem_cons_self
    intro x hx
    rw [List.foldl_cons]
    rcases List.mem_cons.1 hx with rfl | hx
    · exact hmin.trans (min_le_left ..)
    rcases List.mem_cons.1 hx with rfl | hx
    · exact hmin.trans (min_le_right ..)
    · exact ih _ x (List.mem_cons_of_mem _ hx)

theorem takeMin_le {pool rest : List Key} {m : Key} (h : takeMin pool = some (m, rest)) :
    ∀ x ∈ pool, toLex m ≤ toLex x := by
  cases pool with
  | nil => cases h
  | cons e es =>
    cases h
    exact foldl_keyMin_le es e

/-! ### The pool of an arena (R112) -/

/-- `x` is the key of a node of the arena that is no node's child. -/
structure PoolKey (arena : List ProtoNode) (x : Key) : Prop where
  node    : ∃ n, arena[x.2]? = some n ∧ n.weight = x.1
  noChild : ∀ n ∈ arena, n.leaf = false → n.left ≠ x.2 ∧ n.right ≠ x.2

/-- Between two merges: the pool lists the keys of the nodes that are no node's child, each once, and a node's children
are in the arena. -/
structure Pooled (pool : List Key) (arena : List ProtoNode) : Prop where
  mem      : ∀ x, x ∈ pool ↔ PoolKey arena x
  nodup    : (pool.map Prod.snd).Nodup
  children : ∀ n ∈ arena, n.leaf = false → n.left < arena.length ∧ n.right < arena.length

/-- `a` and `b` are the smallest and the next smallest key of the arena's pool. -/
structure SmallestKeys (arena : List ProtoNode) (a b : Key) : Prop where
  fst  : PoolKey arena a
  snd  : PoolKey arena b
  lt   : toLex a < toLex b
  rest : ∀ x, PoolKey arena x → x ≠ a → x ≠ b → toLex b < toLex x

/-- Node `m` merges the two smallest keys of the pool of the nodes before it, the smaller one to the left. -/
def MergesSmallest (arena : List ProtoNode) (m : Nat) : Prop :=
  ∃ a b : Key, arena[m]? = some (ProtoNode.mkInner (a.1 + b.1) a.2 b.2) ∧ SmallestKeys (arena.take m) a b

theorem PoolKey.lt {arena : List ProtoNode} {x : Key} (h : PoolKey arena x) : x.2 < arena.length := by
  obtain ⟨n, hn, -⟩ := h.node
  exact (List.getElem?_eq_some_iff.1 hn).1

section
variable {pool rest rest₂ : List Key} {arena : List ProtoNode} {a b : Key}

theorem takeMin_two_perm (ha : takeMin pool = some (a, rest)) (hb : takeMin rest = some (b, rest₂)) :
    pool.Perm (a :: b :: rest₂) :=
  (takeMin_perm ha).trans ((takeMin_perm hb).cons a)

/-- The indices of the pool after two elements are taken off it. -/
theorem Pooled.nodup_takeMin (h : Pooled pool arena) (ha : takeMin pool = some (a, rest))
    (hb : takeMin rest = some (b, rest₂)) : (a.2 :: b.2 :: rest₂.map Prod.snd).Nodup :=
  ((takeMin_two_perm ha hb).map Prod.snd).nodup_iff.1 h.nodup

theorem Pooled.smallestKeys (h : Pooled pool arena) (ha : takeMin pool = some (a, rest))
    (hb : takeMin rest = some (b, rest₂)) : SmallestKeys arena a b := by
  have hperm := takeMin_two_perm ha hb
  have hnodup : (a :: b :: rest₂).Nodup := (h.nodup_takeMin ha hb).of_map (l := a :: b :: rest₂) Prod.snd
  have hmem : ∀ {x}, x ∈ a :: b :: rest₂ → x ∈ pool := fun hx => hperm.mem_iff.2 hx
  have hapool : a ∈ pool := hmem List.mem_cons_self
  have hbpool : b ∈ pool := hmem (List.mem_cons_of_mem _ List.mem_cons_self)
  have hne : a ≠ b := fun hab => (List.nodup_cons.1 hnodup).1 (hab ▸ List.mem_cons_self)
  refine ⟨(h.mem a).1 hapool, (h.mem b).1 hbpool, lt_of_le_of_ne (takeMin_le ha b hbpool) (toLex.injective.ne hne),
    fun x hx hxa hxb => ?_⟩
  have hxrest : x ∈ rest := by
    have := (takeMin_perm ha).mem_iff.1 ((h.mem x).2 hx)
    exact (List.mem_cons.1 this).resolve_left hxa
  exact lt_of_le_of_ne (takeMin_le hb x hxrest) (toLex.injective.ne hxb.symm)

/-- A merge takes its two children off the pool and puts the new node in. -/
theorem Pooled.poolKey_merge_iff (h : Pooled pool arena) (ha : PoolKey arena a) (hb : PoolKey arena b) (x : Key) :
    PoolKey (arena ++ [ProtoNode.mkInner (a.1 + b.1) a.2 b.2]) x ↔
      (PoolKey arena x ∧ a.2 ≠ x.2 ∧ b.2 ≠ x.2) ∨ x = (a.1 + b.1, arena.length) := by
  constructor
  · rintro ⟨⟨n, hn, hw⟩, hchild⟩
    have hold : ∀ n ∈ arena, n.leaf = false → n.left ≠ x.2 ∧ n.right ≠ x.2 := fun n hn =>
      hchild n (List.mem_append_left _ hn)
    rcases Nat.lt_or_ge x.2 arena.length with hlt | hge
    · rw [List.getElem?_append_left hlt] at hn
      exact .inl ⟨⟨⟨n, hn, hw⟩, hold⟩, hchild _ (List.mem_append_right _ List.mem_cons_self) rfl⟩
    · obtain ⟨hlt, hval⟩ := List.getElem?_eq_some_iff.1 hn
      have hx : x.2 = arena.length := by
        rw [List.length_append, List.length_singleton] at hlt
        omega
      rw [hx, List.getElem?_concat_length] at hn
      cases hn
      exact .inr (Prod.ext hw.symm hx)
  · rintro (⟨hx, hax, hbx⟩ | rfl)
    · obtain ⟨n, hn, hw⟩ := hx.node
      refine ⟨⟨n, ?_, hw⟩, fun m hm hleaf => ?_⟩
      · rw [List.getElem?_append_left hx.lt, hn]
      · rcases List.mem_append.1 hm with hm | hm
        · exact hx.noChild m hm hleaf
        · rw [List.mem_singleton.1 hm]
          exact ⟨hax, hbx⟩
    · refine ⟨⟨_, List.getElem?_concat_length, rfl⟩, fun m hm hleaf => ?_⟩
      rcases List.mem_append.1 hm with hm | hm
      · have ⟨hl, hr⟩ := h.children m hm hleaf
        exact ⟨hl.ne, hr.ne⟩
      · rw [List.mem_singleton.1 hm]
        exact ⟨ha.lt.ne, hb.lt.ne⟩

theorem Pooled.merge (h : Pooled pool arena) (ha : takeMin pool = some (a, rest))
    (hb : takeMin rest = some (b, rest₂)) :
    Pooled (rest₂ ++ [(a.1 + b.1, arena.length)]) (arena ++ [ProtoNode.mkInner (a.1 + b.1) a.2 b.2]) := by
  have hsmall := h.smallestKeys ha hb
  have hperm := takeMin_two_perm ha hb
  have hnodup := h.nodup_takeMin ha hb
  simp only [List.nodup_cons, List.mem_cons, not_or] at hnodup
  obtain ⟨⟨-, ha'⟩, hb', hrest⟩ := hnodup
  have hold : ∀ {x}, x ∈ rest₂ → PoolKey arena x := fun hx =>
    (h.mem _).1 (hperm.mem_iff.2 (List.mem_cons_of_mem _ (List.mem_cons_of_mem _ hx)))
  refine ⟨fun x => ?mem, ?nodup, fun n hn hleaf => ?children⟩
  case mem =>
    rw [h.poolKey_merge_iff hsmall.fst hsmall.snd, List.mem_append, List.mem_singleton]
    refine or_congr_left ⟨fun hx => ⟨hold hx, fun hax => ha' ?_, fun hbx => hb' ?_⟩, fun ⟨hx, hax, hbx⟩ => ?_⟩
    · exact hax ▸ List.mem_map_of_mem hx
    · exact hbx ▸ List.mem_map_of_mem hx
    · have hxa : x ≠ a := fun h => hax (h ▸ rfl)
      have hxb : x ≠ b := fun h => hbx (h ▸ rfl)
      simpa [hxa, hxb] using hperm.mem_iff.1 ((h.mem x).2 hx)
  case nodup =>
    rw [List.map_append, List.nodup_append_comm]
    refine List.nodup_cons.2 ⟨fun hmem => ?_, hrest⟩
    obtain ⟨x, hx, hidx⟩ := List.mem_map.1 hmem
    exact (hold hx).lt.ne hidx
  case children =>
    rw [List.length_append, List.length_singleton]
    rcases List.mem_append.1 hn with hn | hn
    · have ⟨hl, hr⟩ := h.children n hn hleaf
      exact ⟨Nat.lt_succ_of_lt hl, Nat.lt_succ_of_lt hr⟩
    · rw [List.mem_singleton.1 hn]
      exact ⟨Nat.lt_succ_of_lt hsmall.fst.lt, Nat.lt_succ_of_lt hsmall.snd.lt⟩

/-! ### The merge loop (R112) -/

theorem getElem?_of_prefix {xs ys : List ProtoNode} (h : xs <+: ys) {i : Nat} {n : ProtoNode} (hi : xs[i]? = some n) :
    ys[i]? = some n := by
  obtain ⟨hlt, rfl⟩ := List.getElem?_eq_some_iff.1 hi
  exact List.prefix_iff_getElem?.1 h i hlt

/-- One round of the loop: a merge, or nothing where fewer than two elements are left. -/
theorem mergeLoop_cases (fuel : Nat) (pool : List Key) (arena : List ProtoNode) :
    mergeLoop (fuel + 1) pool arena = arena ∨
      ∃ a rest b rest₂, takeMin pool = some (a, rest) ∧ takeMin rest = some (b, rest₂) ∧
        mergeLoop (fuel + 1) pool arena = mergeLoop fuel (rest₂ ++ [(a.1 + b.1, arena.length)])
          (arena ++ [ProtoNode.mkInner (a.1 + b.1) a.2 b.2]) := by
  rw [mergeLoop]
  split
  · exact .inl rfl
  · next a rest ha =>
    split
    · exact .inl rfl
    · next b rest₂ hb => exact .inr ⟨a, rest, b, rest₂, ha, hb, rfl⟩

theorem mergeLoop_prefix (fuel : Nat) (pool : List Key) (arena : List ProtoNode) :
    arena <+: mergeLoop fuel pool arena := by
  induction fuel generalizing pool arena with
  | zero => exact List.prefix_refl _
  | succ fuel ih =>
    rcases mergeLoop_cases fuel pool arena with heq | ⟨a, rest, b, rest₂, -, -, heq⟩
    · rw [heq]
    · rw [heq]
      exact (List.prefix_append ..).trans (ih ..)

/-- Every node the loop adds merges the two smallest keys of the pool at that moment. -/
theorem Pooled.mergesSmallest {fuel m : Nat} (h : Pooled pool arena) (hm : arena.length ≤ m)
    (hlt : m < (mergeLoop fuel pool arena).length) : MergesSmallest (mergeLoop fuel pool arena) m := by
  induction fuel generalizing pool arena with
  | zero => exact absurd hlt (Nat.not_lt.2 hm)
  | succ fuel ih =>
    rcases mergeLoop_cases fuel pool arena with heq | ⟨a, rest, b, rest₂, ha, hb, heq⟩ <;> rw [heq] at hlt ⊢
    · exact absurd hlt (Nat.not_lt.2 hm)
    rcases Nat.eq_or_lt_of_le hm with rfl | hm
    · obtain ⟨new, hnew⟩ := mergeLoop_prefix fuel (rest₂ ++ [(a.1 + b.1, arena.length)])
        (arena ++ [ProtoNode.mkInner (a.1 + b.1) a.2 b.2])
      rw [← hnew, List.append_assoc]
      refine ⟨a, b, by simp, ?_⟩
      rw [List.take_left' rfl]
      exact h.smallestKeys ha hb
    · exact ih (h.merge ha hb) (by simpa using hm) hlt

end

/-- Before the first merge every node is in the pool. -/
theorem pooled_leaves {ns : List ProtoNode} (h : ∀ n ∈ ns, n.leaf = true) :
    Pooled (ns.mapIdx fun j n => (n.weight, j)) ns := by
  have hinner : ∀ n ∈ ns, n.leaf ≠ false := fun n hn => by simp [h n hn]
  refine ⟨fun x => ?mem, ?nodup, fun n hn hleaf => absurd hleaf (hinner n hn)⟩
  case mem =>
    rw [List.mem_mapIdx]
    constructor
    · rintro ⟨i, hi, rfl⟩
      exact ⟨⟨ns[i], List.getElem?_eq_getElem hi, rfl⟩, fun n hn hleaf => absurd hleaf (hinner n hn)⟩
    · rintro ⟨⟨n, hn, hw⟩, -⟩
      obtain ⟨hi, rfl⟩ := List.getElem?_eq_some_iff.1 hn
      exact ⟨x.2, hi, Prod.ext hw rfl⟩
  case nodup =>
    rw [List.mapIdx_eq_zipIdx_map, List.map_map]
    exact (List.zipIdx_map_snd 0 ns ▸ List.nodup_range' : (ns.zipIdx.map Prod.snd).Nodup)

section
variable {freq : Nat → Nat}

theorem buildTree_leaf {j v : Nat} (h : (occurring freq)[j]? = some v) :
    (buildTree freq)[j]? = some (ProtoNode.mkLeaf (BitVec.ofNat 8 v) (freq v)) := by
  have hleaf : (leavesOf freq)[j]? = some (ProtoNode.mkLeaf (BitVec.ofNat 8 v) (freq v)) := by
    rw [leavesOf, List.getElem?_map, h, Option.map_some]
  exact getElem?_of_prefix (mergeLoop_prefix ..) hleaf

theorem buildTree_mergesSmallest {m : Nat} (hm : (occurring freq).length ≤ m) (hlt : m < (buildTree freq).length) :
    MergesSmallest (buildTree freq) m := by
  refine (pooled_leaves fun n hn => ?_).mergesSmallest (by rwa [leavesOf, List.length_map]) hlt
  obtain ⟨v, -, rfl⟩ := List.mem_map.1 hn
  rfl

end

/-! ### The committed arena -/

section
variable {s : State} {wt : Byte → Nat} {ns : List ProtoNode} {t : Tree} {root : Nat}

/-- The children of a node survive their 9-bit fields. -/
theorem Tree.Fills.toNat_children (h : t.Fills wt ns) {i : Nat} {n : ProtoNode} (hi : ns[i]? = some n)
    (hn : n.leaf = false) : n.toNode.left.toNat = n.left ∧ n.toNode.right.toNat = n.right := by
  obtain ⟨u, rfl, hlaid, -, -⟩ := h.exists_subtree hi
  cases u with
  | leaf j sym =>
    cases hi.symm.trans hlaid
    cases hn
  | node j l r =>
    obtain ⟨hj, hl, hr⟩ := hlaid
    cases hi.symm.trans hj
    exact ⟨hl.toNat_index h.length_le, hr.toNat_index h.length_le⟩

/-- The pool of the claims is the pool of the merge loop. -/
theorem inPool_putArena (h : t.Fills wt ns) {m x : Nat} (hm : m ≤ ns.length) :
    inPool (s.putArena ns root) m x ↔ ∃ w, PoolKey (ns.take m) (w, x) := by
  have hnode := s.node?_putArena h.length_le root
  constructor
  · rintro ⟨hx, hchild⟩
    have hget : (ns.take m)[x]? = some ns[x] := by
      rw [List.getElem?_take_of_lt hx, List.getElem?_eq_getElem]
    refine ⟨_, ⟨_, hget, rfl⟩, fun n hn hleaf => ?_⟩
    obtain ⟨j, hj⟩ := List.mem_iff_getElem?.1 hn
    have hjm : j < m := by
      have := (List.getElem?_eq_some_iff.1 hj).1
      rw [List.length_take] at this
      omega
    rw [List.getElem?_take_of_lt hjm] at hj
    have hc := hchild j n.toNode hjm (by rw [hnode, hj, Option.map_some]) hleaf
    rwa [(h.toNat_children hj hleaf).1, (h.toNat_children hj hleaf).2] at hc
  · rintro ⟨w, hw⟩
    have hx := hw.lt
    rw [List.length_take] at hx
    refine ⟨lt_of_lt_of_le hx (min_le_left ..), fun j n hjm hj hleaf => ?_⟩
    rw [hnode] at hj
    obtain ⟨n, hn, rfl⟩ := Option.map_eq_some_iff.1 hj
    rw [(h.toNat_children hn hleaf).1, (h.toNat_children hn hleaf).2]
    exact hw.noChild n (List.mem_iff_getElem?.2 ⟨j, by rw [List.getElem?_take_of_lt hjm, hn]⟩) hleaf

/-- The entry of a key of the pool, with the key's weight. -/
theorem PoolKey.exists_node (h : t.Fills wt ns) (hw : t.weight wt < 2 ^ 32) {m : Nat} {a : Key}
    (ha : PoolKey (ns.take m) a) :
    ∃ n, (s.putArena ns root).node? a.2 = some n ∧ n.weight.toNat = a.1 := by
  obtain ⟨n, hn, hweight⟩ := ha.node
  have hn' : ns[a.2]? = some n := getElem?_of_prefix (List.take_prefix m ns) hn
  obtain ⟨u, -, -, hu, hle⟩ := h.exists_subtree hn'
  refine ⟨n.toNode, by rw [s.node?_putArena h.length_le, hn', Option.map_some], ?_⟩
  rw [← hweight]
  exact toNat_ofNat_of_lt (by omega)

/-- The order of the claims is the order of the keys. -/
theorem keyLt_putArena (h : t.Fills wt ns) (hw : t.weight wt < 2 ^ 32) {m : Nat} {a b : Key}
    (ha : PoolKey (ns.take m) a) (hb : PoolKey (ns.take m) b) (hab : toLex a < toLex b) :
    keyLt (s.putArena ns root) a.2 b.2 := by
  obtain ⟨n, hn, hwn⟩ := ha.exists_node h hw
  obtain ⟨n', hn', hwn'⟩ := hb.exists_node h hw
  refine ⟨n, n', hn, hn', ?_⟩
  rw [hwn, hwn']
  exact Prod.Lex.toLex_lt_toLex.1 hab

/-- A node that merges the two smallest keys of the pool does so in the committed arena (R111). -/
theorem MergesSmallest.putArena {m : Nat} (hmerge : MergesSmallest ns m) (h : t.Fills wt ns)
    (hw : t.weight wt < 2 ^ 32) :
    ∃ n l r, (s.putArena ns root).node? m = some n ∧ n.leaf = false ∧ n.sym = 0 ∧
      inPool (s.putArena ns root) m n.left.toNat ∧ inPool (s.putArena ns root) m n.right.toNat ∧
      keyLt (s.putArena ns root) n.left.toNat n.right.toNat ∧
      (∀ x, inPool (s.putArena ns root) m x → x ≠ n.left.toNat → x ≠ n.right.toNat →
        keyLt (s.putArena ns root) n.right.toNat x) ∧
      (s.putArena ns root).node? n.left.toNat = some l ∧ (s.putArena ns root).node? n.right.toNat = some r ∧
      n.weight.toNat = l.weight.toNat + r.weight.toNat := by
  obtain ⟨a, b, hm, ha, hb, hab, hrest⟩ := hmerge
  have hpool : ∀ {x}, inPool (s.putArena ns root) m x ↔ ∃ w, PoolKey (ns.take m) (w, x) :=
    inPool_putArena h (List.getElem?_eq_some_iff.1 hm).1.le
  obtain ⟨l, hl, hwl⟩ := ha.exists_node (s := s) (root := root) h hw
  obtain ⟨r, hr, hwr⟩ := hb.exists_node (s := s) (root := root) h hw
  obtain ⟨hleft, hright⟩ := h.toNat_children hm rfl
  obtain ⟨u, -, -, hu, hle⟩ := h.exists_subtree hm
  refine ⟨_, l, r, by rw [s.node?_putArena h.length_le, hm, Option.map_some], rfl, rfl, ?_⟩
  rw [hleft, hright]
  refine ⟨hpool.2 ⟨_, ha⟩, hpool.2 ⟨_, hb⟩, keyLt_putArena h hw ha hb hab, fun x hx hxl hxr => ?_, hl, hr, ?_⟩
  · obtain ⟨w, hxw⟩ := hpool.1 hx
    exact keyLt_putArena h hw hb hxw
      (hrest _ hxw (fun hxa => hxl (congrArg Prod.snd hxa)) fun hxb => hxr (congrArg Prod.snd hxb))
  · rw [hwl, hwr]
    exact toNat_ofNat_of_lt (hu.trans_lt (hle.trans_lt hw))

end

/-- Settles O17: a node past the leaves merges the two smallest keys of the pool at that moment, and neither its
children nor its weight are cut by their fields. -/
theorem htreeMergesSmallestKeys : Obligations.HtreeMergesSmallestKeys := by
  rintro s t _ hfreq hcap ht hok rfl
  rcases exec_cases ht with ⟨e, he, rfl⟩ | ⟨u, rfl, hne, rfl⟩
  · exact absurd hok he
  have hsyms : (List.range 256).filter (fun v => s.freqAt v ≠ 0) = occurring s.freqAt := by
    simp only [occurring, Nat.pos_iff_ne_zero]
  obtain ⟨tr, -, hfills, hperm⟩ := buildTree_fills s.freqAt hne
  have hw : tr.weight (fun v => s.freqAt v.toNat) < 2 ^ 32 :=
    calc tr.weight (fun v => s.freqAt v.toNat)
      _ ≤ ((List.range 256).map s.freqAt).sum := weight_le_sum_freq hperm
      _ ≤ s.bufCap := s.map_freqAt ▸ hfreq
      _ < 2 ^ 32 := hcap.trans_lt (by decide)
  rw [hsyms]
  refine ⟨fun j v hv => ?leaf, fun m hm hlt => ?merge⟩
  case leaf =>
    rw [State.node?_complete, s.node?_putArena hfills.length_le, buildTree_leaf hv]
    rfl
  case merge =>
    rw [State.complete_nodeCount, s.toNat_nodeCount_putArena hfills.length_le] at hlt
    exact (buildTree_mergesSmallest hm hlt).putArena (root := (buildTree s.freqAt).length - 1) hfills hw

end Sys2Proof.Machine

/-! ## HENC writes the codes of a block -/

namespace Sys2Proof.Machine

/-- A block is encoded exactly if each of its bytes has a code, and then as their codes in block order (R140). -/
theorem encodeBytes_eq_some_iff {code : Byte → CodeEntry} {b : List Byte} {bits : List Bool} :
    encodeBytes code b = some bits ↔
      (∀ v ∈ b, (code v).clen ≠ 0) ∧ bits = b.flatMap fun v => (code v).bits := by
  induction b generalizing bits with
  | nil =>
    rw [encodeBytes, List.flatMap_nil, Option.some.injEq]
    exact ⟨fun h => ⟨nofun, h.symm⟩, fun h => h.2.symm⟩
  | cons v b ih =>
    rw [encodeBytes, List.forall_mem_cons, List.flatMap_cons]
    split
    · next hv => simp [hv]
    · next hv =>
      simp only [Option.map_eq_some_iff, ih]
      constructor
      · rintro ⟨_, ⟨hb, rfl⟩, rfl⟩
        exact ⟨⟨hv, hb⟩, rfl⟩
      · rintro ⟨⟨-, hb⟩, rfl⟩
        exact ⟨_, ⟨hb, rfl⟩, rfl⟩

theorem encodeBytes_eq_none {code : Byte → CodeEntry} {b : List Byte} (h : ∃ v ∈ b, (code v).clen = 0) :
    encodeBytes code b = none :=
  Option.eq_none_iff_forall_not_mem.2 fun _ hbits =>
    have ⟨v, hv, hcode⟩ := h
    (encodeBytes_eq_some_iff.1 hbits).1 v hv hcode

section
variable {s : State} {k : Buf}

theorem exec_henc_none (h : encodeBytes s.codeAt (s.block k) = none) :
    exec (.henc k) s = .next (s.complete .noCode) := by
  rw [exec, execHenc, h]
  rfl

theorem exec_henc {bits : List Bool} (h : encodeBytes s.codeAt (s.block k) = some bits) :
    exec (.henc k) s =
      if s.bitCap < bits.length then .next (s.complete .capacity)
      else .next (((s.putBits bits).putBitLen bits.length).complete .ok) := by
  rw [exec, execHenc, h]
  dsimp only
  split <;> rfl

end

/-- Settles O23: the encoder stops at the first byte without a code, and a stream that fits has a length its register
holds. -/
theorem hencConcatenatesCodes : Obligations.HencConcatenatesCodes := by
  intro k s hcap
  refine ⟨by cases k <;> rfl, fun hno => exec_henc_none (encodeBytes_eq_none hno), fun hall bits hbits => ?_⟩
  have henc := exec_henc (encodeBytes_eq_some_iff.2 ⟨hall, hbits⟩)
  refine ⟨fun hlt => henc.trans (if_pos hlt), fun hle => ⟨_, henc.trans (if_neg (Nat.not_lt.2 hle)), rfl, ?_, ?_⟩⟩
  · have hlt : bits.length < 2 ^ 32 := by
      rw [Config.bufCapMax] at hcap
      omega
    exact toNat_ofNat_of_lt hlt
  · exact Store.get_put bits s.mem.bit

end Sys2Proof.Machine

/-! ## HDEC walks the tree -/

namespace Sys2Proof.Machine

/-- The arena index a bit leads to from a node, 0 to the left and 1 to the right (R15, R114). -/
def Node.child (n : Node) (b : Bool) : Nat := if b then n.right.toNat else n.left.toNat

section
variable {s : State}

/-! ### Paths through internal nodes -/

theorem State.follow_cons_iff {i j : Nat} {b : Bool} {p : List Bool} :
    s.follow i (b :: p) = some j ↔
      ∃ n, s.node? i = some n ∧ n.leaf = false ∧ s.follow (n.child b) p = some j := by
  cases hi : s.node? i with
  | none => simp [State.follow, hi]
  | some n => cases hn : n.leaf <;> simp [State.follow, hi, hn, Node.child]

/-- Every node on a path to an internal node is internal. -/
theorem State.inner_of_follow {i j : Nat} {m : Node} {p : List Bool} (h : s.follow i p = some j)
    (hj : s.node? j = some m) (hm : m.leaf = false) : ∃ n, s.node? i = some n ∧ n.leaf = false := by
  cases p with
  | nil =>
    cases h
    exact ⟨m, hj, hm⟩
  | cons b p =>
    obtain ⟨n, hi, hn, -⟩ := State.follow_cons_iff.1 h
    exact ⟨n, hi, hn⟩

/-- A path from the root of a tree stays inside the tree. -/
theorem State.mem_indices_of_follow {fuel i j : Nat} {t : Tree} {p : List Bool} (h : s.readTree fuel i = some t)
    (hp : s.follow i p = some j) : j ∈ t.indices := by
  induction fuel generalizing i t p with
  | zero => cases h
  | succ fuel ih =>
    obtain ⟨n, hi, ⟨hleaf, rfl⟩ | ⟨l, r, hleaf, hl, hr, rfl⟩⟩ := State.readTree_cases h
    · obtain ⟨-, rfl⟩ := (State.follow_leaf hi hleaf).1 hp
      exact List.mem_singleton_self i
    · cases p with
      | nil =>
        cases hp
        exact List.mem_cons_self
      | cons b p =>
        rw [State.follow_inner hi hleaf] at hp
        refine List.mem_cons_of_mem _ (List.mem_append.2 ?_)
        cases b with
        | false => exact .inl (ih hl hp)
        | true => exact .inr (ih hr hp)

/-- A valid arena has no path back to its root: no index stands twice in the tree (R44). -/
theorem State.ArenaOk.follow_root_ne (h : s.ArenaOk) {j : Nat} {p : List Bool}
    (hp : s.follow s.root.toNat p = some j) (hne : s.nodeCount ≠ 0) (hnil : p ≠ []) : j ≠ s.root.toNat := by
  rintro rfl
  obtain ⟨t, htree, hindices, -⟩ := h.tree hne
  have hnodup : t.indices.Nodup := hindices.nodup_iff.2 List.nodup_range
  cases p with
  | nil => exact hnil rfl
  | cons b p =>
    obtain ⟨n, hi, ⟨hleaf, -⟩ | ⟨l, r, hleaf, hl, hr, rfl⟩⟩ := State.readTree_cases htree
    · exact absurd ((State.follow_leaf hi hleaf).1 hp).1 (List.cons_ne_nil b p)
    · rw [State.follow_inner hi hleaf] at hp
      refine (List.nodup_cons.1 hnodup).1 (List.mem_append.2 ?_)
      cases b with
      | false => exact .inl (State.mem_indices_of_follow hl hp)
      | true => exact .inr (State.mem_indices_of_follow hr hp)

/-! ### The automaton (R141) -/

theorem State.walkStep_leaf_root {r : Node} (hr : s.node? s.root.toNat = some r) (hleaf : r.leaf = true) (cur : Nat)
    (b : Bool) : s.walkStep cur b = if b then .missing else .emit r.sym := by
  simp [State.walkStep, hr, hleaf]

/-- In a tree of several nodes a bit leads to the child it names. -/
theorem State.walkStep_inner {r n m : Node} {cur : Nat} {b : Bool} (hr : s.node? s.root.toNat = some r)
    (hroot : r.leaf = false) (hcur : s.node? cur = some n) (hm : s.node? (n.child b) = some m) :
    s.walkStep cur b = if m.leaf then .emit m.sym else .move (n.child b) := by
  rw [Node.child] at hm
  simp [State.walkStep, hr, hroot, hcur, hm, Node.child]

section
variable {cur : Nat} {b : Bool} {bits : List Bool} {out : List Byte}

theorem State.decodeBits_missing (h : s.walkStep cur b = .missing) :
    s.decodeBits (b :: bits) cur out = .error (.code .corruptStream) := by
  rw [State.decodeBits, h]

theorem State.decodeBits_move {i : Nat} (h : s.walkStep cur b = .move i) :
    s.decodeBits (b :: bits) cur out = s.decodeBits bits i out := by
  rw [State.decodeBits, h]

theorem State.decodeBits_emit {v : Byte} (h : s.walkStep cur b = .emit v) :
    s.decodeBits (b :: bits) cur out =
      if out.length = s.bufCap then .error (.code .capacity) else s.decodeBits bits s.root.toNat (out ++ [v]) := by
  rw [State.decodeBits, h]

end

/-- A path to an internal node emits nothing. -/
theorem State.decodeBits_path {r m : Node} {cur j : Nat} {p : List Bool} (hr : s.node? s.root.toNat = some r)
    (hroot : r.leaf = false) (hp : s.follow cur p = some j) (hj : s.node? j = some m) (hm : m.leaf = false)
    (rest : List Bool) (out : List Byte) : s.decodeBits (p ++ rest) cur out = s.decodeBits rest j out := by
  induction p generalizing cur with
  | nil =>
    cases hp
    rfl
  | cons b p ih =>
    obtain ⟨n, hcur, -, hp⟩ := State.follow_cons_iff.1 hp
    obtain ⟨c, hc, hinner⟩ := State.inner_of_follow hp hj hm
    have hstep : s.walkStep cur b = .move (n.child b) := by
      rw [State.walkStep_inner hr hroot hcur hc, hinner]
      rfl
    rw [List.cons_append, State.decodeBits_move hstep, ih hp]

/-- A code emits its byte, unless the buffer is full (R142). -/
theorem State.IsCode.decodeBits {v : Byte} {p : List Bool} (h : s.IsCode v p) (rest : List Bool) (out : List Byte) :
    s.decodeBits (p ++ rest) s.root.toNat out =
      if out.length = s.bufCap then .error (.code .capacity)
      else s.decodeBits rest s.root.toNat (out ++ [v]) := by
  have hnil := h.ne_nil
  obtain ⟨i, n, hi, hn, rfl, ⟨rfl, rfl⟩ | ⟨-, hp⟩⟩ := h
  · exact State.decodeBits_emit (State.walkStep_leaf_root hi hn _ false)
  · obtain ⟨q, b, rfl⟩ := (List.eq_nil_or_concat' p).resolve_left hnil
    obtain ⟨j, hq, hb⟩ := Option.bind_eq_some_iff.1 ((s.follow_append q [b] _).symm.trans hp)
    obtain ⟨m, hj, hm, hchild⟩ := State.follow_cons_iff.1 hb
    obtain ⟨r, hr, hroot⟩ := State.inner_of_follow hq hj hm
    have hstep : s.walkStep j b = .emit n.sym := by
      rw [← Option.some.inj hchild] at hi
      rw [State.walkStep_inner hr hroot hj hi, hn]
      rfl
    rw [List.append_assoc, State.decodeBits_path hr hroot hq hj hm]
    exact State.decodeBits_emit hstep

/-- A concatenation of codes emits its bytes as long as they fit (R142). -/
theorem State.decodeBits_codes {vs : List Byte} {ps : List (List Bool)} (h : List.Forall₂ s.IsCode vs ps)
    (rest : List Bool) {out : List Byte} (hfit : out.length + vs.length ≤ s.bufCap) :
    s.decodeBits (ps.flatten ++ rest) s.root.toNat out = s.decodeBits rest s.root.toNat (out ++ vs) := by
  induction h generalizing out with
  | nil => simp
  | @cons v p vs ps hp _ ih =>
    rw [List.length_cons] at hfit
    have hroom : out.length ≠ s.bufCap := by omega
    rw [List.flatten_cons, List.append_assoc, hp.decodeBits, if_neg hroom, ih (by simp; omega), List.append_assoc]
    rfl

/-! ### The command (R142) -/

variable {d : Buf}

theorem exec_hdec_nil (h : s.bits = []) : exec (.hdec d) s = .next ((s.putBlock d []).complete .ok) := by
  rw [exec, execHdec, if_pos h, settle_ok]

theorem exec_hdec_no_tree (h : s.bits ≠ []) (h0 : s.nodeCount = 0) :
    exec (.hdec d) s = .next (s.complete .corruptStream) := by
  rw [exec, execHdec, if_neg h, if_pos h0, settle_code]

/-- Decoding the stream says what HDEC does, the empty stream included. -/
theorem exec_hdec_ok {out : List Byte} (h0 : s.bits ≠ [] → s.nodeCount ≠ 0)
    (h : s.decodeBits s.bits s.root.toNat [] = .ok out) :
    exec (.hdec d) s = .next ((s.putBlock d out).complete .ok) := by
  by_cases hb : s.bits = []
  · have hout : out = [] := by
      rw [hb, State.decodeBits, if_pos rfl] at h
      cases h
      rfl
    rw [hout, exec_hdec_nil hb]
  · rw [exec, execHdec, if_neg hb, if_neg (h0 hb), h, Except.map, settle_ok]

theorem exec_hdec_error {e : ErrCode} (h0 : s.nodeCount ≠ 0)
    (h : s.decodeBits s.bits s.root.toNat [] = .error (.code e)) : exec (.hdec d) s = .next (s.complete e) := by
  have hb : s.bits ≠ [] := fun hb => by
    rw [hb, State.decodeBits, if_pos rfl] at h
    cases h
  rw [exec, execHdec, if_neg hb, if_neg h0, h, Except.map, settle_code]

theorem State.bits_eq_nil_iff : s.bits = [] ↔ s.bitLen = 0 := by
  rw [← List.length_eq_zero_iff, s.length_bits, BitVec.toNat_eq]
  rfl

/-- A tree with a code has a node. -/
theorem State.IsCode.nodeCount_ne_zero {v : Byte} {p : List Bool} (h : s.IsCode v p) : s.nodeCount ≠ 0 := by
  obtain ⟨i, n, hi, -⟩ := h
  have hlt := State.node?_lt hi
  intro h0
  rw [h0] at hlt
  exact Nat.not_lt_zero i hlt

/-- HDEC of a concatenation of codes writes their bytes. -/
theorem exec_hdec_codes {out : List Byte} {ps : List (List Bool)} (h : List.Forall₂ s.IsCode out ps)
    (hbits : s.bits = ps.flatten) (hfit : out.length ≤ s.bufCap) :
    exec (.hdec d) s = .next ((s.putBlock d out).complete .ok) := by
  refine exec_hdec_ok (fun hne => ?_) ?_
  · cases h with
    | nil => exact absurd hbits hne
    | cons hp _ => exact hp.nodeCount_ne_zero
  · have hdec := State.decodeBits_codes h [] (out := []) (by simpa using hfit)
    rw [hbits, ← List.append_nil ps.flatten, hdec, State.decodeBits, if_pos rfl, List.nil_append]

end

/-- Settles O25: each code leads from the root to its leaf, where its byte is emitted and the walk starts again. -/
theorem hdecDecodesCodeStreams : Obligations.HdecDecodesCodeStreams := by
  intro d s out ps _ hcap hcodes hbits hfit
  have hlen : out.length < 2 ^ 32 := (hfit.trans hcap).trans_lt (by decide)
  exact ⟨_, exec_hdec_codes hcodes hbits hfit, rfl, { s.writesBlock_putBlock d hlen with }⟩

/-- Settles O26: the codes before the error emit their bytes, and what follows them decides the code. -/
theorem hdecReportsTheFirstError : Obligations.HdecReportsTheFirstError := by
  intro d s out ps rest hs hne hcodes hbits
  have hstart : out.length ≤ s.bufCap →
      s.decodeBits s.bits s.root.toNat [] = s.decodeBits rest s.root.toNat out := fun hfit => by
    rw [hbits, State.decodeBits_codes hcodes rest (by simpa using hfit), List.nil_append]
  refine ⟨fun hfull ⟨v, p, q, hp, hrest⟩ => ?full, fun hfit ⟨n, q, hroot, hleaf, hrest⟩ => ?missing,
    fun hfit hnil ⟨i, n, hi, hn, hinner⟩ => ?inside⟩ <;> refine exec_hdec_error hne ?_
  case full => rw [hstart hfull.le, hrest, hp.decodeBits, if_pos hfull]
  case missing =>
    rw [hstart hfit, hrest, State.decodeBits_missing (State.walkStep_leaf_root hroot hleaf _ true)]
  case inside =>
    obtain ⟨r, hr, hroot⟩ := State.inner_of_follow hi hn hinner
    rw [hstart hfit, ← List.append_nil rest, State.decodeBits_path hr hroot hi hn hinner, State.decodeBits,
      if_neg (hs.follow_root_ne hi hne hnil)]

/-- Settles O24: both checks come before the loop. -/
theorem hdecEmptyStreamOrNoTree : Obligations.HdecEmptyStreamOrNoTree := by
  intro d s
  refine ⟨by cases d <;> rfl, fun h0 => ?_, fun hne => exec_hdec_no_tree (mt State.bits_eq_nil_iff.1 hne)⟩
  have hwrites := s.writesBlock_putBlock d (xs := []) (by decide)
  exact ⟨_, exec_hdec_nil (State.bits_eq_nil_iff.2 h0), rfl, { hwrites with }⟩

end Sys2Proof.Machine

/-! ## HCODE, HENC and HDEC together -/

namespace Sys2Proof.Machine

section
variable {s t u : State}

theorem State.SameArena.trans (h : s.SameArena t) (h' : t.SameArena u) : s.SameArena u :=
  ⟨h'.nodeCount.trans h.nodeCount, h'.root.trans h.root, h'.node.trans h.node⟩

theorem State.SameArena.follow_eq (h : s.SameArena t) (i : Nat) (p : List Bool) : t.follow i p = s.follow i p := by
  induction p generalizing i with
  | nil => rfl
  | cons b p ih => simp only [State.follow, h.node?_eq, ih]

theorem State.SameArena.isCode_iff (h : s.SameArena t) (v : Byte) (p : List Bool) : t.IsCode v p ↔ s.IsCode v p := by
  simp only [State.IsCode, h.node?_eq, h.root, h.follow_eq]

/-- HCODE that completes writes the code table and nothing else (R114). -/
theorem eq_putCode_of_hcode (h : exec .hcode s = .next t) : ∃ c, t = (s.putCode c).complete .ok := by
  by_cases h0 : s.nodeCount = 0
  · rw [exec_hcode_empty h0] at h
    cases h
    exact ⟨_, rfl⟩
  cases htree : s.tree? with
  | none =>
    rw [exec_hcode_malformed htree h0] at h
    cases h
  | some tr =>
    rw [exec_hcode_tree htree h0] at h
    cases h
    exact ⟨_, rfl⟩

/-- HCODE gives every leaf byte of a tree of distinct symbols a code. -/
theorem clen_ne_zero_of_hcode {tr : Tree} {v : Byte} (ht : exec .hcode s = .next t) (htree : s.tree? = some tr)
    (hne : s.nodeCount ≠ 0) (hsyms : tr.syms.Nodup) (hv : v ∈ tr.syms) : (t.codeAt v).clen ≠ 0 := by
  rw [exec_hcode_tree htree hne] at ht
  cases ht
  rw [← tr.map_fst_codes] at hv hsyms
  obtain ⟨⟨v, p⟩, hp, rfl⟩ := List.mem_map.1 hv
  have hcode : codeOf tr.codes v.toNat = p := codeOf_eq_of_mem hsyms (by rwa [BitVec.ofNat_toNat, BitVec.setWidth_eq])
  have hlen := CodeEntry.toNat_clen_ofBits (State.length_codeOf_codes_lt htree v.toNat)
  have hentry : ((s.putCode (codeOf tr.codes)).complete .ok).codeAt v = CodeEntry.ofBits (codeOf tr.codes v.toNat) :=
    s.codeAt_putCode _ v
  rw [hentry]
  intro h0
  rw [h0, hcode] at hlen
  exact ((State.mem_codes_iff htree v p).1 hp).ne_nil (List.length_eq_zero_iff.1 hlen.symm)

/-- HTREE that succeeds leaves a tree over the bytes that occur, and writes nothing but the arena (R112). -/
theorem exists_tree_of_htree (ht : exec .htree s = .next t) (hok : t.err = .ok) :
    ∃ (ns : List ProtoNode) (root : Nat) (tr : Tree), t = (s.putArena ns root).complete .ok ∧ t.tree? = some tr ∧
      t.nodeCount ≠ 0 ∧ tr.syms.Nodup ∧ tr.syms.Perm (leafBytes s.freqAt) := by
  rcases exec_cases ht with ⟨e, he, rfl⟩ | ⟨_, rfl, hne, rfl⟩
  · exact absurd hok he
  · obtain ⟨tr, hroot, hfills, hsyms⟩ := buildTree_fills s.freqAt hne
    have hcount := s.nodeCount_putArena_ne_zero hfills ((buildTree s.freqAt).length - 1)
    exact ⟨_, _, tr, rfl, (State.tree?_complete ..).trans (s.tree?_putArena hfills hroot), hcount, hfills.syms, hsyms⟩

/-- HENC that succeeds found a code for every byte, leaves their concatenation as the BitStream, and writes nothing but
the bit memory and its length (R140). -/
theorem bits_of_henc {k : Buf} (hs : s.LengthsLegal) (ht : exec (.henc k) s = .next t) (hok : t.err = .ok) :
    (∀ v ∈ s.block k, (s.codeAt v).clen ≠ 0) ∧ t.bits = (s.block k).flatMap (fun v => (s.codeAt v).bits) ∧
      s.SameArena t ∧ t.bufCap = s.bufCap := by
  rcases exec_cases ht with ⟨e, he, rfl⟩ | ⟨_, rfl, bits, hbits, hfit, rfl⟩
  · exact absurd hok he
  · obtain ⟨hall, rfl⟩ := encodeBytes_eq_some_iff.1 hbits
    refine ⟨hall, ?_, ⟨rfl, rfl, rfl⟩, rfl⟩
    exact State.bits_eq_of_stored (toNat_ofNat_of_lt (hfit.trans_lt hs.bitCap_lt)) fun i hi =>
      (Store.get_put _ s.mem.bit i).trans (if_pos hi)

/-- A written block reads the same in every state that stores the same bytes, whatever the draws (R244). -/
theorem State.BlockWritten.block_eq {k : Buf} (h : s.BlockWritten k) (hlen : t.len.get k = s.len.get k)
    (hbuf : t.mem.buf.get k = s.mem.buf.get k) : t.block k = s.block k := by
  refine State.block_eq_of_stored (by rw [hlen, s.length_block]) fun i hi => ?_
  rw [s.length_block] at hi
  obtain ⟨x, hx⟩ := Option.isSome_iff_exists.1 (h i hi)
  rw [hbuf, s.getElem?_block, if_pos hi, State.byteAt, Store.readBelow_valid _ hi hx, hx]

/-- The frequency table HFREQ writes has an entry for every byte of the block (R110). -/
theorem freqAt_putFreq_pos {k : Buf} {v : Byte} (hv : v ∈ s.block k) :
    0 < (s.putFreq (byteCount (s.block k))).freqAt v.toNat := by
  have hcount : (s.block k).count v < 2 ^ 32 := List.count_le_length.trans_lt (s.block_length_lt k)
  rw [State.freqAt_fin _ ⟨v.toNat, v.isLt⟩, State.putFreq_freq, Fin.getElem_fin, getElem_tabulate, byteCount,
    BitVec.ofNat_toNat, BitVec.setWidth_eq, toNat_ofNat_of_lt hcount]
  exact List.count_pos_iff.2 hv

theorem mem_leafBytes {freq : Nat → Nat} {v : Byte} (h : 0 < freq v.toNat) : v ∈ leafBytes freq :=
  List.mem_map.2 ⟨v.toNat, List.mem_filter.2 ⟨List.mem_range.2 v.isLt, decide_eq_true h⟩, by simp⟩

end

/-- Settles O27: HENC writes the codes of the arena's tree, and HDEC decodes every concatenation of them. -/
theorem huffmanRoundTrip : Obligations.HuffmanRoundTrip := by
  intro k d s t u hs _ ht hu hok
  obtain ⟨htable, hlegal⟩ : s.SameArena t ∧ t.LengthsLegal := by
    obtain ⟨c, rfl⟩ := eq_putCode_of_hcode ht
    exact ⟨⟨rfl, rfl, rfl⟩, { hs with }⟩
  obtain ⟨hall, hbits, harena, hcap⟩ := bits_of_henc hlegal hu hok
  have hcode : ∀ v ∈ t.block k, u.IsCode v (t.codeAt v).bits := fun v hv =>
    ((htable.trans harena).isCode_iff v _).2 (isCode_of_hcode ht (hall v hv))
  have hcodes : List.Forall₂ u.IsCode (t.block k) ((t.block k).map fun v => (t.codeAt v).bits) :=
    List.forall₂_map_right_iff.2 (List.forall₂_same.2 hcode)
  refine ⟨_, exec_hdec_codes hcodes hbits (hcap ▸ hlegal.length_block_le k), rfl, ?_⟩
  exact u.block_complete_putBlock d _ .ok (t.block_length_lt k)

/-- Settles O28: every byte of the block is counted, so it is a leaf of the tree and has a code. -/
theorem ownCodesCoverTheBlock : Obligations.OwnCodesCoverTheBlock := by
  intro k s a b c _ hwritten ha hb hok hc
  cases ha
  obtain ⟨ns, root, tr, rfl, htree, hne, hnodup, hsyms⟩ := exists_tree_of_htree hb hok
  have hcode : ∀ v ∈ s.block k, (c.codeAt v).clen ≠ 0 := fun v hv =>
    clen_ne_zero_of_hcode hc htree hne hnodup (hsyms.mem_iff.2 (mem_leafBytes (freqAt_putFreq_pos hv)))
  have hblock : c.block k = s.block k := by
    obtain ⟨_, rfl⟩ := eq_putCode_of_hcode hc
    exact hwritten.block_eq (by simp) (by simp)
  rw [exec_henc (encodeBytes_eq_some_iff.2 ⟨hblock ▸ hcode, rfl⟩)]
  split <;> exact ⟨_, rfl, nofun⟩

end Sys2Proof.Machine

/-! ## BWTF sorts the rotations, and BWTI follows the links back -/

namespace Sys2Proof.Machine

/-! ### Sorting by a key (R9, R160, R162)

Both orders are that of a pair in the lexicographic order: the rotation or byte as a number, then the index. -/

theorem pairwise_insertionSort_of_key {β : Type} [LinearOrder β] {r : Nat → Nat → Prop} [DecidableRel r] {key : Nat → β}
    (h : ∀ i j, r i j ↔ key i ≤ key j) (xs : List Nat) : (xs.insertionSort r).Pairwise r :=
  have : Std.Total r := ⟨fun i j => (le_total (key i) (key j)).imp (h i j).2 (h j i).2⟩
  have : IsTrans Nat r := ⟨fun i j k hij hjk => (h i k).2 (((h i j).1 hij).trans ((h j k).1 hjk))⟩
  List.pairwise_insertionSort r xs

/-- A byte string as the numbers R9 compares. -/
abbrev byteKey (x : List Byte) : List Nat := x.map BitVec.toNat

theorem byteKey_injective : Function.Injective byteKey :=
  List.map_injective_iff.2 fun _ _ => BitVec.eq_of_toNat_eq

theorem bytesLt_iff (x y : List Byte) : bytesLt x y = true ↔ byteKey x < byteKey y := by
  induction x generalizing y with
  | nil => cases y <;> simp [bytesLt, byteKey]
  | cons a x ih =>
    cases y with
    | nil => simp [bytesLt, byteKey]
    | cons b y => simp [bytesLt, byteKey, ih, List.cons_lt_cons_iff, BitVec.toNat_inj]

theorem rotationLe_iff (b : List Byte) (i j : Nat) :
    rotationLe b i j ↔ toLex (byteKey (rotation b i), i) ≤ toLex (byteKey (rotation b j), j) := by
  rw [Prod.Lex.toLex_le_toLex, byteKey_injective.eq_iff, ← bytesLt_iff]

theorem columnLe_iff (l : List Byte) (i j : Nat) :
    columnLe l i j ↔ toLex ((l.getD i 0).toNat, i) ≤ toLex ((l.getD j 0).toNat, j) := by
  rw [Prod.Lex.toLex_le_toLex, BitVec.toNat_inj]

theorem rotationOrder_perm (b : List Byte) : (rotationOrder b).Perm (List.range b.length) :=
  List.perm_insertionSort ..

theorem columnOrder_perm (l : List Byte) : (columnOrder l).Perm (List.range l.length) :=
  List.perm_insertionSort ..

theorem pairwise_rotationOrder (b : List Byte) : (rotationOrder b).Pairwise (rotationLe b) :=
  pairwise_insertionSort_of_key (rotationLe_iff b) _

theorem pairwise_columnOrder (l : List Byte) : (columnOrder l).Pairwise (columnLe l) :=
  pairwise_insertionSort_of_key (columnLe_iff l) _

/-- No index is sorted twice, so ties are broken strictly. -/
theorem pairwise_lt_of_perm_range {p : List Nat} {n : Nat} {lt : Nat → Nat → Prop} {same : Nat → Nat → Prop}
    (hp : p.Perm (List.range n)) (h : p.Pairwise fun i j => lt i j ∨ (same i j ∧ i ≤ j)) :
    p.Pairwise fun i j => lt i j ∨ (same i j ∧ i < j) :=
  (h.and (hp.nodup_iff.2 List.nodup_range)).imp fun ⟨hle, hne⟩ =>
    hle.imp_right fun ⟨hsame, hij⟩ => ⟨hsame, lt_of_le_of_ne hij hne⟩

theorem getElem?_eq_some_getD {α : Type} {l : List α} {i : Nat} (d : α) (hi : i < l.length) : l[i]? = some (l.getD i d) := by
  rw [List.getD_eq_getElem _ _ hi, List.getElem?_eq_getElem hi]

theorem length_of_perm_range {p : List Nat} {n : Nat} (hp : p.Perm (List.range n)) : p.length = n :=
  hp.length_eq.trans List.length_range

theorem getD_lt_of_perm_range {p : List Nat} {n r : Nat} (hp : p.Perm (List.range n)) (hr : r < n) : p.getD r 0 < n := by
  have hlen : r < p.length := by rwa [length_of_perm_range hp]
  rw [List.getD_eq_getElem _ _ hlen]
  exact List.mem_range.1 (hp.mem_iff.1 (List.getElem_mem hlen))

theorem map_getD_perm {α : Type} {p : List Nat} {n : Nat} (hp : p.Perm (List.range n)) (f : Nat → α) :
    ((List.range n).map fun r => f (p.getD r 0)).Perm ((List.range n).map f) := by
  have hmap : (List.range n).map (fun r => f (p.getD r 0)) = p.map f :=
    List.ext_getElem (by simp [length_of_perm_range hp]) fun r _ hr => by
      rw [List.length_map] at hr
      simp [hr]
  exact hmap ▸ hp.map f

theorem rel_getD_of_pairwise {R : Nat → Nat → Prop} {p : List Nat} (h : p.Pairwise R) {r q : Nat} (hrq : r < q)
    (hq : q < p.length) : R (p.getD r 0) (p.getD q 0) := by
  rw [List.getD_eq_getElem _ _ hq, List.getD_eq_getElem _ _ (hrq.trans hq)]
  exact List.pairwise_iff_getElem.1 h r q (hrq.trans hq) hq hrq

theorem pairwise_map_range {f : Nat → List Byte} {n : Nat} (h : ∀ {r q}, r < q → q < n → byteKey (f r) ≤ byteKey (f q)) :
    ((List.range n).map f).Pairwise fun v w => byteKey v ≤ byteKey w :=
  List.pairwise_map.2 (List.pairwise_lt_range.imp_of_mem fun _ hq hrq => h hrq (List.mem_range.1 hq))

/-! ### The link walk (R162) -/

/-- One step of R162: from row `r` to row `P[r]`. -/
def linkStep (p : List Nat) (r : Nat) : Nat := p.getD r 0

theorem getElem?_linkWalk (l : List Byte) (p : List Nat) {n j : Nat} (r : Nat) (hj : j < n) :
    (linkWalk l p n r)[j]? = some (l.getD ((linkStep p)^[j + 1] r) 0) := by
  induction n generalizing r j with
  | zero => exact absurd hj (Nat.not_lt_zero j)
  | succ n ih =>
    cases j with
    | zero => rfl
    | succ j => exact ih (p.getD r 0) (Nat.lt_of_succ_lt_succ hj)

theorem iterate_linkStep_lt {p : List Nat} {n r : Nat} (hp : p.Perm (List.range n)) (hr : r < n) (j : Nat) :
    (linkStep p)^[j] r < n := by
  induction j with
  | zero => exact hr
  | succ j ih =>
    rw [Function.iterate_succ_apply']
    exact getD_lt_of_perm_range hp ih

/-! ### The sorted rotations (R160) -/

theorem rotation_eq_rotate {b : List Byte} {i : Nat} (h : i ≤ b.length) : rotation b i = b.rotate i :=
  (List.rotate_eq_drop_append_take h).symm

/-- The last byte of a rotation stands before its start. -/
theorem getLast?_rotate {b : List Byte} (hb : b ≠ []) (i : Nat) :
    (b.rotate i).getLast? = b[(i + b.length - 1) % b.length]? := by
  have hpos := List.length_pos_iff.2 hb
  rw [List.getLast?_eq_getElem?, List.length_rotate, List.getElem?_rotate (by omega)]
  congr 2
  omega

section
variable {b : List Byte} {r q : Nat}

theorem getElem?_lastColumn {i : Nat} (h : (rotationOrder b)[r]? = some i) :
    (lastColumn b)[r]? = b[(i + b.length - 1) % b.length]? := by
  have hi : i < b.length := List.mem_range.1 ((rotationOrder_perm b).mem_iff.1 (List.mem_of_getElem? h))
  rw [lastColumn, List.getElem?_map, h, getElem?_eq_some_getD 0 (Nat.mod_lt _ (Nat.zero_lt_of_lt hi))]
  rfl

theorem getElem?_originalRank (hb : b ≠ []) : (rotationOrder b)[originalRank b]? = some 0 :=
  List.getElem?_idxOf ((rotationOrder_perm b).mem_iff.2 (List.mem_range.2 (List.length_pos_iff.2 hb)))

theorem originalRank_lt (hb : b ≠ []) : originalRank b < b.length := by
  obtain ⟨hlt, -⟩ := List.getElem?_eq_some_iff.1 (getElem?_originalRank hb)
  rwa [length_of_perm_range (rotationOrder_perm b)] at hlt

/-- The rotation of rank `r`. -/
def sortedRow (b : List Byte) (r : Nat) : List Byte := b.rotate ((rotationOrder b).getD r 0)

@[simp] theorem length_sortedRow (b : List Byte) (r : Nat) : (sortedRow b r).length = b.length := List.length_rotate ..

theorem sortedRow_originalRank (b : List Byte) : sortedRow b (originalRank b) = b := by
  by_cases hb : b = []
  · rw [hb, sortedRow, List.rotate_nil]
  · rw [sortedRow, List.getD_eq_getElem?_getD, getElem?_originalRank hb, Option.getD_some, List.rotate_zero]

theorem sortedRow_le (hrq : r ≤ q) (hq : q < b.length) : byteKey (sortedRow b r) ≤ byteKey (sortedRow b q) := by
  rcases hrq.eq_or_lt with rfl | hlt
  · exact le_rfl
  have hperm := rotationOrder_perm b
  have hle := rel_getD_of_pairwise (pairwise_rotationOrder b) hlt (length_of_perm_range hperm ▸ hq)
  rw [rotationLe, rotation_eq_rotate (getD_lt_of_perm_range hperm (hlt.trans hq)).le,
    rotation_eq_rotate (getD_lt_of_perm_range hperm hq).le] at hle
  rcases hle with hbytes | ⟨hsame, -⟩
  · exact ((bytesLt_iff _ _).1 hbytes).le
  · exact (congrArg byteKey hsame).le

theorem getLast?_sortedRow (hr : r < b.length) : (sortedRow b r).getLast? = some ((lastColumn b).getD r 0) := by
  have hr' : r < (rotationOrder b).length := by rwa [length_of_perm_range (rotationOrder_perm b)]
  have hcol : r < (lastColumn b).length := by rwa [length_lastColumn]
  rw [sortedRow, getLast?_rotate (List.length_pos_iff.1 (Nat.zero_lt_of_lt hr)),
    ← getElem?_lastColumn (getElem?_eq_some_getD 0 hr'), getElem?_eq_some_getD 0 hcol]

end

/-! ### The links lead from each rotation to the next (R163)

Turn every sorted rotation one step back, so that its last byte comes first, and sort stably by that byte: the result is the
list of sorted rotations again. So row `P[r]`, turned back, is row `r`. Equal rotations may change places among each other,
and that is why the argument speaks of rotations and not of their start indices. -/

theorem rotate_last_append {w : List Byte} {x : Byte} (h : w.getLast? = some x) :
    w.rotate (w.length - 1) ++ [x] = x :: w := by
  obtain ⟨v, rfl⟩ := List.getLast?_eq_some_iff.1 h
  have hlen : (v ++ [x]).length - 1 = v.length := by simp
  rw [hlen, List.rotate_append_length_eq]
  rfl

theorem cons_le_cons_iff_lex {a b : Nat} {v w : List Nat} : a :: v ≤ b :: w ↔ a < b ∨ (a = b ∧ v ≤ w) := by
  rw [le_iff_lt_or_eq, List.cons_lt_cons_iff, List.cons.injEq, le_iff_lt_or_eq (a := v)]
  tauto

theorem le_of_append_le_append {v w s t : List Nat} (hlen : v.length = w.length) (h : v ++ s ≤ w ++ t) : v ≤ w := by
  induction v generalizing w with
  | nil => exact (List.length_eq_zero_iff.1 hlen.symm).ge
  | cons a v ih =>
    cases w with
    | nil => cases hlen
    | cons b w =>
      exact cons_le_cons_iff_lex.2 ((cons_le_cons_iff_lex.1 h).imp_right fun ⟨hab, hle⟩ =>
        ⟨hab, ih (Nat.succ.inj hlen) hle⟩)

/-- Strings in the order of their last byte, then of themselves, are in order when that byte is moved to the front. -/
theorem byteKey_rotate_last_le {v w : List Byte} {x y : Byte} (hv : v.getLast? = some x) (hw : w.getLast? = some y)
    (hlen : v.length = w.length) (h : x.toNat < y.toNat ∨ (x = y ∧ byteKey v ≤ byteKey w)) :
    byteKey (v.rotate (v.length - 1)) ≤ byteKey (w.rotate (w.length - 1)) := by
  refine le_of_append_le_append (s := byteKey [x]) (t := byteKey [y]) (by simp [hlen]) ?_
  rw [← List.map_append, ← List.map_append, rotate_last_append hv, rotate_last_append hw]
  exact cons_le_cons_iff_lex.2 (h.imp_right fun ⟨hxy, hle⟩ => ⟨congrArg BitVec.toNat hxy, hle⟩)

/-- Turning every rotation of a block one step back only rearranges them. -/
theorem map_rotate_last_perm (b : List Byte) :
    ((List.range b.length).map fun i => (b.rotate i).rotate (b.length - 1)).Perm ((List.range b.length).map b.rotate) := by
  cases hn : b.length with
  | zero => exact .refl _
  | succ m =>
    have hback : ∀ i, (b.rotate (i + 1)).rotate m = b.rotate i := fun i => by
      rw [List.rotate_rotate, Nat.add_assoc, Nat.add_comm 1 m, ← hn, Nat.add_comm, ← List.rotate_rotate, List.rotate_length]
    rw [Nat.add_sub_cancel]
    conv_lhs => rw [List.range_succ_eq_map]
    rw [List.range_succ, List.map_cons, List.map_map, List.map_append, List.rotate_zero]
    exact (List.map_congr_left fun i _ => hback i) ▸ (List.perm_append_singleton _ _).symm

/-- The row the link of row `r` leads to, turned one step back. -/
def linkedRow (b : List Byte) (r : Nat) : List Byte :=
  (sortedRow b (linkStep (columnOrder (lastColumn b)) r)).rotate (b.length - 1)

theorem columnOrder_lastColumn_perm (b : List Byte) : (columnOrder (lastColumn b)).Perm (List.range b.length) := by
  have hperm := columnOrder_perm (lastColumn b)
  rwa [length_lastColumn] at hperm

theorem map_linkedRow_perm (b : List Byte) :
    ((List.range b.length).map (linkedRow b)).Perm ((List.range b.length).map (sortedRow b)) := by
  have hlinks := map_getD_perm (columnOrder_lastColumn_perm b) fun j => (sortedRow b j).rotate (b.length - 1)
  have hrows := map_getD_perm (α := List Byte) (rotationOrder_perm b)
  exact hlinks.trans ((hrows fun i => (b.rotate i).rotate (b.length - 1)).trans
    ((map_rotate_last_perm b).trans (hrows b.rotate).symm))

theorem linkedRow_le {b : List Byte} {r q : Nat} (hrq : r < q) (hq : q < b.length) :
    byteKey (linkedRow b r) ≤ byteKey (linkedRow b q) := by
  have hperm := columnOrder_lastColumn_perm b
  have hr' := getD_lt_of_perm_range hperm (hrq.trans hq)
  have hq' := getD_lt_of_perm_range hperm hq
  have hle := rel_getD_of_pairwise (pairwise_columnOrder (lastColumn b)) hrq (length_of_perm_range hperm ▸ hq)
  simpa [linkedRow, linkStep] using byteKey_rotate_last_le (getLast?_sortedRow hr') (getLast?_sortedRow hq') (by simp)
    (hle.imp_right fun ⟨hsame, hpos⟩ => ⟨hsame, sortedRow_le hpos hq'⟩)

/-- Both lists hold the rotations of the block in order, so they are the same. -/
theorem linkedRow_eq {b : List Byte} {r : Nat} (hr : r < b.length) : linkedRow b r = sortedRow b r :=
  have hmap := (map_linkedRow_perm b).eq_of_pairwise (fun _ _ _ _ hvw hwv => byteKey_injective (le_antisymm hvw hwv))
    (pairwise_map_range linkedRow_le) (pairwise_map_range fun hrq => sortedRow_le hrq.le)
  List.map_inj_left.1 hmap r (List.mem_range.2 hr)

theorem sortedRow_linkStep {b : List Byte} {r : Nat} (hr : r < b.length) :
    sortedRow b (linkStep (columnOrder (lastColumn b)) r) = (sortedRow b r).rotate 1 := by
  rw [← linkedRow_eq hr, linkedRow, List.rotate_rotate, Nat.sub_add_cancel (Nat.zero_lt_of_lt hr)]
  conv_rhs => rw [← length_sortedRow b, List.rotate_length]

theorem sortedRow_iterate {b : List Byte} (hb : b ≠ []) (k : Nat) :
    sortedRow b ((linkStep (columnOrder (lastColumn b)))^[k] (originalRank b)) = b.rotate k := by
  induction k with
  | zero => rw [Function.iterate_zero_apply, sortedRow_originalRank, List.rotate_zero]
  | succ k ih =>
    have hlt := iterate_linkStep_lt (columnOrder_lastColumn_perm b) (originalRank_lt hb) k
    rw [Function.iterate_succ_apply', sortedRow_linkStep hlt, ih, List.rotate_rotate]

theorem inverseBwt_lastColumn (b : List Byte) : inverseBwt (lastColumn b) (originalRank b) = b := by
  refine List.ext_getElem? fun k => ?_
  by_cases hk : k < b.length
  · have hb := List.length_pos_iff.1 (Nat.zero_lt_of_lt hk)
    have hlt := iterate_linkStep_lt (columnOrder_lastColumn_perm b) (originalRank_lt hb) (k + 1)
    rw [inverseBwt, getElem?_linkWalk _ _ _ (by rwa [length_lastColumn]), ← getLast?_sortedRow hlt, sortedRow_iterate hb,
      getLast?_rotate hb, Nat.add_right_comm, Nat.add_sub_cancel, Nat.add_mod_right, Nat.mod_eq_of_lt hk]
  · rw [List.getElem?_eq_none (by simpa [inverseBwt] using hk), List.getElem?_eq_none (Nat.not_lt.1 hk)]

/-! ### The commands -/

section
variable {s : State} {k d : Buf}

theorem exec_bwtf : exec (.bwtf k d) s =
    .next (((s.putOrigIndex (originalRank (s.block k))).putBlock d (lastColumn (s.block k))).complete .ok) := rfl

theorem exec_bwti (h : s.block k = [] ∨ s.origIndex.toNat < (s.block k).length) :
    exec (.bwti k d) s = .next ((s.putBlock d (inverseBwt (s.block k) s.origIndex.toNat)).complete .ok) := by
  rw [exec, execBwti]
  by_cases hb : s.block k = []
  · rw [if_pos hb, hb]
    rfl
  · rw [if_neg hb, if_neg (Nat.not_le.2 (h.resolve_left hb)), commit_eq]

theorem exec_bwti_format (hb : s.block k ≠ []) (h : (s.block k).length ≤ s.origIndex.toNat) :
    exec (.bwti k d) s = .next (s.complete .format) := by
  rw [exec, execBwti, if_neg hb, if_pos h, failWith_eq]

theorem toNat_ofNat_originalRank :
    (BitVec.ofNat 32 (originalRank (s.block k))).toNat = originalRank (s.block k) := by
  by_cases hb : s.block k = []
  · rw [hb]
    rfl
  · exact toNat_ofNat_of_lt ((originalRank_lt hb).trans (s.block_length_lt k))

end

/-- Settles O31: the links lead from each rotation to the next, starting at the block itself. -/
theorem bwtRoundTrip : Obligations.BwtRoundTrip := by
  intro k d d' s t ht
  rw [exec_bwtf] at ht
  cases ht
  have hlen : (lastColumn (s.block k)).length < 2 ^ 32 := (length_lastColumn _).trans_lt (s.block_length_lt k)
  have hblock := State.block_complete_putBlock (s.putOrigIndex (originalRank (s.block k))) d _ .ok hlen
  have hout : inverseBwt (lastColumn (s.block k)) (BitVec.ofNat 32 (originalRank (s.block k))).toNat = s.block k := by
    rw [toNat_ofNat_originalRank, inverseBwt_lastColumn]
  refine ⟨_, exec_bwti ?_, rfl, ?_⟩ <;>
    rw [hblock, State.complete_origIndex, State.putBlock_origIndex, State.putOrigIndex_origIndex]
  · rw [toNat_ofNat_originalRank, ← List.length_eq_zero_iff, length_lastColumn, List.length_eq_zero_iff]
    exact or_iff_not_imp_left.2 originalRank_lt
  · rw [hout]
    exact State.block_complete_putBlock _ _ _ _ (s.block_length_lt k)

/-- Settles O29: the rotations are sorted by a total order of their start indices. -/
theorem bwtfSortsRotations : Obligations.BwtfSortsRotations := by
  rintro k d s b n rfl rfl
  have hlen : (lastColumn (s.block k)).length < 2 ^ 32 := (length_lastColumn _).trans_lt (s.block_length_lt k)
  refine ⟨by cases k <;> cases d <;> rfl, _, rotationOrder (s.block k), lastColumn (s.block k), exec_bwtf, rfl,
    { (s.putOrigIndex _).writesBlock_putBlock d hlen with }, length_lastColumn _, rotationOrder_perm _, ?sorted, ?column,
    ?empty, ?rank⟩
  case sorted =>
    exact (pairwise_lt_of_perm_range (rotationOrder_perm _) (pairwise_rotationOrder _)).imp fun h =>
      h.imp_left (bytesLt_iff _ _).1
  case column =>
    exact fun _ _ => getElem?_lastColumn
  case empty =>
    intro hn
    rw [State.complete_origIndex, State.putBlock_origIndex, State.putOrigIndex_origIndex, List.length_eq_zero_iff.1 hn]
    rfl
  case rank =>
    intro hn
    rw [State.complete_origIndex, State.putBlock_origIndex, State.putOrigIndex_origIndex, toNat_ofNat_originalRank]
    exact getElem?_originalRank (mt List.length_eq_zero_iff.2 hn)

/-- Settles O30: BWTI's output is the last column read along the rows of its link walk. -/
theorem bwtiFollowsLinks : Obligations.BwtiFollowsLinks := by
  rintro k d s l n rfl rfl
  refine ⟨by cases k <;> cases d <;> rfl, fun hn => exec_bwti_format (mt List.length_eq_zero_iff.2 hn), fun hidx => ?_⟩
  have hperm := columnOrder_perm (s.block k)
  have hrow : ∀ {j}, j < (s.block k).length → ∀ i,
      (linkStep (columnOrder (s.block k)))^[i] s.origIndex.toNat < (s.block k).length := fun hj =>
    iterate_linkStep_lt hperm (hidx.resolve_left (Nat.ne_zero_of_lt hj))
  have hlen : (inverseBwt (s.block k) s.origIndex.toNat).length < 2 ^ 32 :=
    (length_linkWalk ..).trans_lt (s.block_length_lt k)
  refine ⟨_, columnOrder (s.block k),
    List.iterate (linkStep (columnOrder (s.block k))) s.origIndex.toNat ((s.block k).length + 1),
    inverseBwt (s.block k) s.origIndex.toNat, exec_bwti (hidx.imp_left List.length_eq_zero_iff.1), rfl,
    { s.writesBlock_putBlock d hlen with }, length_linkWalk .., hperm, ?sorted, List.length_iterate .., rfl,
    fun j r hj hr => ?link, fun j r hj hr => ?column⟩
  case sorted =>
    refine (pairwise_lt_of_perm_range hperm (pairwise_columnOrder _)).imp_of_mem fun hi hj hlt => ?_
    exact ⟨_, _, getElem?_eq_some_getD 0 (List.mem_range.1 (hperm.mem_iff.1 hi)),
      getElem?_eq_some_getD 0 (List.mem_range.1 (hperm.mem_iff.1 hj)), hlt⟩
  case link =>
    rw [List.getElem?_iterate _ _ _ _ (hj.trans (Nat.lt_succ_self _)), Option.some_inj] at hr
    have hr' : r < (columnOrder (s.block k)).length := by
      rw [length_of_perm_range hperm, ← hr]
      exact hrow hj j
    rw [List.getElem?_iterate _ _ _ _ (Nat.succ_lt_succ hj), Function.iterate_succ_apply', hr, linkStep,
      getElem?_eq_some_getD 0 hr']
  case column =>
    rw [List.getElem?_iterate _ _ _ _ (Nat.succ_lt_succ hj), Option.some_inj] at hr
    rw [inverseBwt, getElem?_linkWalk _ _ _ hj, hr, getElem?_eq_some_getD 0 (hr ▸ hrow hj (j + 1))]

end Sys2Proof.Machine

/-! ## MTFE writes positions in the working lists, and MTFD looks them up -/

namespace Sys2Proof.Machine

/-! ### The working lists (R171) -/

/-- The working list before each position is used, and the one after the last: both transforms go through these. -/
def workingLists (lst x : List Byte) : List (List Byte) := x.scanl (fun l p => moveToFront l p.toNat) lst

theorem getElem?_workingLists_zero (lst x : List Byte) : (workingLists lst x)[0]? = some lst :=
  List.getElem?_scanl_zero

theorem workingLists_cons (lst : List Byte) (p : Byte) (x : List Byte) :
    workingLists lst (p :: x) = lst :: workingLists (moveToFront lst p.toNat) x :=
  List.scanl_cons

theorem moveToFront_of_getElem? {lst : List Byte} {p : Nat} {v : Byte} (h : lst[p]? = some v) :
    moveToFront lst p = v :: (lst.take p ++ lst.drop (p + 1)) := by
  rw [moveToFront, h]

theorem length_moveToFront (lst : List Byte) (p : Nat) : (moveToFront lst p).length = lst.length :=
  (moveToFront_perm lst p).length_eq

/-- Each working list is the one before it with the byte found moved to the front. -/
theorem getElem?_workingLists_succ {lst x l : List Byte} {i : Nat} {p v : Byte} (hp : x[i]? = some p)
    (hl : (workingLists lst x)[i]? = some l) (hv : l[p.toNat]? = some v) :
    (workingLists lst x)[i + 1]? = some (v :: (l.take p.toNat ++ l.drop (p.toNat + 1))) := by
  rw [workingLists] at hl
  rw [workingLists, List.getElem?_succ_scanl, hl, hp, ← moveToFront_of_getElem? hv]
  rfl

/-! ### The decoder's loop (R172) -/

theorem mtfDecode_cons (lst : List Byte) (p : Byte) (x : List Byte) :
    mtfDecode lst (p :: x) =
      lst[p.toNat]?.bind fun v => (mtfDecode (moveToFront lst p.toNat) x).map (v :: ·) := by
  rw [mtfDecode]
  cases lst[p.toNat]? <;> rfl

/-- The loop fails exactly if a position is outside the list, whose length never changes. -/
theorem mtfDecode_eq_none_iff (lst x : List Byte) : mtfDecode lst x = none ↔ ∃ p ∈ x, lst.length ≤ p.toNat := by
  induction x generalizing lst with
  | nil => simp [mtfDecode]
  | cons p x ih =>
    rw [mtfDecode_cons, List.exists_mem_cons_iff]
    by_cases hp : lst.length ≤ p.toNat
    · rw [List.getElem?_eq_none hp, Option.bind_none]
      exact iff_of_true rfl (.inl hp)
    · rw [List.getElem?_eq_getElem (Nat.lt_of_not_le hp), Option.bind_some, Option.map_eq_none_iff, ih,
        length_moveToFront, or_iff_right hp]

/-- Each byte decoded is the element of the current working list at its position. -/
theorem getElem?_mtfDecode {lst x out l : List Byte} {i : Nat} {p : Byte} (h : mtfDecode lst x = some out)
    (hp : x[i]? = some p) (hl : (workingLists lst x)[i]? = some l) : ∃ v, l[p.toNat]? = some v ∧ out[i]? = some v := by
  induction x generalizing lst out i with
  | nil => cases hp
  | cons q x ih =>
    rw [mtfDecode_cons, Option.bind_eq_some_iff] at h
    obtain ⟨v, hv, hrest⟩ := h
    obtain ⟨out', hout', rfl⟩ := Option.map_eq_some_iff.1 hrest
    rw [workingLists_cons] at hl
    cases i with
    | zero =>
      cases hp
      cases hl
      exact ⟨v, hv, rfl⟩
    | succ i =>
      rw [List.getElem?_cons_succ] at hp hl ⊢
      exact ih hout' hp hl

/-! ### The commands -/

/-- The indices MTFE writes (R170). -/
def mtfIndices (b : List Byte) : List Byte := (mtfEncode (initialAlphabet b) b).map (BitVec.ofNat 8)

@[simp] theorem length_mtfIndices (b : List Byte) : (mtfIndices b).length = b.length := by
  rw [mtfIndices, List.length_map, length_mtfEncode]

/-- The indices of a block decode to it from its own alphabet, which holds all its bytes and at most 256. -/
theorem mtfDecode_mtfIndices (b : List Byte) : mtfDecode (initialAlphabet b) (mtfIndices b) = some b :=
  mtfDecode_mtfEncode _ _ (initialAlphabet_length b) fun v => (mem_initialAlphabet b v).2

section
variable {s : State} {k d : Buf}

theorem exec_mtfe : exec (.mtfe k d) s =
    .next (((s.putAlphabet (initialAlphabet (s.block k))).putBlock d (mtfIndices (s.block k))).complete .ok) := rfl

theorem exec_mtfd {out : List Byte} (h : mtfDecode s.alphabet (s.block k) = some out) :
    exec (.mtfd k d) s = .next ((s.putBlock d out).complete .ok) := by
  simp only [exec, execMtfd, h, commit_eq]

theorem exec_mtfd_format (h : mtfDecode s.alphabet (s.block k) = none) :
    exec (.mtfd k d) s = .next (s.complete .format) := by
  simp only [exec, execMtfd, h, failWith_eq]

end

theorem toNat_ofNat_length_initialAlphabet (b : List Byte) :
    (BitVec.ofNat 32 (initialAlphabet b).length).toNat = (initialAlphabet b).length :=
  toNat_ofNat_of_lt ((initialAlphabet_length b).trans_lt (by decide))

/-- The alphabet a command reads after MTFE is the one MTFE wrote. -/
theorem alphabet_complete_putBlock_putAlphabet (s : State) (b : List Byte) (d : Buf) (out : List Byte) (e : ErrCode) :
    (((s.putAlphabet (initialAlphabet b)).putBlock d out).complete e).alphabet = initialAlphabet b :=
  State.alphabet_eq_of_stored (toNat_ofNat_length_initialAlphabet b) fun i hi =>
    (Store.get_put _ s.mem.alpha i).trans (if_pos hi)

/-- Settles O34: MTFD starts from MTFE's own alphabet, and every byte of the block is in it. -/
theorem mtfRoundTrip : Obligations.MtfRoundTrip := by
  intro k d d' s t ht
  rw [exec_mtfe] at ht
  cases ht
  have hlen : (mtfIndices (s.block k)).length < 2 ^ 32 := (length_mtfIndices _).trans_lt (s.block_length_lt k)
  refine ⟨_, exec_mtfd ?_, rfl, State.block_complete_putBlock _ _ _ _ (s.block_length_lt k)⟩
  rw [alphabet_complete_putBlock_putAlphabet, State.block_complete_putBlock _ _ _ _ hlen, mtfDecode_mtfIndices]

/-- Settles O32: the indices decode to the block, so each is the position of its byte in the current working list. -/
theorem mtfeWritesPositions : Obligations.MtfeWritesPositions := by
  rintro k d s b rfl
  have hlen : (mtfIndices (s.block k)).length < 2 ^ 32 := (length_mtfIndices _).trans_lt (s.block_length_lt k)
  refine ⟨by cases k <;> cases d <;> rfl, _, initialAlphabet (s.block k),
    workingLists (initialAlphabet (s.block k)) (mtfIndices (s.block k)), mtfIndices (s.block k), exec_mtfe, rfl,
    initialAlphabet_sorted _, mem_initialAlphabet _, toNat_ofNat_length_initialAlphabet _, Store.get_put _ s.mem.alpha,
    { (s.putAlphabet _).writesBlock_putBlock d hlen with }, length_mtfIndices _, getElem?_workingLists_zero _ _,
    fun i v p l hv hp hl => ?_⟩
  obtain ⟨w, hw, hbyte⟩ := getElem?_mtfDecode (mtfDecode_mtfIndices _) hp hl
  obtain rfl : v = w := Option.some_inj.1 (hv.symm.trans hbyte)
  exact ⟨hw, getElem?_workingLists_succ hp hl hw⟩

/-- Settles O33: the working lists all have the alphabet's length, so the loop fails exactly on an index beyond it. -/
theorem mtfdLooksUpPositions : Obligations.MtfdLooksUpPositions := by
  rintro k d s x rfl
  have hnone := mtfDecode_eq_none_iff s.alphabet (s.block k)
  rw [s.length_alphabet] at hnone
  refine ⟨by cases k <;> cases d <;> rfl, fun hbad => exec_mtfd_format (hnone.2 hbad), fun hgood => ?_⟩
  have hsome : mtfDecode s.alphabet (s.block k) ≠ none := fun h =>
    have ⟨p, hmem, hle⟩ := hnone.1 h
    Nat.not_lt.2 hle (hgood p hmem)
  obtain ⟨out, hout⟩ := Option.ne_none_iff_exists'.1 hsome
  have hlen := length_mtfDecode hout
  refine ⟨_, workingLists s.alphabet (s.block k), out, exec_mtfd hout, rfl,
    { s.writesBlock_putBlock d (hlen.trans_lt (s.block_length_lt k)) with }, hlen, getElem?_workingLists_zero _ _,
    fun i p l hp hl => ?_⟩
  obtain ⟨v, hv, hbyte⟩ := getElem?_mtfDecode hout hp hl
  exact ⟨v, hv, hbyte, getElem?_workingLists_succ hp hl hv⟩

end Sys2Proof.Machine

/-! ## RLEE writes the maximal runs of the block, and RLED expands a run list up to its first bad run -/

namespace Sys2Proof.Machine

/-! ### The runs of a sequence (R180, R181) -/

theorem snd_pos_of_mem_runsOf {x : List Byte} : ∀ p ∈ runsOf x, 0 < p.2 := by
  cases x with
  | nil => exact List.forall_mem_nil _
  | cons v x => exact runsFrom_pos v 1 Nat.one_pos x

/-- No run is longer than the sequence, because its repetitions are part of it. -/
theorem snd_le_length_of_mem_runsOf {x : List Byte} {p : Byte × Nat} (hp : p ∈ runsOf x) : p.2 ≤ x.length := by
  have hpart := (List.infix_of_mem_flatten (List.mem_map_of_mem (f := fun r => List.replicate r.2 r.1) hp)).length_le
  rwa [← List.flatMap_def, flatMap_runsOf, List.length_replicate] at hpart

theorem isChain_runsOf (x : List Byte) : (runsOf x).IsChain fun a b => a.1 ≠ b.1 := by
  cases x with
  | nil => exact .nil
  | cons v x => exact (isChain_runsFrom v 1 x).1

/-! ### The bytes a run list stands for (R182) -/

/-- The repetitions of each run, in order. -/
def expansion (rs : List Run) : List Byte := rs.flatMap fun r => List.replicate r.count.toNat r.value

theorem length_expansion (rs : List Run) : (expansion rs).length = (rs.map fun r => r.count.toNat).sum := by
  simp [expansion, List.length_flatMap]

/-- The expander gets past good runs that fit, with their bytes put out. -/
theorem expandRuns_append {cap : Nat} {good : List Run} (rest : List Run) {out : List Byte}
    (hgood : ∀ g ∈ good, g.count ≠ 0) (hfit : (out ++ expansion good).length ≤ cap) :
    expandRuns cap (good ++ rest) out = expandRuns cap rest (out ++ expansion good) := by
  induction good generalizing out with
  | nil => rw [expansion, List.flatMap_nil, List.append_nil, List.nil_append]
  | cons g good ih =>
    obtain ⟨hg, hrest⟩ := List.forall_mem_cons.1 hgood
    have hout : out ++ expansion (g :: good) = out ++ List.replicate g.count.toNat g.value ++ expansion good :=
      (List.append_assoc ..).symm
    rw [hout] at hfit ⊢
    have hroom : ¬cap < out.length + g.count.toNat := by simp at hfit; omega
    rw [List.cons_append, expandRuns, if_neg hg, if_neg hroom, ih hrest hfit]

/-! ### The run list of a block -/

/-- The run list RLEE writes for a block (R180). -/
def blockRuns (b : List Byte) : List Run := (runsOf b).map Run.ofPair

theorem length_blockRuns_le (b : List Byte) : (blockRuns b).length ≤ b.length := by
  rw [blockRuns, List.length_map]
  exact length_runsOf_le b

theorem value_ne_of_neighbours_blockRuns {b : List Byte} {j : Nat} {r r' : Run} (hr : (blockRuns b)[j]? = some r)
    (hr' : (blockRuns b)[j + 1]? = some r') : r.value ≠ r'.value := by
  have hchain : (blockRuns b).IsChain fun a b => a.value ≠ b.value :=
    (List.isChain_map Run.ofPair).2 (isChain_runsOf b)
  obtain ⟨_, rfl⟩ := List.getElem?_eq_some_iff.1 hr
  obtain ⟨hj, rfl⟩ := List.getElem?_eq_some_iff.1 hr'
  exact List.isChain_iff_getElem.1 hchain j hj

section
variable {b : List Byte} (hb : b.length ≤ Config.bufCapMax)
include hb

theorem length_blockRuns_lt : (blockRuns b).length < 2 ^ 32 :=
  ((length_blockRuns_le b).trans hb).trans_lt (by decide)

/-- The count of every run fits the 24 bits of its entry (R45). -/
theorem toNat_count_ofPair_of_mem_runsOf {p : Byte × Nat} (hp : p ∈ runsOf b) : (Run.ofPair p).count.toNat = p.2 :=
  toNat_ofNat_of_lt (((snd_le_length_of_mem_runsOf hp).trans hb).trans_lt (by decide))

theorem expansion_blockRuns : expansion (blockRuns b) = b := by
  rw [expansion, blockRuns, List.flatMap_map]
  calc (runsOf b).flatMap (fun p => List.replicate (Run.ofPair p).count.toNat (Run.ofPair p).value)
    _ = (runsOf b).flatMap fun p => List.replicate p.2 p.1 :=
      List.flatMap_congr fun p hp => by rw [toNat_count_ofPair_of_mem_runsOf hb hp, Run.ofPair]
    _ = b := flatMap_runsOf b

theorem count_ne_zero_of_mem_blockRuns : ∀ r ∈ blockRuns b, r.count ≠ 0 := by
  intro r hr
  obtain ⟨p, hp, rfl⟩ := List.mem_map.1 hr
  have hcount := toNat_count_ofPair_of_mem_runsOf hb hp
  intro h0
  rw [h0] at hcount
  exact (snd_pos_of_mem_runsOf p hp).ne hcount

end

/-! ### The commands -/

section
variable {s : State} {k d : Buf}

theorem exec_rlee : exec (.rlee k) s = .next ((s.putRuns (blockRuns (s.block k))).complete .ok) := rfl

theorem exec_rled {out : List Byte} (h : expandRuns s.bufCap s.runs [] = .ok out) :
    exec (.rled d) s = .next ((s.putBlock d out).complete .ok) := by
  simp only [exec, execRled, h, commit_eq]

theorem exec_rled_error {e : ErrCode} (h : expandRuns s.bufCap s.runs [] = .error e) :
    exec (.rled d) s = .next (s.complete e) := by
  simp only [exec, execRled, h, failWith_eq]

/-- RLED of nonempty runs that fit writes their expansion. -/
theorem exec_rled_expansion (hgood : ∀ r ∈ s.runs, r.count ≠ 0) (hfit : (expansion s.runs).length ≤ s.bufCap) :
    exec (.rled d) s = .next ((s.putBlock d (expansion s.runs)).complete .ok) :=
  exec_rled (expandRuns_ok s.bufCap s.runs [] hgood hfit)

/-- The run list a command reads after a commit of it. -/
theorem State.runs_complete_putRuns (s : State) {rs : List Run} (e : ErrCode) (h : rs.length < 2 ^ 32) :
    ((s.putRuns rs).complete e).runs = rs :=
  State.runs_eq_of_stored (toNat_ofNat_of_lt h) fun i hi => (Store.get_put rs s.mem.run i).trans (if_pos hi)

theorem State.LengthsLegal.length_block_le_bufCapMax (h : s.LengthsLegal) (k : Buf) :
    (s.block k).length ≤ Config.bufCapMax :=
  (h.length_block_le k).trans h.capMax

end

/-- Settles O37: the run list RLEE wrote has no empty run and expands to the block, which fits every buffer. -/
theorem rleRoundTrip : Obligations.RleRoundTrip := by
  intro k d s t hs ht
  rw [exec_rlee] at ht
  cases ht
  have hb := hs.length_block_le_bufCapMax k
  have hruns := s.runs_complete_putRuns .ok (length_blockRuns_lt hb)
  have hout := expansion_blockRuns hb
  refine ⟨_, exec_rled_expansion ?_ ?_, rfl, ?_⟩
  · rw [hruns]
    exact count_ne_zero_of_mem_blockRuns hb
  · rw [hruns, hout]
    exact hs.length_block_le k
  · rw [hruns, hout]
    exact State.block_complete_putBlock _ _ _ _ (s.block_length_lt k)

/-- Settles O35: the runs cover the block, and no count is cut to its 24 bits because the block is shorter. -/
theorem rleeWritesMaximalRuns : Obligations.RleeWritesMaximalRuns := by
  intro k s hs
  have hb := hs.length_block_le_bufCapMax k
  exact ⟨by cases k <;> rfl, _, blockRuns (s.block k), exec_rlee, rfl, toNat_ofNat_of_lt (length_blockRuns_lt hb),
    (length_blockRuns_le _).trans (hs.length_block_le k), Store.get_put _ s.mem.run, expansion_blockRuns hb,
    count_ne_zero_of_mem_blockRuns hb, fun _ _ _ => value_ne_of_neighbours_blockRuns⟩

/-- Settles O36: the expander gets past the good runs, and the run after them decides the code. -/
theorem rledExpandsRuns : Obligations.RledExpandsRuns := by
  intro d s hcap
  refine ⟨by cases d <;> rfl, ?_, fun good r rest hruns hgood hfit => ?_⟩
  · rintro out rfl hgood hfit
    have hlen : (expansion s.runs).length < 2 ^ 32 := (hfit.trans hcap).trans_lt (by decide)
    exact ⟨_, exec_rled_expansion hgood hfit, rfl, { s.writesBlock_putBlock d hlen with }⟩
  · rw [← length_expansion] at hfit ⊢
    have hbad : expandRuns s.bufCap s.runs [] = expandRuns s.bufCap (r :: rest) (expansion good) :=
      hruns ▸ expandRuns_append (r :: rest) hgood hfit
    rw [expandRuns] at hbad
    refine ⟨fun h0 => exec_rled_error ?_, fun h0 hover => exec_rled_error ?_⟩
    · rw [hbad, if_pos h0]
    · rw [hbad, if_neg h0, if_pos hover]

end Sys2Proof.Machine

/-! ## PACK writes each bit of the stream at its place, and UNPACK reads it back from there -/

namespace Sys2Proof.Machine

/-! ### Packed streams (R190) -/

theorem eq_packByte_of_getElem?_packBits {bits : List Bool} {q : Nat} {y : Byte} (h : (packBits bits)[q]? = some y) :
    y = packByte bits q := by
  obtain ⟨_, rfl⟩ := List.getElem?_eq_some_iff.1 h
  simp only [packBits, List.getElem_map, List.getElem_range]

/-- Bit `j` of an unpacked stream is the bit of the block at its place. -/
theorem eq_getLsbD_of_getElem?_unpackBits {y : List Byte} {m j : Nat} {b : Bool} (h : (unpackBits y m)[j]? = some b) :
    b = (y.getD (j / 8) 0).getLsbD (7 - j % 8) := by
  obtain ⟨_, rfl⟩ := List.getElem?_eq_some_iff.1 h
  simp only [unpackBits, List.getElem_map, List.getElem_range]

/-- A bit read with padding 0 past the end is the bit of the BitStream below BIT_LEN. -/
theorem State.getD_bits (s : State) (j : Nat) : s.bits.getD j false = (decide (j < s.bitLen.toNat) && s.bitAt j) := by
  rw [List.getD_eq_getElem?_getD, s.getElem?_bits]
  by_cases hj : j < s.bitLen.toNat <;> simp [hj]

theorem State.getD_block (s : State) {k : Buf} {i : Nat} (hi : i < (s.len.get k).toNat) :
    (s.block k).getD i 0 = s.byteAt k i := by
  rw [List.getD_eq_getElem?_getD, s.getElem?_block, if_pos hi, Option.getD_some]

theorem State.length_packBits_bits_lt (s : State) : (packBits s.bits).length < 2 ^ 32 := by
  have hm : s.bitLen.toNat < 2 ^ 32 := s.bitLen.isLt
  rw [length_packBits, s.length_bits, ceil8]
  omega

/-! ### The commands (R191, R193) -/

section
variable {s : State} {k d : Buf}

theorem exec_pack : exec (.pack d) s = .next ((s.putBlock d (packBits s.bits)).complete .ok) := rfl

theorem exec_unpack (h : (s.len.get k).toNat = ceil8 s.bitLen.toNat) :
    exec (.unpack k) s = .next ((s.putBits (unpackBits (s.block k) s.bitLen.toNat)).complete .ok) := by
  rw [exec, execUnpack, if_neg (not_not_intro h), commit_eq]

theorem exec_unpack_format (h : (s.len.get k).toNat ≠ ceil8 s.bitLen.toNat) :
    exec (.unpack k) s = .next (s.complete .format) := by
  rw [exec, execUnpack, if_pos h, failWith_eq]

end

/-- The BitStream a command reads after a commit of as many bits as BIT_LEN says. -/
theorem State.bits_complete_putBits (s : State) {bs : List Bool} (e : ErrCode) (h : s.bitLen.toNat = bs.length) :
    ((s.putBits bs).complete e).bits = bs :=
  State.bits_eq_of_stored h fun i hi => (Store.get_put bs s.mem.bit i).trans (if_pos hi)

/-- Settles O40: the block PACK leaves has the length UNPACK asks for, and unpacking it gives the stream. -/
theorem packUnpackRoundTrip : Obligations.PackUnpackRoundTrip := by
  intro d s t ht
  rw [exec_pack] at ht
  cases ht
  have hblock := s.block_complete_putBlock d _ .ok s.length_packBits_bits_lt
  have hbits : unpackBits (packBits s.bits) s.bitLen.toNat = s.bits := by
    rw [← s.length_bits, unpackBits_packBits]
  refine ⟨_, exec_unpack ?length, rfl, rfl, ?bits⟩
  case length =>
    rw [← State.length_block, hblock, length_packBits, s.length_bits, State.complete_bitLen, State.putBlock_bitLen]
  case bits =>
    rw [State.bits_complete_putBits _ _ (length_unpackBits ..).symm, hblock, State.complete_bitLen,
      State.putBlock_bitLen, hbits]

/-- Settles O38: byte `q` of the packed stream is made of bits `8q` to `8q + 7`. -/
theorem packWritesMsbFirst : Obligations.PackWritesMsbFirst := by
  intro d s
  refine ⟨by cases d <;> rfl, _, packBits s.bits, exec_pack, rfl,
    { s.writesBlock_putBlock d s.length_packBits_bits_lt with }, ?length, fun q y hy p hp => ?bit⟩
  case length => rw [length_packBits, s.length_bits, ceil8]
  case bit => rw [eq_packByte_of_getElem?_packBits hy, getLsbD_packByte _ q p hp, s.getD_bits]

/-- Settles O39: the byte that holds bit `j` is in the block, because the block has `ceil(BIT_LEN / 8)` bytes. -/
theorem unpackReadsMsbFirst : Obligations.UnpackReadsMsbFirst := by
  intro k s
  refine ⟨by cases k <;> rfl, exec_unpack_format, fun hlen => ?_⟩
  refine ⟨_, unpackBits (s.block k) s.bitLen.toNat, exec_unpack hlen, rfl, length_unpackBits _ _,
    Store.get_put _ s.mem.bit, fun j b hb => ?_⟩
  obtain ⟨hj, -⟩ := List.getElem?_eq_some_iff.1 hb
  rw [length_unpackBits] at hj
  have hbyte : j / 8 < (s.len.get k).toNat := by omega
  rw [eq_getLsbD_of_getElem?_unpackBits hb, s.getD_block hbyte]

end Sys2Proof.Machine

/-! ## Commands start at a write to CMD and always complete -/

namespace Sys2Proof.Machine

section
variable {s t : State} {c : Word} {i : Instr} {es : List Event}

/-! ### Acceptance (R201) -/

theorem step_write_cmd_idle (hp : s.phase = .idle) (hs : s.agenda = .host (.write 4 0x008#29 c) :: es) :
    step s = .next { State.accept c { s with agenda := es } with resp := some .writeDone, draws := s.draws + 1 } := by
  rw [step_write_idle hp (by decide) hs, locate_eq_cmd.2 (by decide)]
  rfl

theorem step_write_cmd_busy {b : Word} (hp : s.phase = .busy b) (hs : s.agenda = .host (.write 4 0x008#29 c) :: es) :
    step s = .next { s with agenda := es, ovr := true, resp := some .writeDone, draws := s.draws + 1 } := by
  rw [step_write (by decide) hs, locate_eq_cmd.2 (by decide),
    State.writeLoc_busy (s := { s with agenda := es }) (State.busy_eq_true.2 ⟨b, hp⟩) (by decide) (by decide)]

theorem State.eq_cmd_of_phase_writeIdle {v : Word} {l : Loc} (hs : s.phase = .idle)
    (ht : (s.writeIdle v l).phase = .busy c) : l = .cmd ∧ v = c := by
  cases l with
  | cmd => exact ⟨rfl, Phase.busy.inj ht⟩
  | _ => cases hs.symm.trans ht

/-- A host access that starts a command is an accepted write of its word to CMD. -/
theorem State.eq_write_cmd_of_phase_access {op : HostOp} (hs : s.phase = .idle)
    (ht : (s.access op).phase = .busy c) : op = .write 4 0x008#29 c := by
  cases href : busRefusal op with
  | some e =>
    rw [State.access_refused href] at ht
    cases hs.symm.trans ht
  | none =>
    obtain ⟨hn, ho⟩ := busRefusal_none.1 href
    cases op with
    | read n o =>
      obtain rfl : n = 4 := hn
      rw [State.access_read (o := o) ho] at ht
      cases hs.symm.trans ht
    | write n o v =>
      obtain rfl : n = 4 := hn
      rw [State.access_write (o := o) ho, State.writeLoc_idle (State.busy_eq_false.2 hs)] at ht
      obtain ⟨hl, rfl⟩ := State.eq_cmd_of_phase_writeIdle hs ht
      obtain rfl : o = 0x008#29 := BitVec.eq_of_toNat_eq (locate_eq_cmd.1 hl)
      rfl

/-! ### Completion (R202, R203) -/

theorem step_core_busy (hp : s.phase = .busy c) (hs : s.agenda = .core :: es) :
    step s = completion c { s with agenda := es } := by
  rw [step_core hs, coreTurn_busy (s := { s with agenda := es }) hp]

/-- Every command is the completion of its own word. -/
theorem completion_encode (i : Instr) (s : State) : completion (encode i) s = exec i s :=
  completion_ok ((decodeInvertsEncode _ i).2 rfl) s

/-- A completion ends with a code and writes nothing, or is the commit of a command. -/
theorem completion_cases (h : completion c s = .next t) :
    (∃ e, t = s.complete e) ∨ ∃ i u, Committed i s u ∧ t = u.complete .ok := by
  cases hd : decode c with
  | error e =>
    rw [completion_error hd] at h
    cases h
    exact .inl ⟨_, rfl⟩
  | ok i =>
    rw [completion_ok hd] at h
    rcases exec_cases h with ⟨e, -, he⟩ | ⟨u, ht, hu⟩
    · exact .inl ⟨e, he⟩
    · exact .inr ⟨i, u, hu, ht⟩

theorem CommitFrame.cmd (h : CommitFrame i s t) : t.cmd = s.cmd := by rw [h.control]

theorem CommitFrame.irqEn (h : CommitFrame i s t) : t.irqEn = s.irqEn := by rw [h.control]

theorem CommitFrame.agenda (h : CommitFrame i s t) : t.agenda = s.agenda := by rw [h.control]

theorem CommitFrame.resp (h : CommitFrame i s t) : t.resp = s.resp := by rw [h.control]

theorem decodeTableWord_eq_some_iff {nbits w : Nat} :
    decodeTableWord nbits w = some i ↔ BitVec.ofNat 32 (w % 2 ^ nbits) = encode i := by
  rw [← decodeInvertsEncode, decodeTableWord]
  cases decode (BitVec.ofNat 32 (w % 2 ^ nbits)) <;> simp

theorem Instr.eq_nop_of_op_eq_zero (h : i.fields.op = 0) : i = .nop := by
  cases i with
  | nop => rfl
  | _ => simp [Instr.fields] at h

/-! ### The tree automaton on a valid arena (R44, R141) -/

/-- The automaton can stand at arena index `cur`: an internal node, or the root. -/
def State.WalkNode (s : State) (cur : Nat) : Prop :=
  ∃ n, s.node? cur = some n ∧ (n.leaf = true → cur = s.root.toNat)

theorem State.ArenaOk.walkNode_root (h : s.ArenaOk) (hne : s.nodeCount ≠ 0) : s.WalkNode s.root.toNat := by
  obtain ⟨t, htree, -⟩ := h.tree hne
  obtain ⟨r, hr, -⟩ := State.readTree_cases htree
  exact ⟨r, hr, fun _ => rfl⟩

/-- The automaton meets no invalid index and moves to internal nodes only. -/
theorem State.ArenaOk.walkStep_cases (h : s.ArenaOk) (hroot : s.WalkNode s.root.toNat) {cur : Nat}
    (hcur : s.WalkNode cur) (b : Bool) :
    s.walkStep cur b = .missing ∨ (∃ v, s.walkStep cur b = .emit v) ∨
      ∃ j, s.walkStep cur b = .move j ∧ s.WalkNode j := by
  obtain ⟨r, hr, -⟩ := hroot
  obtain ⟨n, hn, honly⟩ := hcur
  cases hrleaf : r.leaf with
  | true =>
    have hstep := State.walkStep_leaf_root hr hrleaf cur b
    cases b with
    | false => exact .inr (.inl ⟨_, hstep⟩)
    | true => exact .inl hstep
  | false =>
    have hleaf : n.leaf = false := by
      by_contra hleaf
      have hcr := honly (Bool.eq_true_of_not_eq_false hleaf)
      rw [hcr, hr] at hn
      cases hn
      exact hleaf hrleaf
    obtain ⟨-, l, m, hl, hm, -⟩ := h.inner cur n hn hleaf
    obtain ⟨q, hq⟩ : ∃ q, s.node? (n.child b) = some q := by
      cases b with
      | false => exact ⟨l, hl⟩
      | true => exact ⟨m, hm⟩
    have hstep := State.walkStep_inner hr hrleaf hn hq
    cases hqleaf : q.leaf with
    | true => exact .inr (.inl ⟨q.sym, by rw [hstep, hqleaf, if_pos rfl]⟩)
    | false =>
      refine .inr (.inr ⟨n.child b, by rw [hstep, hqleaf]; rfl, q, hq, fun hq' => ?_⟩)
      cases hqleaf.symm.trans hq'

/-- The loop of R142 ends with an output or an error code. -/
theorem State.ArenaOk.decodeBits_cases (h : s.ArenaOk) (hroot : s.WalkNode s.root.toNat) (bits : List Bool) {cur : Nat}
    (hcur : s.WalkNode cur) (out : List Byte) :
    (∃ res, s.decodeBits bits cur out = .ok res) ∨ ∃ e, s.decodeBits bits cur out = .error (.code e) := by
  induction bits generalizing cur out with
  | nil =>
    rw [State.decodeBits]
    split
    · exact .inl ⟨out, rfl⟩
    · exact .inr ⟨_, rfl⟩
  | cons b bits ih =>
    rcases h.walkStep_cases hroot hcur b with hstep | ⟨v, hstep⟩ | ⟨j, hstep, hj⟩
    · exact .inr ⟨_, State.decodeBits_missing hstep⟩
    · rw [State.decodeBits_emit hstep]
      split
      · exact .inr ⟨_, rfl⟩
      · exact ih hroot _
    · rw [State.decodeBits_move hstep]
      exact ih hj out

theorem State.ArenaOk.exists_exec_hdec (h : s.ArenaOk) (d : Buf) : ∃ t, exec (.hdec d) s = .next t := by
  by_cases hb : s.bits = []
  · exact ⟨_, exec_hdec_nil hb⟩
  by_cases h0 : s.nodeCount = 0
  · exact ⟨_, exec_hdec_no_tree hb h0⟩
  have hroot := h.walkNode_root h0
  rcases h.decodeBits_cases hroot s.bits hroot [] with ⟨out, hout⟩ | ⟨e, he⟩
  · exact ⟨_, exec_hdec_ok (fun _ => h0) hout⟩
  · exact ⟨_, exec_hdec_error h0 he⟩

/-! ### Every command and every move ends in a next state -/

theorem exists_exec_srcDst {f : Buf → Buf → Instr} (hf : f ∈ [Instr.bwtf, Instr.bwti, Instr.mtfe, Instr.mtfd])
    (s : State) (k d : Buf) : ∃ t, exec (f k d) s = .next t := by
  rcases exec_srcDst_cases hf s k with ⟨e, -, he⟩ | ⟨b, out, -, hout⟩
  · exact ⟨_, he d⟩
  · exact ⟨_, hout d⟩

/-- Only HCODE, HDEC and HTSER need the arena to be valid (R44). -/
theorem State.ArenaOk.exists_exec (h : s.ArenaOk) (i : Instr) : ∃ t, exec i s = .next t := by
  cases i with
  | nop | hfreq k | rlee k | pack d => exact ⟨_, rfl⟩
  | bwtf k d | bwti k d | mtfe k d | mtfd k d => exact exists_exec_srcDst (by simp) s k d
  | htree =>
    by_cases hempty : occurring s.freqAt = []
    · exact ⟨_, exec_htree_empty hempty⟩
    · exact ⟨_, exec_htree hempty⟩
  | hcode =>
    by_cases h0 : s.nodeCount = 0
    · exact ⟨_, exec_hcode_empty h0⟩
    · obtain ⟨t, htree, -⟩ := h.tree h0
      exact ⟨_, exec_hcode_tree htree h0⟩
  | henc k =>
    cases hbits : encodeBytes s.codeAt (s.block k) with
    | none => exact ⟨_, exec_henc_none hbits⟩
    | some bits =>
      rw [exec_henc hbits]
      split <;> exact ⟨_, rfl⟩
  | hdec d => exact h.exists_exec_hdec d
  | htser d =>
    obtain ⟨out, hout, -⟩ := h.serial?
    rw [exec_htser hout]
    split <;> exact ⟨_, rfl⟩
  | htload k =>
    by_cases hempty : s.block k = []
    · exact ⟨_, exec_htload_nil hempty⟩
    cases hns : loadTree (s.block k) with
    | none => exact ⟨_, exec_htload_none hns hempty⟩
    | some ns => exact ⟨_, exec_htload_some hns hempty⟩
  | rled d =>
    cases hout : expandRuns s.bufCap s.runs [] with
    | error e => exact ⟨_, exec_rled_error hout⟩
    | ok out => exact ⟨_, exec_rled hout⟩
  | unpack k =>
    by_cases hlen : (s.len.get k).toNat = ceil8 s.bitLen.toNat
    · exact ⟨_, exec_unpack hlen⟩
    · exact ⟨_, exec_unpack_format hlen⟩

theorem State.ArenaOk.exists_coreTurn (h : s.ArenaOk) : ∃ t, coreTurn s = .next t := by
  cases hp : s.phase with
  | idle => exact ⟨s, coreTurn_idle hp⟩
  | busy c =>
    rw [coreTurn_busy hp]
    cases hd : decode c with
    | error e => exact ⟨_, completion_error hd s⟩
    | ok i =>
      rw [completion_ok hd]
      exact h.exists_exec i

theorem State.ArenaOk.exists_step (h : s.ArenaOk) : ∃ t, step s = .next t := by
  rcases hs : s.agenda with _ | ⟨op | _ | _, es⟩
  · rw [step_nil hs]
    exact h.exists_coreTurn
  · exact ⟨_, step_host hs⟩
  · rw [step_core hs]
    exact (h.of_sameArena (t := { s with agenda := es }) ⟨rfl, rfl, rfl⟩).exists_coreTurn
  · exact ⟨_, step_reset hs⟩

end

/-- Settles O6: an idle core accepts the write, a busy one flags it, and no other move leaves an idle core busy. -/
theorem onlyAnIdleCmdWriteStartsACommand : Obligations.OnlyAnIdleCmdWriteStartsACommand := by
  refine ⟨fun s c es hp hs => step_write_cmd_idle hp hs,
    fun s b c es hp hs => ⟨_, step_write_cmd_busy hp hs, hp, rfl, rfl⟩, fun s t c ht hp hbusy => ?_⟩
  rcases step_cases ht with ⟨es, -, hcore⟩ | ⟨op, es, hs, rfl⟩ | ⟨es, -, rfl⟩
  · cases (coreTurn_next_idle hcore).symm.trans hbusy
  · obtain rfl := State.eq_write_cmd_of_phase_access (s := { s with agenda := es }) hp hbusy
    exact ⟨es, hs⟩
  · cases hbusy

/-- Settles O8: a command is the completion of its own word, and a completion's commit leaves the control registers. -/
theorem completionMarksStatus : Obligations.CompletionMarksStatus := by
  intro s t h
  obtain ⟨c, hc⟩ : ∃ c, completion c s = .next t :=
    h.elim (fun ⟨i, hi⟩ => ⟨encode i, (completion_encode i s).trans hi⟩) id
  rcases completion_cases hc with ⟨e, rfl⟩ | ⟨i, u, hu, rfl⟩
  · exact ⟨rfl, rfl, rfl, rfl, rfl, rfl, rfl, rfl⟩
  · have hframe := hu.frame
    exact ⟨rfl, rfl, hframe.cmd, hframe.ovr, hframe.irqEn, hframe.bufCap, hframe.agenda, hframe.resp⟩

/-- Settles O11: on a valid arena the tree commands find the tree they ask for. -/
theorem everyCommandCompletes : Obligations.EveryCommandCompletes :=
  ⟨fun i _ h => h.exists_exec i, fun _ h => h.exists_step⟩

/-- Settles O5: the write is accepted as any other, and the completion of a word that decodes to none is a failure. -/
theorem unsupportedWordCompletes : Obligations.UnsupportedWordCompletes := by
  intro s c e es hd hp hs
  refine ⟨_, _, step_write_cmd_idle hp hs, (step_core_busy rfl rfl).trans (completion_error hd _), rfl, ?_⟩
  rw [hp]
  rfl

/-- Settles O7: the core's turn is the completion of the accepted word, which decodes to the command. -/
theorem stepRunsDecodedCommand : Obligations.StepRunsDecodedCommand := by
  refine ⟨fun s c i es hp hd => ⟨fun hs => ?_, fun hs => ?_⟩, fun s es hp => ⟨fun hs => ?_, fun hs => ?_⟩,
    fun s w i hw => ?_⟩
  · rw [step_core_busy hp hs, completion_ok hd]
  · rw [step_nil hs, coreTurn_busy hp, completion_ok hd]
  · rw [step_core hs, coreTurn_idle (s := { s with agenda := es }) hp]
  · rw [step_nil hs, coreTurn_idle hp]
  · rw [State.withFetchWord, decodeTableWord_eq_some_iff.1 hw, step_core_busy rfl rfl, completion_encode]
    rfl

/-- Settles O12: NOP is the empty commit, and the only command with opcode 0. -/
theorem nopDoesNothing : Obligations.NopDoesNothing := by
  refine ⟨fun _ => rfl, rfl, fun c hop hne => ?_, fun _ => ⟨rfl, rfl, rfl⟩⟩
  cases hd : decode c with
  | error e => exact ⟨e, rfl⟩
  | ok i =>
    have hnop : i = .nop := Instr.eq_nop_of_op_eq_zero ((congrArg CmdFields.op (decode_eq_ok_iff.1 hd)).symm.trans hop)
    subst hnop
    exact absurd ((decodeInvertsEncode c .nop).1 hd) hne

end Sys2Proof.Machine

/-! ## What a completion reports, what it leaves alone, and reset -/

namespace Sys2Proof.Machine

section
variable {s t u : State} {i : Instr}

/-! ### Error codes (R210) -/

/-- The codes with which the loop of R142 ends. -/
theorem State.code_of_decodeBits {bits : List Bool} {cur : Nat} {out : List Byte} {e : ErrCode}
    (h : s.decodeBits bits cur out = .error (.code e)) : e = .corruptStream ∨ e = .capacity := by
  induction bits generalizing cur out with
  | nil =>
    rw [State.decodeBits] at h
    split at h <;> cases h
    exact .inl rfl
  | cons b bits ih =>
    cases hstep : s.walkStep cur b with
    | malformed =>
      rw [State.decodeBits, hstep] at h
      cases h
    | missing =>
      rw [State.decodeBits_missing hstep] at h
      cases h
      exact .inl rfl
    | move j => exact ih (State.decodeBits_move hstep ▸ h)
    | emit v =>
      rw [State.decodeBits_emit hstep] at h
      split at h
      · cases h
        exact .inr rfl
      · exact ih h

/-- The codes with which the loop of R182 ends. -/
theorem code_of_expandRuns {cap : Nat} {rs : List Run} {out : List Byte} {e : ErrCode}
    (h : expandRuns cap rs out = .error e) : e = .format ∨ e = .capacity := by
  induction rs generalizing out with
  | nil => cases h
  | cons r rs ih =>
    rw [expandRuns] at h
    split at h
    · cases h
      exact .inl rfl
    split at h
    · cases h
      exact .inr rfl
    · exact ih h

theorem exec_hdec_malformed {d : Buf} (hb : s.bits ≠ []) (h0 : s.nodeCount ≠ 0)
    (h : s.decodeBits s.bits s.root.toNat [] = .error .malformed) : exec (.hdec d) s = .fault .malformedArena := by
  rw [exec, execHdec, if_neg hb, if_neg h0, h, Except.map, settle_malformed]

theorem exec_htser_malformed {d : Buf} (h : s.serial? = none) : exec (.htser d) s = .fault .malformedArena := by
  rw [State.serial?] at h
  rw [exec, execHtser, h, settle_malformed]

/-- An equation for the outcome of a command settles the code it reports. -/
theorem err_of_exec_eq (hu : exec i s = .next u) (h : exec i s = .next t) : t.err = u.err := by
  rw [hu] at h
  cases h
  rfl

theorem err_of_exec_hdec {d : Buf} (h : exec (.hdec d) s = .next t) :
    t.err = .ok ∨ t.err = .corruptStream ∨ t.err = .capacity := by
  by_cases hb : s.bits = []
  · exact .inl (err_of_exec_eq (exec_hdec_nil hb) h)
  by_cases h0 : s.nodeCount = 0
  · exact .inr (.inl (err_of_exec_eq (exec_hdec_no_tree hb h0) h))
  match hout : s.decodeBits s.bits s.root.toNat [] with
  | .ok out => exact .inl (err_of_exec_eq (exec_hdec_ok (fun _ => h0) hout) h)
  | .error (.code e) => exact .inr (err_of_exec_eq (exec_hdec_error h0 hout) h ▸ State.code_of_decodeBits hout)
  | .error .malformed => cases (exec_hdec_malformed hb h0 hout).symm.trans h

/-! ### Side information (R253) -/

/-- A command that changes the arena is HTREE or HTLOAD (R43). -/
theorem CommitFrame.eq_htree_or_htload (h : CommitFrame i s u)
    (hne : u.nodeCount ≠ s.nodeCount ∨ u.root ≠ s.root ∨ u.mem.node ≠ s.mem.node) :
    i = .htree ∨ ∃ k, i = .htload k := by
  by_contra hi
  obtain ⟨htree, hload⟩ := not_or.1 hi
  have same := h.arena htree fun k hk => hload ⟨k, hk⟩
  exact hne.elim (· same.nodeCount) fun hne => hne.elim (· same.root) (· same.node)

/-- Each piece of side information other than the arena differs between `s` and `t` only if `i` is a command that
writes it. -/
structure SideWriters (i : Instr) (s t : State) : Prop where
  origIndex : t.origIndex ≠ s.origIndex → ∃ k d, i = .bwtf k d
  alphabet  : t.alphaLen ≠ s.alphaLen ∨ t.mem.alpha ≠ s.mem.alpha → ∃ k d, i = .mtfe k d
  bitLen    : t.bitLen ≠ s.bitLen → ∃ k, i = .henc k
  bit       : t.mem.bit ≠ s.mem.bit → ∃ k, i = .henc k ∨ i = .unpack k
  runs      : t.runLen ≠ s.runLen ∨ t.mem.run ≠ s.mem.run → ∃ k, i = .rlee k
  freq      : t.freq ≠ s.freq → ∃ k, i = .hfreq k
  code      : t.code ≠ s.code → i = .hcode

theorem sideWriters_refl (i : Instr) (s : State) : SideWriters i s s where
  origIndex h := absurd rfl h
  alphabet h := h.elim (absurd rfl) (absurd rfl)
  bitLen h := absurd rfl h
  bit h := absurd rfl h
  runs h := h.elim (absurd rfl) (absurd rfl)
  freq h := absurd rfl h
  code h := absurd rfl h

theorem Committed.sideWriters (hu : Committed i s u) : SideWriters i s u := by
  have same := sideWriters_refl i s
  cases i with
  | nop | pack d =>
    cases hu
    exact { same with }
  | htree =>
    obtain ⟨-, rfl⟩ := hu
    exact { same with }
  | htload k => rcases hu with ⟨-, rfl⟩ | ⟨-, ns, -, rfl⟩ <;> exact { same with }
  | hdec d => rcases hu with ⟨-, rfl⟩ | ⟨-, -, out, -, rfl⟩ <;> exact { same with }
  | htser d =>
    obtain ⟨out, -, rfl, -⟩ := hu
    exact { same with }
  | bwti k d => rcases hu with ⟨-, rfl⟩ | ⟨-, -, rfl⟩ <;> exact { same with }
  | mtfd k d | rled d =>
    obtain ⟨out, -, rfl⟩ := hu
    exact { same with }
  | hfreq k =>
    cases hu
    exact { same with freq := fun _ => ⟨k, rfl⟩ }
  | hcode => rcases hu with ⟨-, rfl⟩ | ⟨-, tr, -, rfl⟩ <;> exact { same with code := fun _ => rfl }
  | henc k =>
    obtain ⟨bits, -, -, rfl⟩ := hu
    exact { same with bitLen := fun _ => ⟨k, rfl⟩, bit := fun _ => ⟨k, .inl rfl⟩ }
  | bwtf k d =>
    cases hu
    exact { same with origIndex := fun _ => ⟨k, d, rfl⟩ }
  | mtfe k d =>
    cases hu
    exact { same with alphabet := fun _ => ⟨k, d, rfl⟩ }
  | rlee k =>
    cases hu
    exact { same with runs := fun _ => ⟨k, rfl⟩ }
  | unpack k =>
    obtain ⟨-, rfl⟩ := hu
    exact { same with bit := fun _ => ⟨k, .inr rfl⟩ }

/-! ### The interrupt line (R214) -/

/-- A write to CTRL has its effect idle or busy. -/
theorem State.writeLoc_ctrl (s : State) (v : Word) : s.writeLoc v .ctrl = s.writeCtrl v := by
  simp [State.writeLoc, State.writeIdle]

/-- A write of 1 to the DONE bit of STATUS drops the line. -/
theorem State.irq_writeStatus {v : Word} (hv : v.getLsbD 1 = true) : (s.writeStatus v).irq = false := by
  simp [State.irq, State.writeStatus, hv]

theorem State.irq_eq_irqEn (h : s.done = true) : s.irq = s.irqEn := by
  rw [State.irq, h, Bool.true_and]

end

/-- Settles O9: every command is the completion of its own word, and a completion commits with OK or writes nothing. -/
theorem failureChangesOnlyStatus : Obligations.FailureChangesOnlyStatus := by
  have failed : ∀ (c : Word) (s t : State), completion c s = .next t → t.err ≠ .ok →
      t = { s with err := t.err, done := true, phase := .idle, draws := t.draws } := by
    intro c s t h herr
    rcases completion_cases h with ⟨e, rfl⟩ | ⟨i, u, -, rfl⟩
    · rfl
    · exact absurd rfl herr
  exact ⟨fun i s t h => failed (encode i) s t ((completion_encode i s).trans h), failed⟩

/-- Settles O10: a command that can fail does so under the conditions of its own check or loop. -/
theorem errorCodesByCommand : Obligations.ErrorCodesByCommand := by
  intro i s t h
  cases i with
  | nop | hfreq k | bwtf k d | mtfe k d | rlee k | pack d =>
    cases h
    exact List.mem_singleton_self _
  | hcode =>
    by_cases h0 : s.nodeCount = 0
    · simp [err_of_exec_eq (exec_hcode_empty h0) h]
    cases htree : s.tree? with
    | none => cases (exec_hcode_malformed htree h0).symm.trans h
    | some tr => simp [err_of_exec_eq (exec_hcode_tree htree h0) h]
  | htree =>
    by_cases hempty : occurring s.freqAt = []
    · simp [err_of_exec_eq (exec_htree_empty hempty) h]
    · simp [err_of_exec_eq (exec_htree hempty) h]
  | henc k =>
    cases hbits : encodeBytes s.codeAt (s.block k) with
    | none => simp [err_of_exec_eq (exec_henc_none hbits) h]
    | some bits =>
      rw [exec_henc hbits] at h
      split at h <;> cases h <;> simp
  | hdec d => simpa using err_of_exec_hdec h
  | htser d =>
    cases hout : s.serial? with
    | none => cases (exec_htser_malformed hout).symm.trans h
    | some out =>
      rw [exec_htser hout] at h
      split at h <;> cases h <;> simp
  | htload k =>
    by_cases hempty : s.block k = []
    · simp [err_of_exec_eq (exec_htload_nil hempty) h]
    cases hns : loadTree (s.block k) with
    | none => simp [err_of_exec_eq (exec_htload_none hns hempty) h]
    | some ns => simp [err_of_exec_eq (exec_htload_some hns hempty) h]
  | bwti k d =>
    by_cases hi : s.block k = [] ∨ s.origIndex.toNat < (s.block k).length
    · simp [err_of_exec_eq (exec_bwti hi) h]
    · obtain ⟨hb, hlen⟩ := not_or.1 hi
      simp [err_of_exec_eq (exec_bwti_format hb (Nat.not_lt.1 hlen)) h]
  | mtfd k d =>
    cases hout : mtfDecode s.alphabet (s.block k) with
    | none => simp [err_of_exec_eq (exec_mtfd_format hout) h]
    | some out => simp [err_of_exec_eq (exec_mtfd hout) h]
  | rled d =>
    cases hout : expandRuns s.bufCap s.runs [] with
    | error e => simpa [err_of_exec_eq (exec_rled_error hout) h] using .inr (code_of_expandRuns hout)
    | ok out => simp [err_of_exec_eq (exec_rled hout) h]
  | unpack k =>
    by_cases hlen : (s.len.get k).toNat = ceil8 s.bitLen.toNat
    · simp [err_of_exec_eq (exec_unpack hlen) h]
    · simp [err_of_exec_eq (exec_unpack_format hlen) h]

/-- Settles O14: a failure writes nothing, and a commit writes the pieces of its own command. -/
theorem sideInformationWriters : Obligations.SideInformationWriters := by
  intro i s t h
  rcases exec_cases h with ⟨e, -, rfl⟩ | ⟨u, rfl, hu⟩
  · have same := sideWriters_refl i s
    exact ⟨same.origIndex, same.alphabet, same.bitLen, same.bit, same.runs,
      fun hne => hne.elim (absurd rfl) (Or.elim · (absurd rfl) (absurd rfl)), same.freq, same.code⟩
  · have writers := hu.sideWriters
    exact ⟨writers.origIndex, writers.alphabet, writers.bitLen, writers.bit, writers.runs,
      hu.frame.eq_htree_or_htload, writers.freq, writers.code⟩

/-- Settles O55: a CTRL write reaches IRQ_EN alone, a STATUS write or an acceptance clears DONE, a completion sets it. -/
theorem interruptLine : Obligations.InterruptLine := by
  refine ⟨fun s => rfl, fun s => ?read, fun s v es hs => ?ctrl, fun s t v es hs hv ht => ?status,
    fun s t c es hp hs ht => ?cmd, fun s t h => ?completion⟩
  case read =>
    rw [locate_eq_ctrl.2 rfl, State.readLoc_of_readableBusy rfl]
    exact s.ctrlWord_eq
  case ctrl =>
    rw [step_write (by decide) hs, locate_eq_ctrl.2 (by decide), State.writeLoc_ctrl]
    rfl
  case status =>
    rw [step_write (by decide) hs, locate_eq_status.2 (by decide), State.writeLoc_status] at ht
    cases ht
    exact State.irq_writeStatus (s := { s with agenda := es }) hv
  case cmd =>
    rw [step_write_cmd_idle hp hs] at ht
    cases ht
    rfl
  case completion =>
    obtain ⟨hdone, -, -, -, hirqEn, -⟩ := completionMarksStatus s t h
    rw [State.irq_eq_irqEn hdone, hirqEn]

/-- Settles O54: the move is the reset of the machine as it stands, and reads nothing of the phase. -/
theorem resetAbortsEverything : Obligations.ResetAbortsEverything := fun _ _ hs => ⟨_, step_reset hs, rfl, rfl⟩

end Sys2Proof.Machine
